-- ==== Sys2Proof/Word.lean ====
section
/-! DEFINITION. The word types of the machine (R10): memory words, registers, addresses, channel numbers. -/

namespace Sys2Proof

/-- A 15-bit memory word, channel word or instruction word (R10). -/
abbrev Word15 := BitVec 15

/-- A 16-bit register value: bit 16 is the true sign S1, bit 15 the overflow bit S2 (R9, R10). -/
abbrev Word16 := BitVec 16

/-- A 12-bit address, K of R110 (R10). -/
abbrev Addr12 := BitVec 12

/-- A 10-bit erasable address, KE of R102 and R110. -/
abbrev Addr10 := BitVec 10

/-- A 9-bit channel number, KC of R103 (R10). -/
abbrev Chan9 := BitVec 9

end Sys2Proof
end

