-- ==== Sys2Proof/Machine/Bits.lean ====
section
/-! DEFINITION. Width conversions, values of patterns and the ones'-complement adder (R11, R12, R130, R133). -/

namespace Sys2Proof.Machine

/-- `sext16`: bit 16 takes bit 15 (R12). -/
def sext16 (w : Word15) : Word16 := w.extractLsb' 14 1 ++ w

/-- `zext16` of a 12-bit address (R20, R23). -/
def zext16 (k : Addr12) : Word16 := k.setWidth 16

/-- `ovc`: keep the true sign, drop bit 15 (R12). -/
def ovc (a : Word16) : Word15 := a.extractLsb' 15 1 ++ a.extractLsb' 0 14

/-- Bits 15..1 of a 16-bit pattern. -/
def low15 (a : Word16) : Word15 := a.extractLsb' 0 15

/-- Bits 12..1 of a 16-bit pattern. -/
def low12 (a : Word16) : Addr12 := a.extractLsb' 0 12

/-- Bits 12..1 of a 15-bit word. -/
def addr15 (w : Word15) : Addr12 := w.extractLsb' 0 12

/-- A 12-bit address as a 15-bit word with bits 15..13 = 0 (R307). -/
def addrWord (k : Addr12) : Word15 := k.setWidth 15

/-- `neg15` (R11). -/
def neg15 (w : Word15) : Word15 := ~~~w

/-- `neg16` (R11). -/
def neg16 (a : Word16) : Word16 := ~~~a

/-- `add16`: the 16-bit sum with end-around carry (R130). -/
def add16 (a b : Word16) : Word16 :=
  if 0o200000 ≤ a.toNat + b.toNat then BitVec.ofNat 16 (a.toNat + b.toNat - 0o200000 + 1)
  else BitVec.ofNat 16 (a.toNat + b.toNat)

/-- Bit 15 of a memory word, its sign (R9). -/
def sign15 (w : Word15) : Bool := w.getLsbD 14

/-- Bit 16 of a register, its true sign (R9). -/
def sign16 (a : Word16) : Bool := a.getLsbD 15

/-- The value of a memory word (R11). -/
def val15 (w : Word15) : Int := if sign15 w then -((neg15 w).toNat : Int) else (w.toNat : Int)

/-- The value of a register (R11). -/
def val16 (a : Word16) : Int :=
  if sign16 a then -((low15 (neg16 a)).toNat : Int) else ((low15 a).toNat : Int)

/-- +0 (R11). -/
def plusZero : Word16 := 0

/-- -0 (R11). -/
def minusZero : Word16 := 0o177777

/-- +1. -/
def plusOne : Word16 := 0o000001

/-- -1. -/
def minusOne : Word16 := 0o177776

/-- The zero of a given sign, as a memory word. -/
def zero15 (negative : Bool) : Word15 := if negative then 0o77777 else 0

end Sys2Proof.Machine
end

