-- ==== Sys2Proof/Machine/Flags.lean ====
section
/-! DEFINITION. The overflow state and the zero tests (R11, R12, R24, R39): functions of the value A holds, not bits
of their own. -/

namespace Sys2Proof.Machine

/-- `ovf`: bits 16 and 15 differ (R12, R24). -/
def ovf (a : Word16) : Bool := a.getLsbD 15 != a.getLsbD 14

/-- `posOvf`: bits 16..15 are 01 (R12). -/
def posOvf (a : Word16) : Bool := !a.getLsbD 15 && a.getLsbD 14

/-- `negOvf`: bits 16..15 are 10 (R12). -/
def negOvf (a : Word16) : Bool := a.getLsbD 15 && !a.getLsbD 14

/-- `isZero15` (R11). -/
def isZero15 (w : Word15) : Bool := w = 0 || w = 0o77777

/-- `isZero16` (R11). -/
def isZero16 (a : Word16) : Bool := a = 0 || a = 0o177777

/-- The overflow indicator of a value: +1, -1 or +0 (R142). -/
def overflowIndicator (a : Word16) : Word16 :=
  if posOvf a then plusOne else if negOvf a then minusOne else plusZero

end Sys2Proof.Machine
end

