-- ==== Sys2Proof/Config.lean ====
section
/-! DEFINITION. What an implementation fixes (the parameters of R7) and the free values: constants without a body,
of which no proof can see a value. -/

namespace Sys2Proof

/-- A parameter of R7 that names its effects and, beside them, a refusal of the step (R13, R232). -/
inductive OrRefuse (α : Type) where
  /-- The machine goes on in the named way. -/
  | take (v : α)
  /-- `refuse`: the step refuses. -/
  | refuse
  deriving DecidableEq, Repr

/-- Which bits INDEX keeps when its sum overflows (R108, `index_sum_mode`; log 6). -/
inductive IndexSumMode where
  /-- `ovc`: bit 16 becomes bit 15. -/
  | corrected
  /-- The low 15 bits. -/
  | wrap15
  deriving DecidableEq, Repr, Inhabited

/-- What an index of -0 makes of the word 000000, where R108's sum and R220's corner case differ (log 20). -/
inductive IndexMinusZero where
  /-- The sum of R108: the word 077777. -/
  | bySum
  /-- R220: the word is left unchanged. -/
  | unchanged
  deriving DecidableEq, Repr

/-- What the switched-erasable window reaches for EB = 0 and offsets 0000 to 0060 (R65, `window_e0_low`; log 5). -/
inductive WindowE0Low where
  /-- The access behaves as the access to address k - 1400. -/
  | sameAsDirect
  /-- A plain erasable word distinct from the register. -/
  | plainStorage
  deriving DecidableEq, Repr, Inhabited

/-- The zero DIM produces from a one (R141, `dim_zero_result`). -/
inductive DimZeroResult where
  /-- The adder's zero, which is -0. -/
  | adder
  /-- A free choice of +0 or -0. -/
  | draw
  deriving DecidableEq, Repr

/-- Whether EDRUPT runs (R223, `edrupt_policy`; log 7). -/
inductive EdruptPolicy where
  /-- EDRUPT has the effect of R223. -/
  | asRule
  /-- EDRUPT refuses. -/
  | refuse
  deriving DecidableEq, Repr

/-- The idle values of the six input channels, by octal channel number (R248, `channel_idle`). -/
structure ChannelIdle where
  c15 : Word15
  c16 : Word15
  c30 : Word15
  c31 : Word15
  c32 : Word15
  c33 : Word15
  deriving DecidableEq, Repr

/-- The parameters R7 leaves open and a model takes as arguments (log 4), but for the rope, the initial erasable contents
and the draws, which are the constants of Config below, and beside them `indexMinusZero`, which the model adds (log 20).
Bit numbers are stored less one. -/
structure Params where
  reeditOnRead : Bool
  lIs16bit : Bool
  indexSumMode : OrRefuse IndexSumMode
  indexMinusZero : IndexMinusZero
  windowE0Low : OrRefuse WindowE0Low
  edruptPolicy : EdruptPolicy
  channelIdle : ChannelIdle
  dimZeroResult : DimZeroResult
  instrCounterOverflow : Bool
  restartAlarms : Bool
  tcTrapBit : Fin 15
  ruptLockBit : Fin 15
  nightWatchmanBit : Fin 15
  deriving DecidableEq, Repr

/-- The latch of a channel at cold start: the idle value of an input channel (R248), else +0 (R40). -/
def Params.channelReset (p : Params) (c : Nat) : Word15 :=
  match c with
  | 0o15 => p.channelIdle.c15
  | 0o16 => p.channelIdle.c16
  | 0o30 => p.channelIdle.c30
  | 0o31 => p.channelIdle.c31
  | 0o32 => p.channelIdle.c32
  | 0o33 => p.channelIdle.c33
  | _ => 0

/-- Which of its accesses a step draws a missing-bank word for, so that no two draws of one step are tied. -/
inductive ReadUse where
  /-- The fetch that opens the step (R230). -/
  | fetch
  /-- An operand read of the instruction (R70). -/
  | operand
  /-- The fetch of the word saved on interrupt entry or by EDRUPT (R307, R223). -/
  | entry
  deriving DecidableEq, Repr

namespace Config

/-- Erasable contents at cold start, by bank * 256 + offset (R40, `initial_erasable`; log 2). -/
opaque initialErasable : Nat → Word15

/-- Cold-start contents of the words behind the low part of bank E0, by offset (R65; log 5). -/
opaque initialBehind : Nat → Word15

/-- The rope: word at offset o of fixed bank b is that of 1024 * b + o (R7, R353; log 3). -/
opaque rope : Nat → Word15

/-- Read of a fixed bank 044 to 047, by step number, access and bank * 1024 + offset (R64; log 8). -/
opaque missingFixedBankRead : Nat → ReadUse → Nat → Word15

/-- Read of a channel with no assigned function, by step number (R241; log 8). -/
opaque unassignedChannelRead : Nat → Chan9 → Word15

/-- Read of the scaler channels 3 and 4, by step number (R241, R247; log 8). -/
opaque scaler : Nat → Chan9 → Word15

/-- Whether a zero product of a and k is -0, by step number (R144, `mp_zero_sign`; log 8). -/
opaque mpZeroNegative : Nat → Word15 → Word15 → Bool

/-- The (A, L) pair of a division by zero or with a quotient out of range, L given as the 15 bits it extends,
by step number, A, L and divisor (R145, `dv_undefined`; log 8). -/
opaque dvUndefined : Nat → Word15 → Word15 → Word15 → Word16 × Word15

/-- Whether a zero quotient is -0 (R145, `dv_zero_sign`; log 8). -/
opaque dvQuotientZeroNegative : Nat → Word15 → Word15 → Word15 → Bool

/-- Whether a zero remainder is -0 (R145, `dv_zero_sign`; log 8). -/
opaque dvRemainderZeroNegative : Nat → Word15 → Word15 → Word15 → Bool

/-- Whether the zero DIM produces is -0, by step number (R141, `dim_zero_result = draw`; log 8). -/
opaque dimZeroNegative : Nat → Bool

/-- The way the machine takes an index sum that overflows, which the spec does not fix (R108; log 6). -/
opaque indexSumMode : IndexSumMode

/-- What the machine's low window does, which the spec does not fix (R65; log 5). -/
opaque windowE0Low : WindowE0Low

/-- The spec's idle values: no key, and every discrete inactive (R248). -/
def channelIdle : ChannelIdle where
  c15 := 0
  c16 := 0
  c30 := 0o77777
  c31 := 0o77777
  c32 := 0o77777
  c33 := 0o77777

/-- The default of every parameter of R7, three of them `refuse` (R7, R334, D6, D10, D20); `indexMinusZero` is the sum of
R108 (log 20). -/
def specDefaults : Params where
  reeditOnRead := true
  lIs16bit := false
  indexSumMode := .refuse
  indexMinusZero := .bySum
  windowE0Low := .refuse
  edruptPolicy := .refuse
  channelIdle := channelIdle
  dimZeroResult := .draw
  instrCounterOverflow := true
  restartAlarms := false
  tcTrapBit := 2
  ruptLockBit := 3
  nightWatchmanBit := 4

/-- The parameters of State.reset: R7's defaults, but for the three whose default is a refusal one of the other values R7
allows, so that the machine goes on (log 4 to 7). -/
def params : Params :=
  { specDefaults with
    indexSumMode := .take indexSumMode
    windowE0Low := .take windowE0Low
    edruptPolicy := .asRule }

end Config

end Sys2Proof
end

