-- ==== Sys2Proof/Syntax.lean ====
section
/-! DEFINITION. The instructions: one constructor per row of spec/opcode_table.json (R106, R107).
Double-word instructions hold K, the address of the more significant word (R105). -/

namespace Sys2Proof

inductive Instr where
  -- basic table (R106)
  | relint
  | inhint
  | extend
  | resume
  | tc (k : Addr12)
  | ccs (ke : Addr10)
  | tcf (k : Addr12)
  | das (k : Addr12)
  | lxch (ke : Addr10)
  | incr (ke : Addr10)
  | ads (ke : Addr10)
  | ca (k : Addr12)
  | cs (k : Addr12)
  | index (ke : Addr10)
  | dxch (k : Addr12)
  | ts (ke : Addr10)
  | xch (ke : Addr10)
  | ad (k : Addr12)
  | mask (k : Addr12)
  -- extended table (R107)
  | read (kc : Chan9)
  | write (kc : Chan9)
  | rand (kc : Chan9)
  | wand (kc : Chan9)
  | ror (kc : Chan9)
  | wor (kc : Chan9)
  | rxor (kc : Chan9)
  | edrupt (kc : Chan9)
  | dv (ke : Addr10)
  | bzf (k : Addr12)
  | msu (ke : Addr10)
  | qxch (ke : Addr10)
  | aug (ke : Addr10)
  | dim (ke : Addr10)
  | dca (k : Addr12)
  | dcs (k : Addr12)
  | indexExt (k : Addr12)
  | su (ke : Addr10)
  | bzmf (k : Addr12)
  | mp (k : Addr12)
  deriving DecidableEq, Repr

end Sys2Proof
end

