-- ==== Sys2Proof/Machine/State.lean ====
section
/-! DEFINITION. The state of the machine as plain data (R20 to R39), the events of the other two agents, the reasons a
step could stop, and the state right after a cold start (R40). -/

namespace Sys2Proof.Machine

/-- A memory of 15-bit words: (address, word) pairs, addresses strictly rising. An address not listed holds no word
of its own; what it reads as is said where it is read (log 1). -/
abbrev Memory := List (Nat × Word15)

/-- The ten interrupt sources in priority order (R301). -/
inductive Source where
  | t6rupt | t5rupt | t3rupt | t4rupt | keyrupt1 | keyrupt2 | uprupt | downrupt | radarupt | handrupt
  deriving DecidableEq, Repr

/-- One pending request per source (R37, R302). -/
structure Requests where
  t6rupt : Bool
  t5rupt : Bool
  t3rupt : Bool
  t4rupt : Bool
  keyrupt1 : Bool
  keyrupt2 : Bool
  uprupt : Bool
  downrupt : Bool
  radarupt : Bool
  handrupt : Bool
  deriving DecidableEq, Repr

/-- The kinds of counter request (R320). -/
inductive CounterKind where
  | pinc | minc | dinc | pcdu | mcdu | shinc | shanc
  deriving DecidableEq, Repr

/-- The causes of a hardware restart (R331, R332, R333). -/
inductive Alarm where
  | tcTrap | ruptLock | nightWatchman
  deriving DecidableEq, Repr

/-- What the counter agent or the host may do at a boundary (R321, R330, R340). -/
inductive Event where
  /-- A counter request (a, k). -/
  | counter (a : Nat) (k : CounterKind)
  /-- `PanelEvent(c, v)`. -/
  | panel (c : Chan9) (v : Word16)
  /-- `Raise(n)`. -/
  | raise (n : Source)
  /-- A hardware restart. -/
  | alarm (c : Alarm)
  deriving DecidableEq, Repr

/-- `ChannelUpdate(c, value)` with the number of the step that emitted it (R341). -/
structure ChannelUpdate where
  step : Nat
  channel : Chan9
  value : Word15
  deriving DecidableEq, Repr

/-- A central register, by address (R20). -/
inductive Reg where
  | a | l | q | eb | fb | z | bb | zero
  deriving DecidableEq, Repr

/-- What a 12-bit address resolves to (R62 to R65). -/
inductive Loc where
  /-- A central register. -/
  | reg (r : Reg)
  /-- An erasable word, by bank * 256 + offset. -/
  | erasable (a : Nat)
  /-- A word behind the low part of bank E0, by offset (R65, `plain_storage`). -/
  | behind (o : Nat)
  /-- A fixed word, by bank * 1024 + offset. -/
  | fixed (a : Nat)
  /-- A word of a fixed bank that does not exist (R64). -/
  | missing (a : Nat)
  deriving DecidableEq, Repr

/-- Why a machine does not run on. No step answers one of these: the CORE has no fault (R300, R232). -/
inductive Fault where
  /-- `LoadError`: the rope image has the wrong length or a malformed word (R353). Raised by `coldStart`, before the
  first step, and by no step. Safe: the spec says the simulation cannot start. -/
  | loadError
  deriving DecidableEq, Repr

/-- Why a step refuses. A machine whose parameters name no refusal answers none of these (R232). -/
inductive Refusal where
  /-- The instruction of this mnemonic has no meaning yet. Raised by an arm of `exec`; no arm raises it now. Safe. -/
  | notModelled (mnemonic : String)
  /-- `refuse window_e0_low` (R65, R70): an access through the window to the low part of bank E0. Raised by `step` for a
  fetch or an operand address, under `windowE0Low = refuse` only. Safe: the spec's own refusal (log 5). -/
  | windowE0Low
  /-- `refuse index_sum_overflow` (R108): an index sum that overflows. Raised by `step`, under `indexSumMode = refuse`
  only. Safe: the spec's own refusal (log 6). -/
  | indexSumOverflow
  /-- `refuse edrupt` (R223, R232). Raised by EDRUPT, under `edruptPolicy = refuse` only. Safe: the spec's own refusal
  (log 7). -/
  | edrupt
  deriving DecidableEq, Repr

structure State where
  /-- A, the accumulator (R21). -/
  a : Word16
  /-- L, the lower accumulator (R22). -/
  l : Word16
  /-- Q, the return address register (R23). -/
  q : Word16
  /-- EB, the erasable bank (R25). -/
  eb : BitVec 3
  /-- FB, the fixed bank (R26). -/
  fb : BitVec 5
  /-- Z, the program counter (R27). -/
  z : Addr12
  /-- Erasable words written since cold start, by bank * 256 + offset (R34). -/
  erasable : Memory
  /-- The words behind the low part of bank E0 written since cold start, by offset (R65). -/
  behind : Memory
  /-- Fixed words placed by a loader, by bank * 1024 + offset (R34, R353). -/
  fixed : Memory
  /-- Channel latches that differ from their cold-start value, by channel number (R35, log 12). -/
  chan : Memory
  /-- The next word is an extracode (R36). -/
  ext : Bool
  /-- The pending index value (R36). -/
  idx : Option Word16
  /-- The word RESUME hands to the next fetch (R36). -/
  resumeWord : Option Word15
  /-- Interrupts are inhibited (R37). -/
  inhint : Bool
  /-- An interrupt is being serviced (R37). -/
  isr : Bool
  /-- The pending interrupt requests (R37). -/
  pending : Requests
  /-- The output history (R341). -/
  history : List ChannelUpdate
  /-- The number of CORE steps taken (R341); the free values are functions of it (log 8, 15). -/
  steps : Nat
  /-- The last instruction was a TC or TCF to its own address (R331, log 10). -/
  lastSelfJump : Bool
  /-- The parameters of R7 (log 4). -/
  params : Params
  /-- What the counter agent and the host do at the boundaries to come, the next one first (log 9). -/
  boundaries : List (List Event)
  deriving DecidableEq, Repr

/-- No request pending. -/
def Requests.none : Requests where
  t6rupt := false
  t5rupt := false
  t3rupt := false
  t4rupt := false
  keyrupt1 := false
  keyrupt2 := false
  uprupt := false
  downrupt := false
  radarupt := false
  handrupt := false

/-- The machine right after a cold start (R40, R351). -/
def State.reset : State where
  a := 0
  l := 0
  q := 0
  eb := 0
  fb := 0
  z := 0o4000
  erasable := []
  behind := []
  fixed := []
  chan := []
  ext := false
  idx := .none
  resumeWord := .none
  inhint := true
  isr := false
  pending := Requests.none
  history := []
  steps := 0
  lastSelfJump := false
  params := Config.params
  boundaries := []

end Sys2Proof.Machine
end

