-- ==== Sys2Proof/Machine/Operands.lean ====
section
/-! DEFINITION. The operand forms (R105, R110): where the address of an operand comes from, and the addresses an
instruction reads or writes. -/

namespace Sys2Proof.Machine

/-- KE zero-extended to an address (R110). -/
def keAddr (ke : Addr10) : Addr12 := ke.setWidth 12

/-- K + 1 mod 010000, the address of the less significant word of a pair (R77). -/
def succAddr (k : Addr12) : Addr12 := k + 1

/-- The addresses at which an instruction reads or writes memory, by its rule; `z` is Z during execute, where EDRUPT
fetches (R70, R71, R223). -/
def operandAddrs (i : Instr) (z : Addr12) : List Addr12 :=
  match i with
  | .ccs ke | .lxch ke | .incr ke | .ads ke | .index ke | .ts ke | .xch ke => [keAddr ke]
  | .dv ke | .msu ke | .qxch ke | .aug ke | .dim ke | .su ke => [keAddr ke]
  | .ca k | .cs k | .ad k | .mask k | .indexExt k | .mp k => [k]
  | .das k | .dxch k | .dca k | .dcs k => [succAddr k, k]
  | .resume => [0o15, 0o17]
  | .edrupt _ => [z, 0o17, 0o15]
  | .relint | .inhint | .extend | .tc _ | .tcf _ | .bzf _ | .bzmf _ => []
  | .read _ | .write _ | .rand _ | .wand _ | .ror _ | .wor _ | .rxor _ => []

end Sys2Proof.Machine
end

