-- ==== Sys2Proof/Machine/Ops.lean ====
section
/-! DEFINITION. The named operations: the memory form, the central registers, address resolution, Read, Write and fetch
(R60 to R78), the channel multiplexer (R240 to R247), interrupt requests, counters (R320 to R326), interrupt entry and
return (R303 to R307, R222) and GOJAM (R350). -/

namespace Sys2Proof.Machine

/-! ## The memory form -/

/-- The word listed at an address. -/
def Memory.find (m : Memory) (a : Nat) : Option Word15 :=
  match m with
  | [] => none
  | (b, w) :: rest => if a = b then some w else Memory.find rest a

/-- The memory with an address listed as a word. -/
def Memory.put (m : Memory) (a : Nat) (v : Word15) : Memory :=
  match m with
  | [] => [(a, v)]
  | (b, w) :: rest =>
    if a < b then (a, v) :: (b, w) :: rest
    else if a = b then (a, v) :: rest
    else (b, w) :: Memory.put rest a v

/-- The memory with an address not listed. -/
def Memory.drop (m : Memory) (a : Nat) : Memory :=
  match m with
  | [] => []
  | (b, w) :: rest => if a = b then Memory.drop rest a else (b, w) :: Memory.drop rest a

/-- Addresses strictly rise and lie from `lo` up to below `hi`. -/
def Memory.ordered (lo hi : Nat) (m : Memory) : Bool :=
  match m with
  | [] => true
  | (b, _) :: rest => decide (lo ≤ b) && decide (b < hi) && Memory.ordered (b + 1) hi rest

/-- The canonical form of a memory of `size` words (log 1). -/
def Memory.wf (size : Nat) (m : Memory) : Bool := Memory.ordered 0 size m

/-- No listed word equals what the address would read as if it were not listed. -/
def Memory.noneIdle (idle : Nat → Word15) (m : Memory) : Bool := m.all fun p => p.2 != idle p.1

/-! ## Setters -/

def State.setA (s : State) (v : Word16) : State := { s with a := v }
def State.setL (s : State) (v : Word16) : State := { s with l := v }
def State.setQ (s : State) (v : Word16) : State := { s with q := v }
def State.setEb (s : State) (v : BitVec 3) : State := { s with eb := v }
def State.setFb (s : State) (v : BitVec 5) : State := { s with fb := v }
def State.setZ (s : State) (k : Addr12) : State := { s with z := k }
def State.setExt (s : State) (b : Bool) : State := { s with ext := b }
def State.setIdx (s : State) (x : Option Word16) : State := { s with idx := x }
def State.setResumeWord (s : State) (w : Option Word15) : State := { s with resumeWord := w }
def State.setInhint (s : State) (b : Bool) : State := { s with inhint := b }
def State.setIsr (s : State) (b : Bool) : State := { s with isr := b }
def State.setPending (s : State) (r : Requests) : State := { s with pending := r }
def State.setLastSelfJump (s : State) (b : Bool) : State := { s with lastSelfJump := b }
def State.setBoundaries (s : State) (es : List (List Event)) : State := { s with boundaries := es }

/-- Count the step just taken. -/
def State.tick (s : State) : State := { s with steps := s.steps + 1 }

/-- `ChannelUpdate(c, value)`, tagged with the step being taken, the first step being step 1 (R341). -/
def State.emit (s : State) (c : Chan9) (v : Word15) : State :=
  { s with history := s.history ++ [⟨s.steps + 1, c, v⟩] }

/-! ## The memories -/

/-- A word of erasable memory, by bank * 256 + offset; one not written since cold start holds `initial_erasable`
(R40, log 2). -/
def State.erasableWord (s : State) (a : Nat) : Word15 := (Memory.find s.erasable a).getD (Config.initialErasable a)

def State.putErasable (s : State) (a : Nat) (w : Word15) : State := { s with erasable := Memory.put s.erasable a w }

/-- A word behind the low part of bank E0, by offset (R65, log 5). -/
def State.behindWord (s : State) (o : Nat) : Word15 := (Memory.find s.behind o).getD (Config.initialBehind o)

def State.putBehind (s : State) (o : Nat) (w : Word15) : State := { s with behind := Memory.put s.behind o w }

/-- A word of fixed memory, by bank * 1024 + offset (R34, log 3). -/
def State.fixedWord (s : State) (a : Nat) : Word15 := (Memory.find s.fixed a).getD (Config.rope a)

/-- A channel latch (R35). -/
def State.latch (s : State) (c : Nat) : Word15 := (Memory.find s.chan c).getD (s.params.channelReset c)

/-- Set a channel latch, kept in canonical form (log 12). -/
def State.putLatch (s : State) (c : Nat) (w : Word15) : State :=
  if w = s.params.channelReset c then { s with chan := Memory.drop s.chan c }
  else { s with chan := Memory.put s.chan c w }

/-! ## Address resolution -/

/-- FEB, the superbank bit: channel 7 bit 7 (R64). -/
def State.feb (s : State) : Bool := (s.latch 7).getLsbD 6

/-- `fbank(FB, FEB)` (R64). -/
def fbank (fb : BitVec 5) (feb : Bool) : Nat :=
  if 0o30 ≤ fb.toNat ∧ feb = true then fb.toNat + 0o10 else fb.toNat

/-- The access is through the window to the low part of bank E0 (R65). -/
def State.inLowWindow (s : State) (k : Addr12) : Bool :=
  s.eb = 0 && decide (0o1400 ≤ k.toNat) && decide (k.toNat ≤ 0o1460)

/-- The address an access acts as: under `same_as_direct` the low window acts as address k - 1400 (R65). -/
def State.direct (s : State) (k : Addr12) : Addr12 :=
  if s.inLowWindow k = true ∧ s.params.windowE0Low = .take .sameAsDirect then k - 0o1400 else k

/-- An access to the address refuses: `refuse window_e0_low` (R65, R70). -/
def State.windowRefuses (s : State) (k : Addr12) : Bool :=
  decide (s.params.windowE0Low = .refuse) && s.inLowWindow k

/-- The central register at an address 0 to 7 (R20). -/
def regAt (n : Nat) : Reg :=
  match n with
  | 0 => .a
  | 1 => .l
  | 2 => .q
  | 3 => .eb
  | 4 => .fb
  | 5 => .z
  | 6 => .bb
  | _ => .zero

/-- The erasable word at an address 010 to 01777 (R62, R63). -/
def State.erasableLoc (s : State) (n : Nat) : Loc :=
  if n < 0o400 then .erasable (0 * 256 + n)
  else if n < 0o1000 then .erasable (1 * 256 + (n - 0o400))
  else if n < 0o1400 then .erasable (2 * 256 + (n - 0o1000))
  else if s.eb = 0 ∧ n - 0o1400 < 0o61 then .behind (n - 0o1400)
  else .erasable (s.eb.toNat * 256 + (n - 0o1400))

/-- The fixed word at an address 02000 to 07777 (R62, R64). -/
def State.fixedLoc (s : State) (n : Nat) : Loc :=
  if n < 0o4000 then
    if fbank s.fb s.feb < 36 then .fixed (fbank s.fb s.feb * 1024 + (n - 0o2000))
    else .missing (fbank s.fb s.feb * 1024 + (n - 0o2000))
  else if n < 0o6000 then .fixed (2 * 1024 + (n - 0o4000))
  else .fixed (3 * 1024 + (n - 0o6000))

/-- What an address resolves to under the current banks (R62 to R66). -/
def State.resolve (s : State) (k : Addr12) : Loc :=
  let n := (s.direct k).toNat
  if n < 8 then .reg (regAt n)
  else if n < 0o2000 then s.erasableLoc n
  else s.fixedLoc n

/-! ## Read, Write, re-edit, fetch -/

/-- The read value of a central register (R20, R29). -/
def State.readReg (s : State) (r : Reg) : Word16 :=
  match r with
  | .a => s.a
  | .l => s.l
  | .q => s.q
  | .eb => sext16 (0#4 ++ (s.eb ++ 0#8))
  | .fb => sext16 (s.fb ++ 0#10)
  | .z => zext16 s.z
  | .bb => sext16 (s.fb ++ (0#7 ++ s.eb))
  | .zero => plusZero

/-- Bits 15..11 of the overflow-corrected value, for FB and BB (R26, R28). -/
def fbField (v : Word16) : BitVec 5 := (ovc v).extractLsb' 10 5

/-- The write of a central register (R21 to R29). -/
def State.writeReg (s : State) (r : Reg) (v : Word16) : State :=
  match r with
  | .a => s.setA v
  | .l => s.setL (if s.params.lIs16bit then v else sext16 (ovc v))
  | .q => s.setQ v
  | .eb => s.setEb (v.extractLsb' 8 3)
  | .fb => s.setFb (fbField v)
  | .z => s.setZ (low12 v)
  | .bb => (s.setFb (fbField v)).setEb (v.extractLsb' 0 3)
  | .zero => s

/-- What a write to an erasable word stores: the editing registers 020 to 023 edit it (R31). -/
def edit (a : Nat) (w : Word15) : Word15 :=
  match a with
  | 0o20 => w.extractLsb' 0 1 ++ w.extractLsb' 1 14
  | 0o21 => w.extractLsb' 14 1 ++ w.extractLsb' 1 14
  | 0o22 => w.extractLsb' 0 14 ++ w.extractLsb' 14 1
  | 0o23 => 0#8 ++ w.extractLsb' 7 7
  | _ => w

/-- `Read(k)` for one of a step's accesses (R70). -/
def State.readAs (s : State) (u : ReadUse) (k : Addr12) : Word16 :=
  match s.resolve k with
  | .reg r => s.readReg r
  | .erasable a => sext16 (s.erasableWord a)
  | .behind o => sext16 (s.behindWord o)
  | .fixed a => sext16 (s.fixedWord a)
  | .missing a => sext16 (Config.missingFixedBankRead s.steps u a)

/-- `Read(k)`, an instruction's operand read (R70). -/
def State.read (s : State) (k : Addr12) : Word16 := s.readAs .operand k

/-- `Write(k, v)` (R71, R72). -/
def State.write (s : State) (k : Addr12) (v : Word16) : State :=
  match s.resolve k with
  | .reg r => s.writeReg r v
  | .erasable a => s.putErasable a (edit a (ovc v))
  | .behind o => s.putBehind o (ovc v)
  | .fixed _ => s
  | .missing _ => s

/-- The access reaches an editing register, 020 to 023 (R31, R73). -/
def State.isEditing (s : State) (k : Addr12) : Bool :=
  decide (0o20 ≤ (s.direct k).toNat) && decide ((s.direct k).toNat ≤ 0o23)

/-- `reedit(k)`: the rewrite of an editing register that an operand read reached (R73, R148). -/
def State.reedit (s : State) (k : Addr12) : State :=
  if s.params.reeditOnRead = true ∧ s.isEditing k = true then s.write k (s.read k) else s

/-- `fetch(k)`: the word at an address, with no re-edit (R74). -/
def State.fetch (s : State) (u : ReadUse) (k : Addr12) : Word15 := ovc (s.readAs u k)

/-- `skip(n)` (R13, R183, R231). -/
def State.skip (s : State) (n : Addr12) : State := s.setZ (s.z + n)

/-! ## Interrupt requests -/

/-- The request flag of a source (R302). -/
def Requests.get (r : Requests) (n : Source) : Bool :=
  match n with
  | .t6rupt => r.t6rupt
  | .t5rupt => r.t5rupt
  | .t3rupt => r.t3rupt
  | .t4rupt => r.t4rupt
  | .keyrupt1 => r.keyrupt1
  | .keyrupt2 => r.keyrupt2
  | .uprupt => r.uprupt
  | .downrupt => r.downrupt
  | .radarupt => r.radarupt
  | .handrupt => r.handrupt

/-- Set the request flag of a source. -/
def Requests.set (r : Requests) (n : Source) (b : Bool) : Requests :=
  match n with
  | .t6rupt => { r with t6rupt := b }
  | .t5rupt => { r with t5rupt := b }
  | .t3rupt => { r with t3rupt := b }
  | .t4rupt => { r with t4rupt := b }
  | .keyrupt1 => { r with keyrupt1 := b }
  | .keyrupt2 => { r with keyrupt2 := b }
  | .uprupt => { r with uprupt := b }
  | .downrupt => { r with downrupt := b }
  | .radarupt => { r with radarupt := b }
  | .handrupt => { r with handrupt := b }

/-- The priority number of a source, 1 the highest (R301). -/
def Source.number (n : Source) : Nat :=
  match n with
  | .t6rupt => 1
  | .t5rupt => 2
  | .t3rupt => 3
  | .t4rupt => 4
  | .keyrupt1 => 5
  | .keyrupt2 => 6
  | .uprupt => 7
  | .downrupt => 8
  | .radarupt => 9
  | .handrupt => 10

/-- The vector address of a source (R301). -/
def Source.vector (n : Source) : Addr12 :=
  match n with
  | .t6rupt => 0o4004
  | .t5rupt => 0o4010
  | .t3rupt => 0o4014
  | .t4rupt => 0o4020
  | .keyrupt1 => 0o4024
  | .keyrupt2 => 0o4030
  | .uprupt => 0o4034
  | .downrupt => 0o4040
  | .radarupt => 0o4044
  | .handrupt => 0o4050

/-- The sources in priority order (R301). -/
def Source.all : List Source :=
  [.t6rupt, .t5rupt, .t3rupt, .t4rupt, .keyrupt1, .keyrupt2, .uprupt, .downrupt, .radarupt, .handrupt]

/-- The pending source of the lowest number, if any (R305). -/
def Requests.first (r : Requests) : Option Source := Source.all.find? r.get

/-- `raise Interrupt(n)` (R302). -/
def State.raise (s : State) (n : Source) : State := s.setPending (s.pending.set n true)

/-! ## The channel multiplexer -/

/-- `InputChannels` (R247). -/
def inputChannels : List Nat := [0o15, 0o16, 0o30, 0o31, 0o32, 0o33]

/-- The output channels with the ordinary write (R247). -/
def outputChannels : List Nat := [0o5, 0o6, 0o10, 0o11, 0o12, 0o13, 0o14, 0o34, 0o35]

/-- `ChanRead(c)` (R241). -/
def State.chanRead (s : State) (c : Chan9) : Word16 :=
  if c.toNat = 1 then s.l
  else if c.toNat = 2 then s.q
  else if c.toNat = 3 ∨ c.toNat = 4 then sext16 (Config.scaler s.steps c)
  else if c.toNat ∈ inputChannels then sext16 (s.latch c.toNat)
  else if c.toNat ∈ outputChannels ∨ c.toNat = 0o7 ∨ c.toNat = 0o77 then sext16 (s.latch c.toNat)
  else sext16 (Config.unassignedChannelRead s.steps c)

/-- A write to an output channel: the latch, and the event of R243 (R242, R243). -/
def State.output (s : State) (c : Chan9) (w : Word15) : State := (s.putLatch c.toNat w).emit c w

/-- `ChanWrite(c, v)` (R242); 07 and 077 are output channels too, with a write of their own (R247; log 11). -/
def State.chanWrite (s : State) (c : Chan9) (v : Word16) : State :=
  if c.toNat = 1 then s.writeReg .l v
  else if c.toNat = 2 then s.writeReg .q v
  else if c.toNat ∈ inputChannels ∨ c.toNat = 3 ∨ c.toNat = 4 then s
  else if c.toNat = 0o7 then s.output c (ovc v &&& 0o000160)
  else if c.toNat = 0o77 then s.output c 0
  else if c.toNat ∈ outputChannels then s.output c (ovc v)
  else s.putLatch c.toNat (ovc v)

/-- The snapshot a new connection is sent: every output channel and its latch (R343). -/
def State.snapshot (s : State) : List (Nat × Word15) :=
  (outputChannels ++ [0o7, 0o77]).map fun c => (c, s.latch c)

/-! ## Involuntary counters -/

/-- PINC of a counter word: the new word and whether it overflowed (R320). -/
def pincWord (v : Word15) : Word15 × Bool :=
  (ovc (add16 (sext16 v) plusOne), posOvf (add16 (sext16 v) plusOne))

/-- MINC of a counter word (R320). -/
def mincWord (v : Word15) : Word15 × Bool :=
  (ovc (add16 (sext16 v) minusOne), negOvf (add16 (sext16 v) minusOne))

/-- DINC of a counter word that is not a zero: binary, toward zero (R320, R322). -/
def dincWord (v : Word15) : Word15 := if sign15 v then v + 1 else v - 1

/-- `overflow_effect(a)`; TIME1's is a PINC of TIME2, whose own overflow has no effect (R320, R324). -/
def State.overflowEffect (s : State) (a : Nat) : State :=
  match a with
  | 0o25 => s.putErasable 0o24 (pincWord (s.erasableWord 0o24)).1
  | 0o26 => s.raise .t3rupt
  | 0o27 => s.raise .t4rupt
  | 0o30 => s.raise .t5rupt
  | _ => s

/-- `zero_effect(a)`: TIME6 requests T6RUPT and stops (R320, R323). -/
def State.zeroEffect (s : State) (a : Nat) : State :=
  match a with
  | 0o31 => (s.raise .t6rupt).putLatch 0o13 (s.latch 0o13 &&& 0o37777)
  | _ => s

/-- Apply the effect when a condition holds. -/
def State.effectIf (s : State) (b : Bool) (a : Nat) : State := if b then s.overflowEffect a else s

/-- `counter(a, k)` (R320). -/
def State.counter (s : State) (a : Nat) (k : CounterKind) : State :=
  let v := s.erasableWord a
  match k with
  | .pinc => (s.putErasable a (pincWord v).1).effectIf (pincWord v).2 a
  | .minc => (s.putErasable a (mincWord v).1).effectIf (mincWord v).2 a
  | .dinc => if isZero15 v then s.zeroEffect a else s.putErasable a (dincWord v)
  | .pcdu => s.putErasable a (v + 1)
  | .mcdu => s.putErasable a (v + 0o77777)
  | .shinc => s.putErasable a (v + v)
  | .shanc => s.putErasable a (v + v + 1)

/-- The kinds of request a counter cell receives (R32). -/
def counterKinds (a : Nat) : List CounterKind :=
  match a with
  | 0o24 | 0o25 | 0o26 | 0o27 | 0o30 => [.pinc]
  | 0o31 => [.dinc]
  | 0o32 | 0o33 | 0o34 | 0o35 | 0o36 => [.pcdu, .mcdu]
  | 0o37 | 0o40 | 0o41 | 0o42 | 0o43 | 0o44 => [.pinc, .minc]
  | 0o45 | 0o46 => [.shinc, .shanc]
  | 0o47 | 0o50 | 0o51 | 0o52 | 0o53 | 0o54 | 0o55 | 0o56 => [.dinc]
  | 0o57 | 0o60 => [.dinc, .shinc]
  | _ => []

/-- The counter agent may issue the request: R32 allows it, and TIME6 is enabled (R321, R323). -/
def State.mayCount (s : State) (a : Nat) (k : CounterKind) : Bool :=
  decide (k ∈ counterKinds a) && (a != 0o31 || (s.latch 0o13).getLsbD 14)

/-- `counter_overflow_check(KE, s)`, called by INCR, AUG and ADS (R326). -/
def State.counterOverflowCheck (s : State) (k : Addr12) (sum : Word16) : State :=
  s.effectIf (s.params.instrCounterOverflow && decide ((s.direct k).toNat ∈ [0o25, 0o26, 0o27, 0o30]) && ovf sum)
    (s.direct k).toNat

/-! ## Interrupt entry and return -/

/-- Interrupts are enabled (R303). -/
def State.enabled (s : State) : Bool := !s.inhint && !s.isr && !s.ext && s.idx.isNone && !ovf s.a

/-- `enter(n)`: the interrupt entry (R307). -/
def State.enter (s : State) (n : Source) : State :=
  let s1 := s.setPending (s.pending.set n false)
  let s2 := match s.resumeWord with
    | some w => ((s1.putErasable 0o17 w).putErasable 0o15 (addrWord s.z)).setResumeWord none
    | none => (s1.putErasable 0o17 (s.fetch .entry s.z)).putErasable 0o15 (addrWord (s.z + 1))
  (s2.setIsr true).setZ n.vector

/-- The interrupt check that closes every step (R305). -/
def State.interruptCheck (s : State) : State :=
  if s.enabled then
    match s.pending.first with
    | some n => s.enter n
    | none => s
  else s

/-- The return from interrupt (R222). -/
def State.returnFromInterrupt (s : State) : State :=
  ((s.setZ (addr15 (ovc (s.read 0o15)))).setResumeWord (some (ovc (s.read 0o17)))).setIsr false

/-- EDRUPT's interrupt-like entry (R223, `as_rule`; log 7). -/
def State.checkoutEntry (s : State) : State :=
  let s1 := s.write 0o17 (sext16 (s.fetch .entry s.z))
  let s2 := s1.write 0o15 (zext16 (s.z + 1))
  (s2.setIsr true).setZ 0

/-! ## GOJAM and the other agents -/

/-- The bit of channel 077 an alarm sets (R334). -/
def causeBit (p : Params) (c : Alarm) : Fin 15 :=
  match c with
  | .tcTrap => p.tcTrapBit
  | .ruptLock => p.ruptLockBit
  | .nightWatchman => p.nightWatchmanBit

/-- A word with one bit set. -/
def bitWord (b : Fin 15) : Word15 := 1#15 <<< b.val

/-- Clear the listed latches. -/
def State.clearLatches (s : State) (cs : List Nat) : State := cs.foldl (fun t c => t.putLatch c 0) s

/-- The channels GOJAM clears (R350). -/
def gojamChannels : List Nat := [0o5, 0o6, 0o7, 0o10, 0o11, 0o12, 0o13, 0o14, 0o34, 0o35]

/-- `gojam(cause)` for an alarm (R350). -/
def State.gojam (s : State) (c : Alarm) : State :=
  let s1 := (s.setZ 0o4000).setInhint true
  let s2 := ((s1.setIsr false).setExt false).setIdx none
  let s3 := (s2.setResumeWord none).setPending Requests.none
  let s4 := s3.clearLatches gojamChannels
  s4.putLatch 0o77 (s4.latch 0o77 ||| bitWord (causeBit s.params c))

/-- The alarm may occur at this boundary (R330 to R333). -/
def State.mayAlarm (s : State) (c : Alarm) : Bool :=
  s.params.restartAlarms &&
    match c with
    | .tcTrap => s.lastSelfJump
    | .ruptLock => s.isr
    | .nightWatchman => true

/-- `PanelEvent(c, v)` (R340). -/
def State.panel (s : State) (c : Chan9) (v : Word16) : State :=
  if c.toNat ∈ inputChannels then
    let t := s.putLatch c.toNat (low15 v)
    if c.toNat = 0o15 then t.raise .keyrupt1
    else if c.toNat = 0o16 then t.raise .keyrupt2
    else t
  else s

/-- The sources the host raises itself (R340). -/
def Source.isHost (n : Source) : Bool := decide (7 ≤ n.number)

/-- One event at a boundary; an event its agent may not cause has no effect (R321, R330, R340; log 9). -/
def State.event (s : State) (e : Event) : State :=
  match e with
  | .counter a k => if s.mayCount a k then s.counter a k else s
  | .panel c v => s.panel c v
  | .raise n => if n.isHost then s.raise n else s
  | .alarm c => if s.mayAlarm c then s.gojam c else s

/-- The boundary that follows a step: the events set for it, in order (R321, R340, R373; log 9). -/
def State.boundary (s : State) : State :=
  match s.boundaries with
  | [] => s
  | es :: rest => es.foldl State.event (s.setBoundaries rest)

end Sys2Proof.Machine
end

