-- ==== Sys2Proof/Machine/Arith.lean ====
section
/-! DEFINITION. The arithmetic and logic instructions (R135 to R146). -/

namespace Sys2Proof.Machine

/-- AD K (R135). -/
def execAd (k : Addr12) (s : State) : Host.Outcome State Fault Refusal :=
  .next ((s.setA (add16 s.a (s.read k))).reedit k)

/-- SU KE (R136). -/
def execSu (ke : Addr10) (s : State) : Host.Outcome State Fault Refusal :=
  .next ((s.setA (add16 s.a (neg16 (s.read (keAddr ke))))).reedit (keAddr ke))

/-- ADS KE (R137). -/
def execAds (ke : Addr10) (s : State) : Host.Outcome State Fault Refusal :=
  let sum := add16 s.a (s.read (keAddr ke))
  .next (((s.setA sum).write (keAddr ke) sum).counterOverflowCheck (keAddr ke) sum)

/-- Write a count back and check the counter (R138, R139). -/
def State.storeCount (s : State) (k : Addr12) (sum : Word16) : State :=
  (s.write k sum).counterOverflowCheck k sum

/-- INCR KE (R138). -/
def execIncr (ke : Addr10) (s : State) : Host.Outcome State Fault Refusal :=
  .next (s.storeCount (keAddr ke) (add16 (s.read (keAddr ke)) plusOne))

/-- The value one greater in magnitude (R139). -/
def augmented (v : Word16) : Word16 := if sign16 v then add16 v minusOne else add16 v plusOne

/-- AUG KE (R139). -/
def execAug (ke : Addr10) (s : State) : Host.Outcome State Fault Refusal :=
  .next (s.storeCount (keAddr ke) (augmented (s.read (keAddr ke))))

/-- The adder's value one less in magnitude, a zero left as it is (R140). -/
def diminished (v : Word16) : Word16 :=
  if isZero16 v then v else if sign16 v then add16 v plusOne else add16 v minusOne

/-- The zero DIM produces from a one (R141). -/
def State.dimZero (s : State) (z : Word16) : Word16 :=
  match s.params.dimZeroResult with
  | .adder => z
  | .draw => if Config.dimZeroNegative s.steps then minusZero else plusZero

/-- The value DIM stores (R140, R141). -/
def State.dimResult (s : State) (v : Word16) : Word16 :=
  if isZero16 (diminished v) && !isZero16 v then s.dimZero (diminished v) else diminished v

/-- DIM KE (R140). -/
def execDim (ke : Addr10) (s : State) : Host.Outcome State Fault Refusal :=
  .next (s.write (keAddr ke) (s.dimResult (s.read (keAddr ke))))

/-- The high sum of a double-precision addition, with the low sum's overflow carried in (R142). -/
def carryInto (high lsw : Word16) : Word16 :=
  if posOvf lsw then add16 high plusOne
  else if negOvf lsw then add16 high minusOne
  else high

/-- DDOUBL: double (A, L) in place (R142). -/
def State.doubleAL (s : State) : State :=
  let lsw := add16 s.l s.l
  (s.setA (carryInto (add16 s.a s.a) lsw)).setL (sext16 (ovc lsw))

/-- DAS into the pair (K, K + 1) (R142). -/
def State.addPair (s : State) (k : Addr12) : State :=
  let lsw := add16 s.l (s.read (succAddr k))
  let msw := carryInto (add16 s.a (s.read k)) lsw
  let t := (s.write (succAddr k) lsw).write k msw
  (t.setL plusZero).setA (overflowIndicator msw)

/-- DAS K; K = 0 (KF = 1) is DDOUBL (R142). -/
def execDas (k : Addr12) (s : State) : Host.Outcome State Fault Refusal :=
  .next (if k = 0 then s.doubleAL else s.addPair k)

/-- The two's-complement difference as a ones'-complement word (R143). -/
def modularDifference (a k : Word15) : Word15 :=
  if sign15 (a - k) then a - k - 1 else a - k

/-- MSU KE (R143). -/
def execMsu (ke : Addr10) (s : State) : Host.Outcome State Fault Refusal :=
  .next ((s.setA (sext16 (modularDifference (ovc s.a) (ovc (s.read (keAddr ke)))))).reedit (keAddr ke))

/-- A 15-bit magnitude with a sign. -/
def signed15 (negative : Bool) (m : Nat) : Word15 :=
  if negative then neg15 (BitVec.ofNat 15 m) else BitVec.ofNat 15 m

/-- The two words of a product (R144). -/
def State.product (s : State) (a k : Word15) : Word15 × Word15 :=
  if isZero15 a || isZero15 k then
    (zero15 (Config.mpZeroNegative s.steps a k), zero15 (Config.mpZeroNegative s.steps a k))
  else
    let p := val15 a * val15 k
    (signed15 (decide (p < 0)) (p.natAbs / 0o40000), signed15 (decide (p < 0)) (p.natAbs % 0o40000))

/-- MP K (R144). -/
def execMp (k : Addr12) (s : State) : Host.Outcome State Fault Refusal :=
  let p := s.product (ovc s.a) (ovc (s.read k))
  .next (((s.setA (sext16 p.1)).setL (sext16 p.2)).reedit k)

/-- The dividend (A, L) as an exact integer (R145). -/
def dividend (a l : Word15) : Int := val15 a * 16384 + val15 l

/-- The division is undefined: by a zero, or the quotient does not fit (R145). -/
def dvOutOfRange (a l d : Word15) : Bool :=
  isZero15 d || decide ((val15 d).natAbs * 16384 ≤ (dividend a l).natAbs)

/-- The quotient word of a division in range (R145). -/
def State.dvQuotient (s : State) (a l d : Word15) : Word15 :=
  let n := dividend a l
  let q := n.natAbs / (val15 d).natAbs
  if q = 0 then zero15 (Config.dvQuotientZeroNegative s.steps a l d)
  else signed15 (decide (n < 0) != decide (val15 d < 0)) q

/-- The remainder word of a division in range (R145). -/
def State.dvRemainder (s : State) (a l d : Word15) : Word15 :=
  let n := dividend a l
  let r := n.natAbs % (val15 d).natAbs
  if r = 0 then zero15 (Config.dvRemainderZeroNegative s.steps a l d)
  else signed15 (decide (n < 0)) r

/-- The values a division leaves in A and L (R145). -/
def State.dvResult (s : State) (a l d : Word15) : Word16 × Word16 :=
  if dvOutOfRange a l d then
    ((Config.dvUndefined s.steps a l d).1, sext16 (Config.dvUndefined s.steps a l d).2)
  else (sext16 (s.dvQuotient a l d), sext16 (s.dvRemainder a l d))

/-- DV KE (R145). -/
def execDv (ke : Addr10) (s : State) : Host.Outcome State Fault Refusal :=
  let r := s.dvResult (ovc s.a) (ovc s.l) (ovc (s.read (keAddr ke)))
  .next (((s.setA r.1).setL r.2).reedit (keAddr ke))

/-- MASK K (R146). -/
def execMask (k : Addr12) (s : State) : Host.Outcome State Fault Refusal :=
  .next ((s.setA (s.a &&& s.read k)).reedit k)

end Sys2Proof.Machine
end

