-- ==== Sys2Proof/Machine/Channel.lean ====
section
/-! DEFINITION. The channel instructions (R250 to R256). -/

namespace Sys2Proof.Machine

/-- READ KC (R250). -/
def execRead (kc : Chan9) (s : State) : Host.Outcome State Fault Refusal :=
  .next (s.setA (s.chanRead kc))

/-- WRITE KC (R251). -/
def execWrite (kc : Chan9) (s : State) : Host.Outcome State Fault Refusal :=
  .next (s.chanWrite kc s.a)

/-- A channel operation that writes A alone (R252, R254, R256). -/
def State.combineA (s : State) (f : Word16 → Word16 → Word16) (kc : Chan9) : State :=
  s.setA (f s.a (s.chanRead kc))

/-- A channel operation that writes A and the channel (R253, R255). -/
def State.combineBoth (s : State) (f : Word16 → Word16 → Word16) (kc : Chan9) : State :=
  let t := s.combineA f kc
  t.chanWrite kc t.a

/-- RAND KC (R252). -/
def execRand (kc : Chan9) (s : State) : Host.Outcome State Fault Refusal :=
  .next (s.combineA (· &&& ·) kc)

/-- WAND KC (R253). -/
def execWand (kc : Chan9) (s : State) : Host.Outcome State Fault Refusal :=
  .next (s.combineBoth (· &&& ·) kc)

/-- ROR KC (R254). -/
def execRor (kc : Chan9) (s : State) : Host.Outcome State Fault Refusal :=
  .next (s.combineA (· ||| ·) kc)

/-- WOR KC (R255). -/
def execWor (kc : Chan9) (s : State) : Host.Outcome State Fault Refusal :=
  .next (s.combineBoth (· ||| ·) kc)

/-- RXOR KC (R256). -/
def execRxor (kc : Chan9) (s : State) : Host.Outcome State Fault Refusal :=
  .next (s.combineA (· ^^^ ·) kc)

end Sys2Proof.Machine
end

