-- ==== Sys2Proof/Machine/Control.lean ====
section
/-! DEFINITION. Control transfer, indexing and interrupt control (R210 to R223). -/

namespace Sys2Proof.Machine

/-- TC K; TC Q does not write Q (R210). -/
def execTc (k : Addr12) (s : State) : Host.Outcome State Fault Refusal :=
  .next ((if k = 2 then s else s.setQ (zext16 s.z)).setZ k)

/-- TCF K (R211). -/
def execTcf (k : Addr12) (s : State) : Host.Outcome State Fault Refusal :=
  .next (s.setZ k)

/-- The magnitude of a pattern (R212). -/
def magnitude (x : Word16) : Word16 := if sign16 x then neg16 x else x

/-- The diminished absolute value `dabs` (R212). -/
def dabs (x : Word16) : Word16 := if 1 < (magnitude x).toNat then magnitude x - 1 else 0

/-- How many words CCS skips (R212). -/
def ccsSkip (v : Word16) : Addr12 :=
  if v = plusZero then 1 else if v = minusZero then 3 else if sign16 v then 2 else 0

/-- CCS KE; `dabs` of either zero is +0, as the rule asks (R212). -/
def execCcs (ke : Addr10) (s : State) : Host.Outcome State Fault Refusal :=
  let v := s.read (keAddr ke)
  .next (((s.setA (dabs v)).skip (ccsSkip v)).reedit (keAddr ke))

/-- BZF K (R213). -/
def execBzf (k : Addr12) (s : State) : Host.Outcome State Fault Refusal :=
  .next (if isZero16 s.a then s.setZ k else s)

/-- BZMF K (R214). -/
def execBzmf (k : Addr12) (s : State) : Host.Outcome State Fault Refusal :=
  .next (if s.a = plusZero ∨ sign16 s.a = true then s.setZ k else s)

/-- INHINT (R216). -/
def execInhint (s : State) : Host.Outcome State Fault Refusal :=
  .next (s.setInhint true)

/-- RELINT (R217). -/
def execRelint (s : State) : Host.Outcome State Fault Refusal :=
  .next (s.setInhint false)

/-- EXTEND (R218). -/
def execExtend (s : State) : Host.Outcome State Fault Refusal :=
  .next (s.setExt true)

/-- INDEX KE, basic (R220). -/
def execIndex (ke : Addr10) (s : State) : Host.Outcome State Fault Refusal :=
  .next ((s.setIdx (some (s.read (keAddr ke)))).reedit (keAddr ke))

/-- INDEX K, extended: `ext` stays set for the indexed word (R221). -/
def execIndexExt (k : Addr12) (s : State) : Host.Outcome State Fault Refusal :=
  .next (((s.setIdx (some (s.read k))).setExt true).reedit k)

/-- RESUME (R222). -/
def execResume (s : State) : Host.Outcome State Fault Refusal :=
  .next s.returnFromInterrupt

/-- EDRUPT KC; KC is ignored. It refuses where the parameter says so (R223, `edrupt_policy`; log 7, also
for the low window's refusal, which `step` tests first). -/
def execEdrupt (_kc : Chan9) (s : State) : Host.Outcome State Fault Refusal :=
  match s.params.edruptPolicy with
  | .asRule => .next s.checkoutEntry
  | .refuse => .refused .edrupt

end Sys2Proof.Machine
end

