-- ==== Sys2Proof/Machine/Transfer.lean ====
section
/-! DEFINITION. Loads, stores and exchanges (R180 to R189). -/

namespace Sys2Proof.Machine

/-- CA K (R180). -/
def execCa (k : Addr12) (s : State) : Host.Outcome State Fault Refusal :=
  .next ((s.setA (s.read k)).reedit k)

/-- CS K (R181). -/
def execCs (k : Addr12) (s : State) : Host.Outcome State Fault Refusal :=
  .next ((s.setA (neg16 (s.read k))).reedit k)

/-- OVSK, TS A: skip on overflow (R182). -/
def State.skipOnOverflow (s : State) : State := if ovf s.a then s.skip 1 else s

/-- TCAA, TS Z: jump to A, leaving the overflow indicator (R182). -/
def State.jumpToA (s : State) : State :=
  let t := s.setZ (low12 s.a)
  if ovf s.a then t.setA (overflowIndicator s.a) else t

/-- TS to any other place: store; on overflow leave the indicator and skip (R182). -/
def State.storeA (s : State) (k : Addr12) : State :=
  let t := s.write k s.a
  if ovf s.a then (t.setA (overflowIndicator s.a)).skip 1 else t

/-- TS KE (R182). -/
def execTs (ke : Addr10) (s : State) : Host.Outcome State Fault Refusal :=
  .next (if ke = 0 then s.skipOnOverflow else if ke = 5 then s.jumpToA else s.storeA (keAddr ke))

/-- XCH KE (R184). -/
def execXch (ke : Addr10) (s : State) : Host.Outcome State Fault Refusal :=
  .next ((s.write (keAddr ke) s.a).setA (s.read (keAddr ke)))

/-- LXCH KE (R185). -/
def execLxch (ke : Addr10) (s : State) : Host.Outcome State Fault Refusal :=
  .next ((s.write (keAddr ke) s.l).writeReg .l (s.read (keAddr ke)))

/-- QXCH KE (R186). -/
def execQxch (ke : Addr10) (s : State) : Host.Outcome State Fault Refusal :=
  .next ((s.write (keAddr ke) s.q).writeReg .q (s.read (keAddr ke)))

/-- Load a register from a word passed through a function, and re-edit: one half of DCA and DCS (R187, R188). -/
def State.loadHalf (s : State) (r : Reg) (f : Word16 → Word16) (k : Addr12) : State :=
  (s.writeReg r (f (s.read k))).reedit k

/-- DCA K (R187). -/
def execDca (k : Addr12) (s : State) : Host.Outcome State Fault Refusal :=
  .next ((s.loadHalf .l id (succAddr k)).loadHalf .a id k)

/-- DCS K (R188). -/
def execDcs (k : Addr12) (s : State) : Host.Outcome State Fault Refusal :=
  .next ((s.loadHalf .l neg16 (succAddr k)).loadHalf .a neg16 k)

/-- Exchange a register with a word: one half of DXCH (R189). -/
def State.exchange (s : State) (r : Reg) (k : Addr12) : State :=
  (s.write k (s.readReg r)).writeReg r (s.read k)

/-- DXCH K (R189). -/
def execDxch (k : Addr12) (s : State) : Host.Outcome State Fault Refusal :=
  .next ((s.exchange .l (succAddr k)).exchange .a k)

end Sys2Proof.Machine
end

