-- ==== Sys2Proof/Machine/Dispatch.lean ====
section
/-! DEFINITION. One arm per instruction. -/

namespace Sys2Proof.Machine

def exec (i : Instr) (s : State) : Host.Outcome State Fault Refusal :=
  match i with
  | .relint => Sys2Proof.Machine.execRelint s
  | .inhint => Sys2Proof.Machine.execInhint s
  | .extend => Sys2Proof.Machine.execExtend s
  | .resume => Sys2Proof.Machine.execResume s
  | .tc k => Sys2Proof.Machine.execTc k s
  | .ccs ke => Sys2Proof.Machine.execCcs ke s
  | .tcf k => Sys2Proof.Machine.execTcf k s
  | .das k => Sys2Proof.Machine.execDas k s
  | .lxch ke => Sys2Proof.Machine.execLxch ke s
  | .incr ke => Sys2Proof.Machine.execIncr ke s
  | .ads ke => Sys2Proof.Machine.execAds ke s
  | .ca k => Sys2Proof.Machine.execCa k s
  | .cs k => Sys2Proof.Machine.execCs k s
  | .index ke => Sys2Proof.Machine.execIndex ke s
  | .dxch k => Sys2Proof.Machine.execDxch k s
  | .ts ke => Sys2Proof.Machine.execTs ke s
  | .xch ke => Sys2Proof.Machine.execXch ke s
  | .ad k => Sys2Proof.Machine.execAd k s
  | .mask k => Sys2Proof.Machine.execMask k s
  | .read kc => Sys2Proof.Machine.execRead kc s
  | .write kc => Sys2Proof.Machine.execWrite kc s
  | .rand kc => Sys2Proof.Machine.execRand kc s
  | .wand kc => Sys2Proof.Machine.execWand kc s
  | .ror kc => Sys2Proof.Machine.execRor kc s
  | .wor kc => Sys2Proof.Machine.execWor kc s
  | .rxor kc => Sys2Proof.Machine.execRxor kc s
  | .edrupt kc => Sys2Proof.Machine.execEdrupt kc s
  | .dv ke => Sys2Proof.Machine.execDv ke s
  | .bzf k => Sys2Proof.Machine.execBzf k s
  | .msu ke => Sys2Proof.Machine.execMsu ke s
  | .qxch ke => Sys2Proof.Machine.execQxch ke s
  | .aug ke => Sys2Proof.Machine.execAug ke s
  | .dim ke => Sys2Proof.Machine.execDim ke s
  | .dca k => Sys2Proof.Machine.execDca k s
  | .dcs k => Sys2Proof.Machine.execDcs k s
  | .indexExt k => Sys2Proof.Machine.execIndexExt k s
  | .su ke => Sys2Proof.Machine.execSu ke s
  | .bzmf k => Sys2Proof.Machine.execBzmf k s
  | .mp k => Sys2Proof.Machine.execMp k s

end Sys2Proof.Machine
end

