-- ==== Sys2Proof/WellFormed.lean ====
section
/-! DEFINITION. Which instruction terms some word encodes: the ranges R102, R105 and R106 put on the operands
that the operand's type does not already enforce. -/

namespace Sys2Proof

/-- A branch target lies in 02000 to 07777, because its word has QC not 0 (R102). -/
def isFixedTarget (k : Addr12) : Bool := decide (0o2000 ≤ k.toNat)

/-- The field KF = K + 1 of a quarter-code double-word instruction has 10 bits (R105). -/
def isPairAddress (k : Addr12) : Bool := decide ((k + 1).toNat < 0o2000)

/-- Some word of its table decodes to this instruction. -/
def Instr.wf : Instr → Bool
  | .relint => true
  | .inhint => true
  | .extend => true
  | .resume => true
  | .tc k => k ≠ 3 && k ≠ 4 && k ≠ 6
  | .ccs _ => true
  | .tcf k => isFixedTarget k
  | .das k => isPairAddress k
  | .lxch _ => true
  | .incr _ => true
  | .ads _ => true
  | .ca _ => true
  | .cs _ => true
  | .index ke => ke ≠ 0o17
  | .dxch k => isPairAddress k
  | .ts _ => true
  | .xch _ => true
  | .ad _ => true
  | .mask _ => true
  | .read _ => true
  | .write _ => true
  | .rand _ => true
  | .wand _ => true
  | .ror _ => true
  | .wor _ => true
  | .rxor _ => true
  | .edrupt _ => true
  | .dv _ => true
  | .bzf k => isFixedTarget k
  | .msu _ => true
  | .qxch _ => true
  | .aug _ => true
  | .dim _ => true
  | .dca _ => true
  | .dcs _ => true
  | .indexExt _ => true
  | .su _ => true
  | .bzmf k => isFixedTarget k
  | .mp _ => true

/-- The table that holds the instruction: false the basic one (R106), true the extended one (R107). -/
def Instr.isExtended : Instr → Bool
  | .relint | .inhint | .extend | .resume => false
  | .tc _ | .ccs _ | .tcf _ | .das _ | .lxch _ | .incr _ | .ads _ | .ca _ | .cs _ => false
  | .index _ | .dxch _ | .ts _ | .xch _ | .ad _ | .mask _ => false
  | .read _ | .write _ | .rand _ | .wand _ | .ror _ | .wor _ | .rxor _ | .edrupt _ => true
  | .dv _ | .bzf _ | .msu _ | .qxch _ | .aug _ | .dim _ | .dca _ | .dcs _ => true
  | .indexExt _ | .su _ | .bzmf _ | .mp _ => true

end Sys2Proof
end

