-- ==== Sys2Proof/Decode.lean ====
section
/-! DEFINITION. Decode, total over (ext, word) (R104 to R109); after it the encoder, from the same tables; and the opcode
table of spec/opcode_table.json as data, to state things against. -/

namespace Sys2Proof

/-- OP, bits 15..13 (R101). -/
def fieldOp (w : Word15) : Nat := (w.extractLsb' 12 3).toNat

/-- QC, bits 12..11 (R102). -/
def fieldQc (w : Word15) : Nat := (w.extractLsb' 10 2).toNat

/-- PC, bits 12..10 (R103). -/
def fieldPc (w : Word15) : Nat := (w.extractLsb' 9 3).toNat

/-- K, bits 12..1 (R110). -/
def fieldK (w : Word15) : Addr12 := w.extractLsb' 0 12

/-- KE, bits 10..1 (R110). -/
def fieldKe (w : Word15) : Addr10 := w.extractLsb' 0 10

/-- KC, bits 9..1 (R110). -/
def fieldKc (w : Word15) : Chan9 := w.extractLsb' 0 9

/-- K = (KF - 1) mod 010000 (R105, D15). -/
def pairAddress (kf : Addr12) : Addr12 := kf - 1

/-- The basic table less its four special words (R106). -/
def decodeOrdinary (w : Word15) : Instr :=
  match fieldOp w, fieldQc w with
  | 0, _ => .tc (fieldK w)
  | 1, 0 => .ccs (fieldKe w)
  | 1, _ => .tcf (fieldK w)
  | 2, 0 => .das (pairAddress ((fieldKe w).setWidth 12))
  | 2, 1 => .lxch (fieldKe w)
  | 2, 2 => .incr (fieldKe w)
  | 2, _ => .ads (fieldKe w)
  | 3, _ => .ca (fieldK w)
  | 4, _ => .cs (fieldK w)
  | 5, 0 => .index (fieldKe w)
  | 5, 1 => .dxch (pairAddress ((fieldKe w).setWidth 12))
  | 5, 2 => .ts (fieldKe w)
  | 5, _ => .xch (fieldKe w)
  | 6, _ => .ad (fieldK w)
  | _, _ => .mask (fieldK w)

/-- The basic table (R106): the four special words are tested first. -/
def decodeBasic (w : Word15) : Instr :=
  if w = 0o000003 then .relint
  else if w = 0o000004 then .inhint
  else if w = 0o000006 then .extend
  else if w = 0o050017 then .resume
  else decodeOrdinary w

/-- Extended opcode 0: the channel instructions and EDRUPT, by peripheral code (R103, R107). -/
def decodeChannel (w : Word15) : Instr :=
  match fieldPc w with
  | 0 => .read (fieldKc w)
  | 1 => .write (fieldKc w)
  | 2 => .rand (fieldKc w)
  | 3 => .wand (fieldKc w)
  | 4 => .ror (fieldKc w)
  | 5 => .wor (fieldKc w)
  | 6 => .rxor (fieldKc w)
  | _ => .edrupt (fieldKc w)

/-- The extended table (R107). -/
def decodeExtended (w : Word15) : Instr :=
  match fieldOp w, fieldQc w with
  | 0, _ => decodeChannel w
  | 1, 0 => .dv (fieldKe w)
  | 1, _ => .bzf (fieldK w)
  | 2, 0 => .msu (fieldKe w)
  | 2, 1 => .qxch (fieldKe w)
  | 2, 2 => .aug (fieldKe w)
  | 2, _ => .dim (fieldKe w)
  | 3, _ => .dca (pairAddress (fieldK w))
  | 4, _ => .dcs (pairAddress (fieldK w))
  | 5, _ => .indexExt (fieldK w)
  | 6, 0 => .su (fieldKe w)
  | 6, _ => .bzmf (fieldK w)
  | _, _ => .mp (fieldK w)

/-- Decode: the table is told by `ext`, never by the word (R104); every pair has a meaning (R109, R112). -/
def decode (ext : Bool) (w : Word15) : Instr :=
  if ext then decodeExtended w else decodeBasic w

/-- Why a number of bits is no instruction word. -/
inductive Reject where
  /-- The number does not fit the 15 bits of a word (R100). -/
  | notAWord
  deriving DecidableEq, Repr

/-- Decode of a number that may be no word at all; numbers above 077777 are rejected by name. -/
def decodeNumber (ext : Bool) (n : Nat) : Except Reject Instr :=
  if n < 0o100000 then .ok (decode ext (BitVec.ofNat 15 n)) else .error .notAWord

/-- The host's numbering of an instruction's bits: bits 14..0 are the word; bit 15, which no word has, tells the table
(`ext`), since the word never does (R104; log 13). -/
def tableOfNumber (n : Nat) : Bool := decide (0o100000 ≤ n)

/-- The word part of the host's number. -/
def wordOfNumber (n : Nat) : Word15 := BitVec.ofNat 15 n

/-- What the decoder reads from an instruction whose bits are w, for the host (log 13). -/
def decodeTableWord (nbits w : Nat) : Option Instr :=
  if w < 2 ^ min nbits 16 then some (decode (tableOfNumber w) (wordOfNumber w)) else none

/-! ## The encoder -/

/-- Format B (R101). -/
def formatB (op : BitVec 3) (k : Addr12) : Word15 := op ++ k

/-- Format QC (R102). -/
def formatQC (op : BitVec 3) (qc : BitVec 2) (ke : Addr10) : Word15 := op ++ (qc ++ ke)

/-- Format IO (R103). -/
def formatIO (pc : BitVec 3) (kc : Chan9) : Word15 := 0#3 ++ (pc ++ kc)

/-- The word of an instruction in its own table (R105 to R107). -/
def encodeWord : Instr → Word15
  | .relint => 0o000003
  | .inhint => 0o000004
  | .extend => 0o000006
  | .resume => 0o050017
  | .tc k => formatB 0 k
  | .ccs ke => formatQC 1 0 ke
  | .tcf k => formatB 1 k
  | .das k => formatQC 2 0 ((k + 1).setWidth 10)
  | .lxch ke => formatQC 2 1 ke
  | .incr ke => formatQC 2 2 ke
  | .ads ke => formatQC 2 3 ke
  | .ca k => formatB 3 k
  | .cs k => formatB 4 k
  | .index ke => formatQC 5 0 ke
  | .dxch k => formatQC 5 1 ((k + 1).setWidth 10)
  | .ts ke => formatQC 5 2 ke
  | .xch ke => formatQC 5 3 ke
  | .ad k => formatB 6 k
  | .mask k => formatB 7 k
  | .read kc => formatIO 0 kc
  | .write kc => formatIO 1 kc
  | .rand kc => formatIO 2 kc
  | .wand kc => formatIO 3 kc
  | .ror kc => formatIO 4 kc
  | .wor kc => formatIO 5 kc
  | .rxor kc => formatIO 6 kc
  | .edrupt kc => formatIO 7 kc
  | .dv ke => formatQC 1 0 ke
  | .bzf k => formatB 1 k
  | .msu ke => formatQC 2 0 ke
  | .qxch ke => formatQC 2 1 ke
  | .aug ke => formatQC 2 2 ke
  | .dim ke => formatQC 2 3 ke
  | .dca k => formatB 3 (k + 1)
  | .dcs k => formatB 4 (k + 1)
  | .indexExt k => formatB 5 k
  | .su ke => formatQC 6 0 ke
  | .bzmf k => formatB 6 k
  | .mp k => formatB 7 k

/-- The table and the word that stand for an instruction. -/
def encode (i : Instr) : Bool × Word15 := (i.isExtended, encodeWord i)

/-! ## The opcode table -/

/-- A row of spec/opcode_table.json: the table, the word's fixed bits, and the words a row leaves to other rows. -/
structure OpRow where
  mnemonic : String
  ext : Bool
  mtch : Word15
  mask : Word15
  exclude : List (Word15 × Word15)
  deriving DecidableEq, Repr

/-- The word matches the row's fixed bits and none of its exclusions. -/
def OpRow.admits (r : OpRow) (ext : Bool) (w : Word15) : Bool :=
  r.ext == ext && w &&& r.mask == r.mtch && r.exclude.all fun p => !(w &&& p.2 == p.1)

/-- The rows of `ext` 0. -/
def basicRows : List OpRow := [
  ⟨"RELINT", false, 0o000003, 0o077777, []⟩,
  ⟨"INHINT", false, 0o000004, 0o077777, []⟩,
  ⟨"EXTEND", false, 0o000006, 0o077777, []⟩,
  ⟨"RESUME", false, 0o050017, 0o077777, []⟩,
  ⟨"TC", false, 0o000000, 0o070000, [(0o000003, 0o077777), (0o000004, 0o077777), (0o000006, 0o077777)]⟩,
  ⟨"CCS", false, 0o010000, 0o076000, []⟩,
  ⟨"TCF", false, 0o010000, 0o070000, [(0o010000, 0o076000)]⟩,
  ⟨"DAS", false, 0o020000, 0o076000, []⟩,
  ⟨"LXCH", false, 0o022000, 0o076000, []⟩,
  ⟨"INCR", false, 0o024000, 0o076000, []⟩,
  ⟨"ADS", false, 0o026000, 0o076000, []⟩,
  ⟨"CA", false, 0o030000, 0o070000, []⟩,
  ⟨"CS", false, 0o040000, 0o070000, []⟩,
  ⟨"INDEX", false, 0o050000, 0o076000, [(0o050017, 0o077777)]⟩,
  ⟨"DXCH", false, 0o052000, 0o076000, []⟩,
  ⟨"TS", false, 0o054000, 0o076000, []⟩,
  ⟨"XCH", false, 0o056000, 0o076000, []⟩,
  ⟨"AD", false, 0o060000, 0o070000, []⟩,
  ⟨"MASK", false, 0o070000, 0o070000, []⟩]

/-- The rows of `ext` 1. -/
def extendedRows : List OpRow := [
  ⟨"READ", true, 0o000000, 0o077000, []⟩,
  ⟨"WRITE", true, 0o001000, 0o077000, []⟩,
  ⟨"RAND", true, 0o002000, 0o077000, []⟩,
  ⟨"WAND", true, 0o003000, 0o077000, []⟩,
  ⟨"ROR", true, 0o004000, 0o077000, []⟩,
  ⟨"WOR", true, 0o005000, 0o077000, []⟩,
  ⟨"RXOR", true, 0o006000, 0o077000, []⟩,
  ⟨"EDRUPT", true, 0o007000, 0o077000, []⟩,
  ⟨"DV", true, 0o010000, 0o076000, []⟩,
  ⟨"BZF", true, 0o010000, 0o070000, [(0o010000, 0o076000)]⟩,
  ⟨"MSU", true, 0o020000, 0o076000, []⟩,
  ⟨"QXCH", true, 0o022000, 0o076000, []⟩,
  ⟨"AUG", true, 0o024000, 0o076000, []⟩,
  ⟨"DIM", true, 0o026000, 0o076000, []⟩,
  ⟨"DCA", true, 0o030000, 0o070000, []⟩,
  ⟨"DCS", true, 0o040000, 0o070000, []⟩,
  ⟨"INDEX", true, 0o050000, 0o070000, []⟩,
  ⟨"SU", true, 0o060000, 0o076000, []⟩,
  ⟨"BZMF", true, 0o060000, 0o070000, [(0o060000, 0o076000)]⟩,
  ⟨"MP", true, 0o070000, 0o070000, []⟩]

/-- spec/opcode_table.json, row by row. -/
def opcodeTable : List OpRow := basicRows ++ extendedRows

/-- The mnemonic of an instruction, as the table spells it. -/
def Instr.mnemonic : Instr → String
  | .relint => "RELINT" | .inhint => "INHINT" | .extend => "EXTEND" | .resume => "RESUME"
  | .tc _ => "TC" | .ccs _ => "CCS" | .tcf _ => "TCF" | .das _ => "DAS" | .lxch _ => "LXCH"
  | .incr _ => "INCR" | .ads _ => "ADS" | .ca _ => "CA" | .cs _ => "CS" | .index _ => "INDEX"
  | .dxch _ => "DXCH" | .ts _ => "TS" | .xch _ => "XCH" | .ad _ => "AD" | .mask _ => "MASK"
  | .read _ => "READ" | .write _ => "WRITE" | .rand _ => "RAND" | .wand _ => "WAND" | .ror _ => "ROR"
  | .wor _ => "WOR" | .rxor _ => "RXOR" | .edrupt _ => "EDRUPT" | .dv _ => "DV" | .bzf _ => "BZF"
  | .msu _ => "MSU" | .qxch _ => "QXCH" | .aug _ => "AUG" | .dim _ => "DIM" | .dca _ => "DCA"
  | .dcs _ => "DCS" | .indexExt _ => "INDEX" | .su _ => "SU" | .bzmf _ => "BZMF" | .mp _ => "MP"

end Sys2Proof
end

