-- ==== Sys2Proof/Machine/Sequence.lean ====
section
/-! DEFINITION. The parts of the instruction cycle (R230) that stand around exec: fetch, indexing, decode, the refusals
of R232, the bookkeeping after execute; placing a word where the next fetch takes it; the rope loader (R353). -/

namespace Sys2Proof.Machine

/-- The word INDEX makes of a fetched word: the sum of R108 (log 6). Under `unchanged`, which is no default, the index -0
leaves the word 000000 as it is, as R220's corner case has it, where the sum is 077777 (log 20). A sum that overflows
under `refuse` is never decoded: the step refuses. -/
def indexWord (p : Params) (f : Word15) (x : Word16) : Word15 :=
  let sum := add16 (sext16 f) x
  if f = 0 ∧ x = minusZero ∧ p.indexMinusZero = .unchanged then f
  else if ovf sum then
    match p.indexSumMode with
    | .take .corrected => ovc sum
    | .take .wrap15 => low15 sum
    | .refuse => low15 sum
  else low15 sum

/-- The fetch phase: the resume word if there is one, else the word at Z, and Z moves on (R230, R231). -/
def State.fetchPhase (s : State) : Word15 × State :=
  match s.resumeWord with
  | some w => (w, s.setResumeWord none)
  | none => (s.fetch .fetch s.z, s.setZ (s.z + 1))

/-- The word to decode: the fetched word, indexed if an index is pending (R108, R230). -/
def State.instrWord (s : State) : Word15 :=
  match s.idx with
  | some x => indexWord s.params s.fetchPhase.1 x
  | none => s.fetchPhase.1

/-- The instruction the next step executes (R230). -/
def State.nextInstr (s : State) : Instr := decode s.ext s.instrWord

/-- The state in which it executes: fetched, the index used up, `ext` cleared (R219, R230). -/
def State.issued (s : State) : State := (s.fetchPhase.2.setIdx none).setExt false

/-! ## The refusals a step may answer -/

/-- The pending index refuses: `refuse index_sum_overflow` (R108). -/
def State.indexRefuses (s : State) : Bool :=
  match s.idx with
  | some x => decide (s.params.indexSumMode = .refuse) && ovf (add16 (sext16 s.fetchPhase.1) x)
  | none => false

/-- The refusal of a step before its instruction executes, if any: of the fetch at Z (R70, R74), of the index sum
(R108), of an address the instruction reads or writes (R70, R71). The spec leaves open which refusal an EDRUPT answers that
both its policy and the window at Z refuse; that the window is tested first is the model's choice (log 7). -/
def State.refusal (s : State) : Option Refusal :=
  if s.resumeWord.isNone && s.windowRefuses s.z then some .windowE0Low
  else if s.indexRefuses then some .indexSumOverflow
  else if (operandAddrs s.nextInstr s.issued.z).any s.windowRefuses then some .windowE0Low
  else none

/-- The interrupt check in `t`, the state execute left of a step from `s`, would enter an interrupt and fetch the word
it saves through the window (R70, R307). The parameters of `s` are those of `t`. -/
def State.entryRefuses (s t : State) : Bool :=
  decide (s.params.windowE0Low = .refuse) && t.inLowWindow t.z && t.resumeWord.isNone && t.enabled &&
    t.pending.first.isSome

/-! ## After execute -/

/-- The instruction is a TC or TCF to its own address, which is the one before Z (R331; log 10). -/
def isSelfJump (i : Instr) (z : Addr12) : Bool :=
  match i with
  | .tc k => k = z - 1
  | .tcf k => k = z - 1
  | _ => false

/-- After execute: the interrupt check, then the step is counted (R230, R305). `t` is the state execute left, `i` the
instruction and `z` the Z it executed with. -/
def State.retire (t : State) (i : Instr) (z : Addr12) : State :=
  ((t.setLastSelfJump (isSelfJump i z)).interruptCheck).tick

/-- The end of a step from `s` that execute left in `t`: the interrupt check, unless it refuses, then the boundary
(R230, R232, R373). -/
def State.finish (s t : State) : Host.Outcome State Fault Refusal :=
  if s.entryRefuses t then .refused .windowE0Low else .next (t.retire s.nextInstr s.issued.z).boundary

/-! ## Placing an instruction -/

/-- The state with a word where the next fetch takes it. A place that holds no 15-bit word of its own (EB, FB, Z, BB,
ZERO, a missing bank) is passed over: the word is handed to the fetch as RESUME hands one (log 13). -/
def State.placeWord (s : State) (w : Word15) : State :=
  match s.resolve s.z with
  | .reg .a => s.setA (sext16 w)
  | .reg .l => s.setL (sext16 w)
  | .reg .q => s.setQ (sext16 w)
  | .erasable a => s.putErasable a w
  | .behind o => s.putBehind o w
  | .fixed a => { s with fixed := Memory.put s.fixed a w }
  | .reg _ => s.setResumeWord (some w)
  | .missing _ => s.setResumeWord (some w)

/-- The state whose next step fetches and runs the instruction of the host's number (log 13): no resume word and no
index stand before it, `ext` tells its table. -/
def State.placeInstr (s : State) (n : Nat) : State :=
  (((s.setResumeWord none).setIdx none).setExt (tableOfNumber n)).placeWord (wordOfNumber n)

/-! ## The rope loader -/

/-- The fixed memory of an image in bank-major order; `none` is LoadError (R353, R354, D28). -/
def loadRope (image : List Nat) : Option Memory :=
  if image.length = 36 * 1024 ∧ image.all (fun w => decide (w < 0o100000)) = true then
    some (image.zipIdx.map fun p => (p.2, BitVec.ofNat 15 p.1))
  else none

/-- The machine right after a cold start, for any parameters: each input channel holds its idle value (R40, R248).
`State.cold Config.specDefaults` is the machine with every default of R7. -/
def State.cold (p : Params) : State := { State.reset with params := p }

/-- The machine after a cold start with an image loaded, or LoadError (R351, R353). -/
def coldStart (p : Params) (image : List Nat) : Host.Outcome State Fault Refusal :=
  match loadRope image with
  | some m => .next { State.cold p with fixed := m }
  | none => .fault .loadError

end Sys2Proof.Machine
end

