-- ==== Sys2Proof/Machine/Step.lean ====
section
/-! DEFINITION. One step: the instruction cycle of the CORE (R230), unless it refuses as R232 allows, then the boundary
that follows it (R373). -/

namespace Sys2Proof.Machine

def step (s : State) : Host.Outcome State Fault Refusal :=
  match s.refusal with
  | some r => .refused r
  | none =>
    match exec s.nextInstr s.issued with
    | .next t => s.finish t
    | .fault r => .fault r
    | .refused r => .refused r

/-- The state whose next step fetches and runs the instruction whose bits are w (log 13). -/
def State.withFetchWord (s : State) (_nbits w : Nat) : State := s.placeInstr w

end Sys2Proof.Machine
end

