-- ==== Sys2Proof/Safety.lean ====
section
/-! DEFINITION. The invariant of the machine, in the terms the claims use. -/

namespace Sys2Proof.Machine

/-- Every memory is in its canonical form and within its size (R34, R35; log 1, 12). -/
def State.memoriesOk (s : State) : Bool :=
  Memory.wf (8 * 256) s.erasable && Memory.wf 0o61 s.behind && Memory.wf (36 * 1024) s.fixed &&
    Memory.wf 512 s.chan && Memory.noneIdle s.params.channelReset s.chan

/-- L holds a sign-extended 15-bit value, unless it keeps 16 bits (R22). -/
def State.lExtended (s : State) : Bool := s.params.lIs16bit || (s.l.getLsbD 15 == s.l.getLsbD 14)

/-- Channel 7 holds no bit outside bits 7..5 (R242). -/
def State.superbankOk (s : State) : Bool := s.latch 7 &&& 0o000160 == s.latch 7

/-- Channels 1 to 4 have no latch: they are L, Q and the scaler (R35, R241). -/
def State.aliasesUnlatched (s : State) : Bool :=
  (Memory.find s.chan 1).isNone && (Memory.find s.chan 2).isNone &&
    (Memory.find s.chan 3).isNone && (Memory.find s.chan 4).isNone

/-- A resume word waits only right after a RESUME: no interrupt in service, no extracode and no index pending
(R222, R230, R307). -/
def State.resumeOk (s : State) : Bool := s.resumeWord.isNone || (!s.isr && !s.ext && s.idx.isNone)

/-- The invariant. -/
def State.Inv (s : State) : Prop :=
  s.memoriesOk = true ∧ s.lExtended = true ∧ s.superbankOk = true ∧ s.aliasesUnlatched = true ∧ s.resumeOk = true

end Sys2Proof.Machine
end

