-- ==== Sys2Proof/Certificates/Slice0/Obligations.lean ====
section
/-! DEFINITION. The statements for the provers, and the relations they are written in. -/

namespace Sys2Proof.Claims

open Sys2Proof.Machine

/-- Every sequencer and interrupt flag but the pending requests is as before. -/
def KeepsSequencer (s t : State) : Prop :=
  t.ext = s.ext ∧ t.idx = s.idx ∧ t.resumeWord = s.resumeWord ∧ t.inhint = s.inhint ∧ t.isr = s.isr

/-- Every channel latch and the output history are as before. -/
def KeepsChannels (s t : State) : Prop := (∀ c, t.latch c = s.latch c) ∧ t.history = s.history

/-- The rope, the parameters, the counts and the events to come are as before. -/
def KeepsRecord (s t : State) : Prop :=
  t.fixed = s.fixed ∧ t.steps = s.steps ∧ t.lastSelfJump = s.lastSelfJump ∧ t.params = s.params ∧
    t.boundaries = s.boundaries

/-- Everything but registers, writable memory and pending requests is as before. -/
def KeepsRest (s t : State) : Prop := KeepsSequencer s t ∧ KeepsChannels s t ∧ KeepsRecord s t

/-- Every register and every word of writable memory outside the places `P` is as before. -/
def KeepsPlacesBut (P : Loc → Prop) (s t : State) : Prop :=
  (¬P (.reg .a) → t.a = s.a) ∧ (¬P (.reg .l) → t.l = s.l) ∧ (¬P (.reg .q) → t.q = s.q) ∧
    (¬P (.reg .eb) → ¬P (.reg .bb) → t.eb = s.eb) ∧ (¬P (.reg .fb) → ¬P (.reg .bb) → t.fb = s.fb) ∧
    (¬P (.reg .z) → t.z = s.z) ∧
    (∀ a, ¬P (.erasable a) → t.erasableWord a = s.erasableWord a) ∧
    (∀ o, ¬P (.behind o) → t.behindWord o = s.behindWord o)

/-- What a place holds in `t` when `v` was written to it (R21 to R29, R31, R33, R71, R72). -/
def PlaceHolds (s t : State) (p : Loc) (v : Word16) : Prop :=
  match p with
  | .reg .a => t.a = v
  | .reg .l => t.l = if s.params.lIs16bit then v else sext16 (ovc v)
  | .reg .q => t.q = v
  | .reg .eb => t.eb = v.extractLsb' 8 3
  | .reg .fb => t.fb = (ovc v).extractLsb' 10 5
  | .reg .z => t.z = v.extractLsb' 0 12
  | .reg .bb => t.fb = (ovc v).extractLsb' 10 5 ∧ t.eb = v.extractLsb' 0 3
  | .reg .zero => True
  | .erasable a => t.erasableWord a = edit a (ovc v)
  | .behind o => t.behindWord o = ovc v
  | .fixed _ => True
  | .missing _ => True

/-- One word was written to one place, and nothing else changed. -/
def Stored (s t : State) (p : Loc) (v : Word16) : Prop :=
  PlaceHolds s t p v ∧ KeepsPlacesBut (fun x => x = p) s t ∧ KeepsRest s t ∧ t.pending = s.pending

/-- The operand read of `k` was rewritten as R73 says, and no other word of writable memory changed. -/
def ReeditedOnly (s t : State) (k : Addr12) : Prop :=
  (∀ a, t.erasableWord a =
    if s.params.reeditOnRead = true ∧ 0o20 ≤ a ∧ a ≤ 0o23 ∧ (s.direct k).toNat = a then edit a (s.erasableWord a)
    else s.erasableWord a) ∧
  ∀ o, t.behindWord o = s.behindWord o

/-- Every register outside `P` is as before. -/
def KeepsRegsBut (P : Reg → Prop) (s t : State) : Prop :=
  (¬P .a → t.a = s.a) ∧ (¬P .l → t.l = s.l) ∧ (¬P .q → t.q = s.q) ∧ t.eb = s.eb ∧ t.fb = s.fb ∧
    (¬P .z → t.z = s.z)

/-- A register was loaded from an operand at `k`: nothing changed but it and the re-edit. -/
def Loaded (s t : State) (r : Reg) (v : Word16) (k : Addr12) : Prop :=
  PlaceHolds s t (.reg r) v ∧ KeepsRegsBut (fun x => x = r) s t ∧ ReeditedOnly s t k ∧ KeepsRest s t ∧
    t.pending = s.pending

/-- A register and the word at `k` were exchanged; where the two are one place, the register's new value stands. -/
def Exchanged (s t : State) (r : Reg) (k : Addr12) : Prop :=
  PlaceHolds s t (.reg r) (s.read k) ∧
    (s.resolve k ≠ .reg r → PlaceHolds s t (s.resolve k) (s.readReg r)) ∧
    KeepsPlacesBut (fun x => x = .reg r ∨ x = s.resolve k) s t ∧ KeepsRest s t ∧ t.pending = s.pending

/-- An instruction's sum overflowed the timer at address `a`, with the effect of R326. -/
def TimerHit (s : State) (k : Addr12) (sum : Word16) (a : Nat) : Prop :=
  s.params.instrCounterOverflow = true ∧ (s.direct k).toNat = a ∧ ovf sum = true

/-- The effects of an instruction's sum on the timers (R326, R320): TIME2 counts, or a request is raised. -/
def TimerEffects (s t : State) (k : Addr12) (sum : Word16) : Prop :=
  (TimerHit s k sum 0o25 →
    t.erasableWord 0o24 = if s.erasableWord 0o24 = 0o37777 then 0
      else if s.erasableWord 0o24 = 0o77777 then 1 else s.erasableWord 0o24 + 1) ∧
  ∀ n, t.pending.get n = true ↔ s.pending.get n = true ∨
    (n = .t3rupt ∧ TimerHit s k sum 0o26) ∨ (n = .t4rupt ∧ TimerHit s k sum 0o27) ∨
    (n = .t5rupt ∧ TimerHit s k sum 0o30)

/-- A sum was written back to the word at `k`, with the counter check: the other places are `P`'s alone. -/
def CountStored (P : Loc → Prop) (s t : State) (k : Addr12) (sum : Word16) : Prop :=
  PlaceHolds s t (s.resolve k) sum ∧
    KeepsPlacesBut (fun x => P x ∨ x = s.resolve k ∨ (TimerHit s k sum 0o25 ∧ x = .erasable 0o24)) s t ∧
    TimerEffects s t k sum ∧ KeepsRest s t

/-- Only the registers named by `P` changed. -/
def OnlyRegs (P : Reg → Prop) (s t : State) : Prop :=
  KeepsRegsBut P s t ∧ (∀ a, t.erasableWord a = s.erasableWord a) ∧ (∀ o, t.behindWord o = s.behindWord o) ∧
    KeepsRest s t ∧ t.pending = s.pending

/-- Registers and writable memory are as before. -/
def KeepsStore (s t : State) : Prop :=
  t.a = s.a ∧ t.l = s.l ∧ t.q = s.q ∧ t.eb = s.eb ∧ t.fb = s.fb ∧ t.z = s.z ∧
    (∀ a, t.erasableWord a = s.erasableWord a) ∧ (∀ o, t.behindWord o = s.behindWord o)

/-- No requests were lost. -/
def RequestsKept (s t : State) : Prop := ∀ n, s.pending.get n = true → t.pending.get n = true

/-- The word DINC, PINC and the other requests make of a counter word, by hand (R320 and its worked values). -/
def counted (k : CounterKind) (v : Word15) : Word15 :=
  match k with
  | .pinc => if v = 0o37777 then 0 else if v = 0o77777 then 1 else v + 1
  | .minc => if v = 0 then 0o77776 else if v = 1 ∨ v = 0o40000 then 0o77777 else v - 1
  | .dinc => if v = 0 ∨ v = 0o77777 then v else if v.toNat < 0o40000 then v - 1 else v + 1
  | .pcdu => v + 1
  | .mcdu => v - 1
  | .shinc => BitVec.ofNat 15 (2 * v.toNat)
  | .shanc => BitVec.ofNat 15 (2 * v.toNat + 1)

/-- The request overflows the word: PINC at +16383, MINC at -16383 (R320). -/
def CounterOverflows (k : CounterKind) (v : Word15) : Prop := (k = .pinc ∧ v = 0o37777) ∨ (k = .minc ∧ v = 0o40000)

/-- The request is a DINC that finds a zero (R320). -/
def CounterFindsZero (k : CounterKind) (v : Word15) : Prop := k = .dinc ∧ (v = 0 ∨ v = 0o77777)

end Sys2Proof.Claims

open Sys2Proof Sys2Proof.Machine Sys2Proof.Claims

/-! ## Encoding -/

/-- Decode of encode is the instruction, for every well-formed instruction of both tables (R101 to R107). -/
def Obligations.DecodeOfEncodeIsTheInstruction : Prop :=
  ∀ i : Instr, i.wf = true → decode (encode i).1 (encode i).2 = i

/-- Every word of either table decodes to a well-formed instruction of that table, whose encoding is the word. -/
def Obligations.EncodeOfDecodeIsTheWord : Prop :=
  ∀ (e : Bool) (w : Word15), (decode e w).wf = true ∧ encode (decode e w) = (e, w)

/-- R109: every pair (ext, W) matches exactly one row of the tables, the row of the instruction it decodes to. -/
def Obligations.EveryWordMatchesExactlyOneRow : Prop :=
  ∀ (e : Bool) (w : Word15), ∃ r ∈ opcodeTable, r.admits e w = true ∧ r.mnemonic = (decode e w).mnemonic ∧
    ∀ r' ∈ opcodeTable, r'.admits e w = true → r' = r

/-- R105: a double-word instruction's field holds KF = K + 1; the decoder forms K = KF - 1 modulo 010000, so KF = 0
names 07777; and the assembler's opcode values 020001, 052001, 030001, 040001 plus K are the encodings. -/
def Obligations.DoubleWordFieldsHoldKPlusOne : Prop :=
  (∀ kf : Addr10, decode false (formatQC 2 0 kf) = .das (kf.setWidth 12 - 1) ∧
    decode false (formatQC 5 1 kf) = .dxch (kf.setWidth 12 - 1)) ∧
  (∀ kf : Addr12, decode true (formatB 3 kf) = .dca (kf - 1) ∧ decode true (formatB 4 kf) = .dcs (kf - 1)) ∧
  (∀ k : Addr12, k.toNat < 0o1777 →
    (encodeWord (.das k)).toNat = 0o020001 + k.toNat ∧ (encodeWord (.dxch k)).toNat = 0o052001 + k.toNat) ∧
  (∀ k : Addr12, k.toNat < 0o7777 →
    (encodeWord (.dca k)).toNat = 0o030001 + k.toNat ∧ (encodeWord (.dcs k)).toNat = 0o040001 + k.toNat)

/-- A few words written out from R106, R107 and R116, one or more for each family. -/
def Obligations.WordsOfTheSpecDecode : Prop :=
  decode false 0o034005 = .ca 0o4005 ∧ decode false 0o064011 = .ad 0o4011 ∧ decode false 0o054100 = .ts 0o100 ∧
  decode false 0o020001 = .das 0 ∧ decode false 0o052005 = .dxch 4 ∧ decode false 0o050017 = .resume ∧
  decode false 0o000003 = .relint ∧ decode false 0o014003 = .tcf 0o4003 ∧ decode false 0o000002 = .tc 2 ∧
  decode true 0o001010 = .write 0o10 ∧ decode true 0o000006 = .read 6 ∧ decode true 0o050017 = .indexExt 0o17 ∧
  decode true 0o074011 = .mp 0o4011 ∧ decode true 0o022007 = .qxch 7 ∧ decode true 0o040001 = .dcs 0

/-! ## The instruction cycle -/

/-- R230, for a word fetched from memory with no index pending: step is exec of the decoded instruction with Z moved on
and `ext` cleared, then the interrupt check, the self-jump bit (log 10), the step count (log 15) and the boundary (log 9),
but for a refusal of the low window (R65, log 5). -/
def Obligations.StepRunsTheFetchedInstruction : Prop :=
  ∀ (s : State) (i : Instr), s.resumeWord = none → s.idx = none → decode s.ext (s.fetch .fetch s.z) = i →
    (s.params.windowE0Low = .refuse →
      s.inLowWindow s.z = false ∧ ∀ k ∈ operandAddrs i (s.z + 1), s.inLowWindow k = false) →
    step s = match exec i (((s.setZ (s.z + 1)).setIdx none).setExt false) with
      | .next t => if s.entryRefuses t then .refused .windowE0Low
        else .next (((t.setLastSelfJump (isSelfJump i (s.z + 1))).interruptCheck).tick).boundary
      | .fault r => .fault r
      | .refused r => .refused r

/-- R230, R305, R373: one step. The word is the resume word, which leaves Z alone, or the word at Z, which moves Z on; a
pending index is added to it before it is decoded by `ext`; both are used up and `ext` cleared before execute; then comes
the interrupt check, and then the boundary. The self-jump bit (log 10), the step count (log 15) and the boundary as data
inside the step (log 9) are the model's choice, and the premises leave out the refusals of R65 and R108, which O8, O9 and
O32 state (log 5, 6). -/
def Obligations.StepIsTheInstructionCycle : Prop :=
  ∀ (s : State) (f w : Word15) (z : Addr12) (i : Instr),
    ((∃ r, s.resumeWord = some r ∧ f = r ∧ z = s.z) ∨
      (s.resumeWord = none ∧ f = s.fetch .fetch s.z ∧ z = s.z + 1)) →
    ((∃ x, s.idx = some x ∧ w = indexWord s.params f x) ∨ (s.idx = none ∧ w = f)) →
    i = decode s.ext w →
    (s.params.windowE0Low = .refuse →
      (s.resumeWord = none → s.inLowWindow s.z = false) ∧ ∀ k ∈ operandAddrs i z, s.inLowWindow k = false) →
    (s.params.indexSumMode = .refuse → ∀ x, s.idx = some x → ovf (add16 (sext16 f) x) = false) →
    step s = match exec i ((((s.setZ z).setResumeWord none).setIdx none).setExt false) with
      | .next t => if s.entryRefuses t then .refused .windowE0Low
        else .next (((t.setLastSelfJump (isSelfJump i z)).interruptCheck).tick).boundary
      | .fault r => .fault r
      | .refused r => .refused r

/-- R108: the indexed word is the 16-bit ones'-complement sum's low 15 bits where it does not overflow; where it does,
bit 15 is bit 16 (`corrected`), or the low bits stand (`wrap15`), or the step refuses (`refuse`). In range the word's value
is the sum of the values. R220: an index of -0 leaves the word unchanged. For the word 000000 and the index -0 the two
rules differ; a parameter of the model tells which holds, R108 by default (log 20). -/
def Obligations.IndexedWordIsTheSum : Prop :=
  (∀ (p : Params) (f : Word15) (x : Word16),
    ((p.indexMinusZero = .bySum ∨ f ≠ 0 ∨ x ≠ 0o177777) → ovf (add16 (sext16 f) x) = false →
      indexWord p f x = (add16 (sext16 f) x).extractLsb' 0 15) ∧
    ((p.indexMinusZero = .unchanged ∨ f ≠ 0) → indexWord p f 0o177777 = f) ∧
    (ovf (add16 (sext16 f) x) = true →
      (p.indexSumMode = .take .corrected → indexWord p f x = ovc (add16 (sext16 f) x)) ∧
      (p.indexSumMode = .take .wrap15 → indexWord p f x = (add16 (sext16 f) x).extractLsb' 0 15)) ∧
    (ovf x = false → -16383 ≤ val15 f + val16 x → val15 f + val16 x ≤ 16383 →
      val15 (indexWord p f x) = val15 f + val16 x)) ∧
  ∀ (s : State) (f : Word15) (x : Word16), s.idx = some x → s.params.indexSumMode = .refuse →
    (s.resumeWord = some f ∨
      (s.resumeWord = none ∧ f = s.fetch .fetch s.z ∧
        (s.params.windowE0Low = .refuse → s.inLowWindow s.z = false))) →
    ovf (add16 (sext16 f) x) = true → step s = .refused .indexSumOverflow

/-- R232, R300: every step goes on, where no parameter is `refuse`; a step refuses only by one of the three refusals and
only under its parameter; no step faults. That State.reset holds no `refuse`, where it is the spec's default, is the
model's choice (log 5, 6, 7). -/
def Obligations.EveryStepContinues : Prop :=
  ∀ s : State,
    (s.params.windowE0Low ≠ .refuse → s.params.indexSumMode ≠ .refuse → s.params.edruptPolicy ≠ .refuse →
      ∃ t, step s = .next t) ∧
    (∀ r, step s = .refused r → (r = .windowE0Low ∧ s.params.windowE0Low = .refuse) ∨
      (r = .indexSumOverflow ∧ s.params.indexSumMode = .refuse ∧ s.idx ≠ none) ∨
      (r = .edrupt ∧ s.params.edruptPolicy = .refuse ∧ ∃ kc, s.nextInstr = .edrupt kc)) ∧
    ∀ f, step s ≠ .fault f

/-- Every step keeps the invariant: canonical memories within their sizes, L sign-extended, channel 7 masked, no latch
behind channels 1 to 4, and a resume word only with interrupts not in service and no extracode or index pending. -/
def Obligations.StepKeepsTheInvariant : Prop :=
  ∀ s t : State, s.Inv → step s = .next t → t.Inv

/-- The invariant holds at reset. -/
def Obligations.ResetMeetsTheInvariant : Prop := State.reset.Inv

/-- No step changes fixed memory or the parameters. -/
def Obligations.StepKeepsRopeAndParameters : Prop :=
  ∀ s t : State, step s = .next t → t.fixed = s.fixed ∧ t.params = s.params ∧ t.steps = s.steps + 1

/-- R40, R248, R7, R334: every field of State after a cold start with any parameters, R7's default of each parameter, and
the parameters of State.reset.
The zeros of A, L, Q, EB, FB, the requests and the latches are the spec's own decision, which the hardware does not make
(log 14, D8); the idle values are R248's default, one of the parameters (log 4). The model's choice: the words behind bank
E0 are free (log 5), no event stands for a boundary (log 9), no self jump was last (log 10), the history is empty and the
step count 0 (log 15); the three parameters whose default is `refuse` do not hold it in State.reset (log 5, 6, 7), and the
index of -0 before the word 000000 follows R108 (log 20). -/
def Obligations.ResetLeavesTheSpecsValues : Prop :=
  (∀ (p : Params) (s : State), s = State.cold p →
    s.a = 0 ∧ s.l = 0 ∧ s.q = 0 ∧ s.eb = 0 ∧ s.fb = 0 ∧ s.read 6 = 0 ∧ s.z = 0o4000 ∧ s.ext = false ∧ s.idx = none ∧
      s.resumeWord = none ∧ s.inhint = true ∧ s.isr = false ∧ (∀ n, s.pending.get n = false) ∧
      (∀ a, s.erasableWord a = Config.initialErasable a) ∧ (∀ o, s.behindWord o = Config.initialBehind o) ∧
      (∀ a, s.fixedWord a = Config.rope a) ∧ s.history = [] ∧ s.steps = 0 ∧ s.lastSelfJump = false ∧
      s.boundaries = [] ∧ s.params = p ∧
      s.latch 0o15 = p.channelIdle.c15 ∧ s.latch 0o16 = p.channelIdle.c16 ∧ s.latch 0o30 = p.channelIdle.c30 ∧
      s.latch 0o31 = p.channelIdle.c31 ∧ s.latch 0o32 = p.channelIdle.c32 ∧ s.latch 0o33 = p.channelIdle.c33 ∧
      (∀ c, c ∉ [0o15, 0o16, 0o30, 0o31, 0o32, 0o33] → s.latch c = 0)) ∧
  State.reset = State.cold State.reset.params ∧
  (∀ c, State.reset.latch c = if 0o30 ≤ c ∧ c ≤ 0o33 then 0o77777 else 0) ∧
  (∀ p : Params, p = Config.specDefaults →
    p.reeditOnRead = true ∧ p.lIs16bit = false ∧ p.windowE0Low = .refuse ∧ p.indexSumMode = .refuse ∧
      p.edruptPolicy = .refuse ∧ p.dimZeroResult = .draw ∧ p.instrCounterOverflow = true ∧ p.restartAlarms = false ∧
      p.tcTrapBit.val + 1 = 3 ∧ p.ruptLockBit.val + 1 = 4 ∧ p.nightWatchmanBit.val + 1 = 5 ∧
      p.channelIdle = ⟨0, 0, 0o77777, 0o77777, 0o77777, 0o77777⟩ ∧ p.indexMinusZero = .bySum) ∧
  State.reset.params = { Config.specDefaults with
    windowE0Low := .take Config.windowE0Low, indexSumMode := .take Config.indexSumMode, edruptPolicy := .asRule }

/-- R353: an image of the wrong length or with a word above 077777 is a LoadError; any other starts the machine, with
any parameters, in the cold-start state with word i of the image at offset i mod 1024 of bank i div 1024. -/
def Obligations.RopeLoadsInBankMajorOrder : Prop :=
  ∀ (p : Params) (image : List Nat),
    ((image.length ≠ 36864 ∨ ∃ w ∈ image, 0o77777 < w) → coldStart p image = .fault .loadError) ∧
    (image.length = 36864 → (∀ w ∈ image, w ≤ 0o77777) →
      ∃ t, coldStart p image = .next t ∧ t = { State.reset with params := p, fixed := t.fixed } ∧
        ∀ b o w, b < 36 → o < 1024 → image[1024 * b + o]? = some w → (t.fixedWord (b * 1024 + o)).toNat = w)

/-- R219, R36, R220, R221, R230: after a step `ext` is set exactly by EXTEND and the extended INDEX, and an index is
pending exactly after one of the two INDEX; with the alarms off. -/
def Obligations.ExtAndIndexLastOneInstruction : Prop :=
  ∀ s t : State, step s = .next t → s.params.restartAlarms = false →
    (t.ext = true ↔ s.nextInstr = .extend ∨ ∃ k, s.nextInstr = .indexExt k) ∧
    (t.idx ≠ none ↔ (∃ ke, s.nextInstr = .index ke) ∨ ∃ k, s.nextInstr = .indexExt k)

/-! ## Interrupts -/

/-- R305, R307, R301: the ten sources with their numbers and vectors; with the five conditions of R303 met, the check
enters the pending source of the lowest number: vector 04000 + 4n, the request cleared, `isr` set, BRUPT and ZRUPT saved,
all else as it was. -/
def Obligations.InterruptEntersTheLowestNumber : Prop :=
  Source.all.map (fun n => (n, n.number, n.vector)) =
    [(.t6rupt, 1, 0o4004), (.t5rupt, 2, 0o4010), (.t3rupt, 3, 0o4014), (.t4rupt, 4, 0o4020), (.keyrupt1, 5, 0o4024),
      (.keyrupt2, 6, 0o4030), (.uprupt, 7, 0o4034), (.downrupt, 8, 0o4040), (.radarupt, 9, 0o4044),
      (.handrupt, 10, 0o4050)] ∧
  ∀ (s : State) (n : Source), s.inhint = false → s.isr = false → s.ext = false → s.idx = none → ovf s.a = false →
    s.pending.get n = true → (∀ m, s.pending.get m = true → n.number ≤ m.number) →
    ∃ t, s.interruptCheck = t ∧ t.z = n.vector ∧ t.z = BitVec.ofNat 12 (0o4000 + 4 * n.number) ∧ t.isr = true ∧
      t.resumeWord = none ∧ (∀ m, t.pending.get m = true ↔ s.pending.get m = true ∧ m ≠ n) ∧
      (∀ w, s.resumeWord = some w → t.erasableWord 0o17 = w ∧ (t.erasableWord 0o15).toNat = s.z.toNat) ∧
      (s.resumeWord = none → t.erasableWord 0o17 = s.fetch .entry s.z ∧
        (t.erasableWord 0o15).toNat = (s.z.toNat + 1) % 0o10000) ∧
      (∀ a, a ≠ 0o15 → a ≠ 0o17 → t.erasableWord a = s.erasableWord a) ∧
      (∀ o, t.behindWord o = s.behindWord o) ∧
      t.a = s.a ∧ t.l = s.l ∧ t.q = s.q ∧ t.eb = s.eb ∧ t.fb = s.fb ∧ t.inhint = s.inhint ∧ t.ext = s.ext ∧
      t.idx = s.idx ∧ KeepsChannels s t ∧ KeepsRecord s t

/-- R303: interrupts are enabled when the five conditions all hold; with any one missing, or no request pending, the check
does nothing. -/
def Obligations.InterruptNeedsAllFiveConditions : Prop :=
  ∀ s : State,
    (s.enabled = true ↔ s.inhint = false ∧ s.isr = false ∧ s.ext = false ∧ s.idx = none ∧ ovf s.a = false) ∧
    ((s.inhint = true ∨ s.isr = true ∨ s.ext = true ∨ s.idx ≠ none ∨ ovf s.a = true ∨
      ∀ n, s.pending.get n = false) → s.interruptCheck = s)

/-- R304: while an interrupt is serviced, no step but a RESUME ends the service or takes a request of any priority;
with the alarms off. -/
def Obligations.NoInterruptNests : Prop :=
  ∀ s t : State, step s = .next t → s.params.restartAlarms = false → s.isr = true → s.nextInstr ≠ .resume →
    t.isr = true ∧ RequestsKept s t

/-- R302: a pending request stays pending over a step until it is taken, with the alarms off; taken means that its
handler is entered. -/
def Obligations.RequestsStayPendingUntilTaken : Prop :=
  ∀ (s t : State) (n : Source), step s = .next t → s.params.restartAlarms = false → s.pending.get n = true →
    t.pending.get n = true ∨ (t.isr = true ∧ t.z = n.vector)

/-- R361: a step whose instruction leaves `ext` set, an index pending or an overflow in A takes no interrupt: Z, `isr`
and the requests are what the instruction left, but for requests the boundary raises; with the alarms off. -/
def Obligations.ProtectedSequencesTakeNoInterrupt : Prop :=
  ∀ s t u : State, step s = .next t → exec s.nextInstr s.issued = .next u → s.params.restartAlarms = false →
    (u.ext = true ∨ u.idx ≠ none ∨ ovf u.a = true) → t.z = u.z ∧ t.isr = u.isr ∧ RequestsKept u t

/-- R222: RESUME jumps to ZRUPT, leaves BRUPT as the next word to execute and ends the service; nothing else changes. -/
def Obligations.ResumeReturns : Prop :=
  ∀ s : State, ∃ t, exec .resume s = .next t ∧ t.z.toNat = (s.erasableWord 0o15).toNat % 0o10000 ∧
    t.resumeWord = some (s.erasableWord 0o17) ∧ t.isr = false ∧
    t.a = s.a ∧ t.l = s.l ∧ t.q = s.q ∧ t.eb = s.eb ∧ t.fb = s.fb ∧ t.ext = s.ext ∧ t.idx = s.idx ∧
    t.inhint = s.inhint ∧ t.pending = s.pending ∧ (∀ a, t.erasableWord a = s.erasableWord a) ∧
    (∀ o, t.behindWord o = s.behindWord o) ∧ KeepsChannels s t ∧ KeepsRecord s t

/-- R307's last sentence: an interrupt entered at `s` and a RESUME executed in any later state `u` that still holds the
saved ZRUPT and BRUPT leave the next fetch exactly the word and the Z it would have had without the interrupt. -/
def Obligations.ResumeRestoresTheInterruptedStream : Prop :=
  ∀ (s u v : State) (n : Source), exec .resume u = .next v →
    u.erasableWord 0o15 = (s.enter n).erasableWord 0o15 → u.erasableWord 0o17 = (s.enter n).erasableWord 0o17 →
    v.fetchPhase.2.z = s.fetchPhase.2.z ∧
      (∀ w, s.resumeWord = some w → v.fetchPhase.1 = s.fetchPhase.1) ∧
      (s.resumeWord = none → v.fetchPhase.1 = s.fetch .entry s.z)

/-- R223: under `as_rule` EDRUPT saves the word at Z in BRUPT and the address after it in ZRUPT, sets `isr` and jumps to
0; under `refuse` it refuses. `as_rule` at reset is the model's choice (log 7). -/
def Obligations.EdruptActsLikeAnEntry : Prop :=
  ∀ (s : State) (kc : Chan9), (s.params.edruptPolicy = .refuse → exec (.edrupt kc) s = .refused .edrupt) ∧
    (s.params.edruptPolicy = .asRule → ∃ t, exec (.edrupt kc) s = .next t ∧ t.z = 0 ∧ t.isr = true ∧
    t.erasableWord 0o17 = s.fetch .entry s.z ∧ (t.erasableWord 0o15).toNat = (s.z.toNat + 1) % 0o10000 ∧
    (∀ a, a ≠ 0o15 → a ≠ 0o17 → t.erasableWord a = s.erasableWord a) ∧
    (∀ o, t.behindWord o = s.behindWord o) ∧ t.a = s.a ∧ t.l = s.l ∧ t.q = s.q ∧ t.eb = s.eb ∧ t.fb = s.fb ∧
    t.ext = s.ext ∧ t.idx = s.idx ∧ t.resumeWord = s.resumeWord ∧ t.inhint = s.inhint ∧ t.pending = s.pending ∧
    KeepsChannels s t ∧ KeepsRecord s t)

/-- R216, R217, R218: INHINT and RELINT set and clear `inhint`, EXTEND sets `ext`; nothing else changes. -/
def Obligations.ModeInstructionsSetTheirFlag : Prop :=
  ∀ s : State,
    (∃ t, exec .inhint s = .next t ∧ t.inhint = true ∧ t.ext = s.ext ∧ t.idx = s.idx ∧ t.isr = s.isr ∧
      t.resumeWord = s.resumeWord ∧ t.pending = s.pending ∧ KeepsStore s t ∧ KeepsChannels s t ∧ KeepsRecord s t) ∧
    (∃ t, exec .relint s = .next t ∧ t.inhint = false ∧ t.ext = s.ext ∧ t.idx = s.idx ∧ t.isr = s.isr ∧
      t.resumeWord = s.resumeWord ∧ t.pending = s.pending ∧ KeepsStore s t ∧ KeepsChannels s t ∧ KeepsRecord s t) ∧
    (∃ t, exec .extend s = .next t ∧ t.ext = true ∧ t.inhint = s.inhint ∧ t.idx = s.idx ∧ t.isr = s.isr ∧
      t.resumeWord = s.resumeWord ∧ t.pending = s.pending ∧ KeepsStore s t ∧ KeepsChannels s t ∧ KeepsRecord s t)

/-! ## Counters, alarms and the host -/

/-- R320: the word each kind of counter request makes of the word it finds, the effect of an overflow (TIME1's is a PINC of
TIME2, TIME3's, TIME4's and TIME5's a request), the effect of TIME6's zero, and nothing else. -/
def Obligations.CounterRequestsCount : Prop :=
  ∀ (s : State) (a : Nat) (k : CounterKind) (v : Word15), v = s.erasableWord a →
    ∃ t, s.counter a k = t ∧ t.erasableWord a = counted k v ∧
      (∀ b, b ≠ a →
        (CounterOverflows k v ∧ a = 0o25 ∧ b = 0o24 → t.erasableWord b = counted .pinc (s.erasableWord b)) ∧
        (¬(CounterOverflows k v ∧ a = 0o25 ∧ b = 0o24) → t.erasableWord b = s.erasableWord b)) ∧
      (∀ n, t.pending.get n = true ↔ s.pending.get n = true ∨
        (CounterOverflows k v ∧ a = 0o26 ∧ n = .t3rupt) ∨ (CounterOverflows k v ∧ a = 0o27 ∧ n = .t4rupt) ∨
        (CounterOverflows k v ∧ a = 0o30 ∧ n = .t5rupt) ∨ (CounterFindsZero k v ∧ a = 0o31 ∧ n = .t6rupt)) ∧
      (∀ c, (CounterFindsZero k v ∧ a = 0o31 ∧ c = 0o13 → t.latch c = s.latch c &&& 0o37777) ∧
        (¬(CounterFindsZero k v ∧ a = 0o31 ∧ c = 0o13) → t.latch c = s.latch c)) ∧
      t.history = s.history ∧ t.a = s.a ∧ t.l = s.l ∧ t.q = s.q ∧ t.eb = s.eb ∧ t.fb = s.fb ∧ t.z = s.z ∧
      (∀ o, t.behindWord o = s.behindWord o) ∧ KeepsSequencer s t ∧ KeepsRecord s t

/-- R324 and R320's overflow effects: a PINC counts the word of a timer, 037777 to +0; from 037777 it counts TIME2 (TIME1)
or raises T3RUPT, T4RUPT or T5RUPT; a PINC of a timer that holds anything else raises nothing, and none of TIME2 does. -/
def Obligations.TimerOverflowHasItsEffect : Prop :=
  ∀ s : State,
    (∀ a n, (a, n) ∈ [(0o26, Source.t3rupt), (0o27, Source.t4rupt), (0o30, Source.t5rupt)] →
      (∀ m, (s.event (.counter a .pinc)).pending.get m = true ↔
        s.pending.get m = true ∨ (m = n ∧ s.erasableWord a = 0o37777)) ∧
      ∀ b, b ≠ a → (s.event (.counter a .pinc)).erasableWord b = s.erasableWord b) ∧
    (∀ a, 0o24 ≤ a → a ≤ 0o30 → (s.event (.counter a .pinc)).erasableWord a = counted .pinc (s.erasableWord a)) ∧
    (s.event (.counter 0o25 .pinc)).pending = s.pending ∧
    (s.event (.counter 0o25 .pinc)).erasableWord 0o24 =
      (if s.erasableWord 0o25 = 0o37777 then counted .pinc (s.erasableWord 0o24) else s.erasableWord 0o24) ∧
    (s.event (.counter 0o24 .pinc)).pending = s.pending

/-- R323: the DINC of TIME6 that finds a zero raises T6RUPT and clears channel 013 bit 15 and no other bit, with no event
emitted. R323 says that the counter agent issues no TIME6 request while that bit is 0; that such a request, if the list of
boundary events holds one, does nothing is the model's choice (log 9). -/
def Obligations.Time6StopsAtZero : Prop :=
  ∀ s : State,
    ((s.latch 0o13).getLsbD 14 = false → s.event (.counter 0o31 .dinc) = s) ∧
    ((s.latch 0o13).getLsbD 14 = true → isZero15 (s.erasableWord 0o31) = true →
      ∃ t, s.event (.counter 0o31 .dinc) = t ∧ (∀ n, t.pending.get n = true ↔ s.pending.get n = true ∨ n = .t6rupt) ∧
        (t.latch 0o13).getLsbD 14 = false ∧ (∀ b, b < 14 → (t.latch 0o13).getLsbD b = (s.latch 0o13).getLsbD b) ∧
        (∀ c, c ≠ 0o13 → t.latch c = s.latch c) ∧ t.history = s.history ∧ KeepsStore s t) ∧
    ((s.latch 0o13).getLsbD 14 = true → isZero15 (s.erasableWord 0o31) = false →
      ∃ t, s.event (.counter 0o31 .dinc) = t ∧ t.erasableWord 0o31 = counted .dinc (s.erasableWord 0o31) ∧
        t.pending = s.pending ∧ KeepsChannels s t)

/-- R340: what the host's events do, and that an event elsewhere does nothing. -/
def Obligations.HostEventsLatchAndRaise : Prop :=
  ∀ (s : State) (c : Chan9) (v : Word16),
    (c.toNat ∈ [0o15, 0o16, 0o30, 0o31, 0o32, 0o33] →
      ∃ t, s.event (.panel c v) = t ∧ t.latch c.toNat = v.extractLsb' 0 15 ∧
        (∀ d, d ≠ c.toNat → t.latch d = s.latch d) ∧
        (∀ n, t.pending.get n = true ↔ s.pending.get n = true ∨ (c.toNat = 0o15 ∧ n = .keyrupt1) ∨
          (c.toNat = 0o16 ∧ n = .keyrupt2)) ∧
        t.history = s.history ∧ KeepsStore s t ∧ KeepsSequencer s t) ∧
    (c.toNat ∉ [0o15, 0o16, 0o30, 0o31, 0o32, 0o33] → s.event (.panel c v) = s) ∧
    (∀ n ∈ [Source.uprupt, Source.downrupt, Source.radarupt, Source.handrupt],
      ∀ m, (s.event (.raise n)).pending.get m = true ↔ s.pending.get m = true ∨ m = n)

/-- R350, R330 to R334: an alarm that may fire restarts the machine as GOJAM says and sets its own bit of channel 077. The
model's choice: the bit of State that tells R331's condition is set by a step whose instruction is a TC or TCF to the
address it was fetched from, or, for a word RESUME handed on, to the address before Z, and GOJAM keeps it (log 10); an
alarm that may not fire does nothing (log 9). -/
def Obligations.AlarmsRestartTheMachine : Prop :=
  (∀ s t : State, step s = .next t → (t.lastSelfJump = true ↔ ∃ k, (s.nextInstr = .tc k ∨ s.nextInstr = .tcf k) ∧
    ((s.resumeWord = none ∧ k = s.z) ∨ (s.resumeWord ≠ none ∧ k + 1 = s.z)))) ∧
  ∀ (s : State) (c : Alarm),
    (s.params.restartAlarms = false ∨ (c = .tcTrap ∧ s.lastSelfJump = false) ∨ (c = .ruptLock ∧ s.isr = false) →
      s.event (.alarm c) = s) ∧
    (s.params.restartAlarms = true → (c = .tcTrap → s.lastSelfJump = true) → (c = .ruptLock → s.isr = true) →
    ∃ t, s.event (.alarm c) = t ∧ t.z = 0o4000 ∧ t.inhint = true ∧ t.isr = false ∧ t.ext = false ∧ t.idx = none ∧
      t.resumeWord = none ∧ (∀ n, t.pending.get n = false) ∧
      (∀ d ∈ [0o5, 0o6, 0o7, 0o10, 0o11, 0o12, 0o13, 0o14, 0o34, 0o35], t.latch d = 0) ∧
      (∀ d, d ∉ [0o5, 0o6, 0o7, 0o10, 0o11, 0o12, 0o13, 0o14, 0o34, 0o35] → d ≠ 0o77 → t.latch d = s.latch d) ∧
      (∀ b, (t.latch 0o77).getLsbD b = ((s.latch 0o77).getLsbD b ||
        decide (c = .tcTrap ∧ b = s.params.tcTrapBit.val ∨ c = .ruptLock ∧ b = s.params.ruptLockBit.val ∨
          c = .nightWatchman ∧ b = s.params.nightWatchmanBit.val))) ∧
      t.a = s.a ∧ t.l = s.l ∧ t.q = s.q ∧ t.eb = s.eb ∧ t.fb = s.fb ∧
      (∀ a, t.erasableWord a = s.erasableWord a) ∧ (∀ o, t.behindWord o = s.behindWord o) ∧
      t.history = s.history ∧ KeepsRecord s t)

/-- With the alarms off a boundary leaves every register, every sequencer flag, every word but the counter cells 024 to
060, every channel but the inputs and 013, and the history as they were; it loses no request. -/
def Obligations.BoundariesTouchOnlyTheirOwn : Prop :=
  ∀ s : State, s.params.restartAlarms = false →
    ∃ t, s.boundary = t ∧ t.a = s.a ∧ t.l = s.l ∧ t.q = s.q ∧ t.eb = s.eb ∧ t.fb = s.fb ∧ t.z = s.z ∧
      KeepsSequencer s t ∧ RequestsKept s t ∧ t.history = s.history ∧ t.fixed = s.fixed ∧ t.params = s.params ∧
      t.steps = s.steps ∧ t.boundaries = s.boundaries.tail ∧
      (∀ a, ¬(0o24 ≤ a ∧ a ≤ 0o60) → t.erasableWord a = s.erasableWord a) ∧
      (∀ o, t.behindWord o = s.behindWord o) ∧
      (∀ c, c ∉ [0o13, 0o15, 0o16, 0o30, 0o31, 0o32, 0o33] → t.latch c = s.latch c)

/-! ## Memory and registers -/

/-- R62, R64, R20: where every address leads, but for the low window of R65. -/
def Obligations.AddressesFollowTheMap : Prop :=
  ∀ (s : State) (k : Addr12),
    s.resolve 0 = .reg .a ∧ s.resolve 1 = .reg .l ∧ s.resolve 2 = .reg .q ∧ s.resolve 3 = .reg .eb ∧
    s.resolve 4 = .reg .fb ∧ s.resolve 5 = .reg .z ∧ s.resolve 6 = .reg .bb ∧ s.resolve 7 = .reg .zero ∧
    (8 ≤ k.toNat → k.toNat < 0o1400 → s.resolve k = .erasable k.toNat) ∧
    (0o1400 ≤ k.toNat → k.toNat < 0o2000 → (s.eb ≠ 0 ∨ 0o1461 ≤ k.toNat) →
      s.resolve k = .erasable (256 * s.eb.toNat + (k.toNat - 0o1400))) ∧
    (0o2000 ≤ k.toNat → k.toNat < 0o4000 → (s.fb.toNat < 0o30 ∨ (s.latch 7).getLsbD 6 = false) →
      s.resolve k = .fixed (1024 * s.fb.toNat + (k.toNat - 0o2000))) ∧
    (0o2000 ≤ k.toNat → k.toNat < 0o4000 → 0o30 ≤ s.fb.toNat → s.fb.toNat < 0o34 → (s.latch 7).getLsbD 6 = true →
      s.resolve k = .fixed (1024 * (s.fb.toNat + 8) + (k.toNat - 0o2000))) ∧
    (0o2000 ≤ k.toNat → k.toNat < 0o4000 → 0o34 ≤ s.fb.toNat → (s.latch 7).getLsbD 6 = true →
      s.resolve k = .missing (1024 * (s.fb.toNat + 8) + (k.toNat - 0o2000))) ∧
    (0o4000 ≤ k.toNat → k.toNat < 0o6000 → s.resolve k = .fixed (1024 * 2 + (k.toNat - 0o4000))) ∧
    (0o6000 ≤ k.toNat → s.resolve k = .fixed (1024 * 3 + (k.toNat - 0o6000)))

/-- R65: with EB = 0 an address 01400 to 01460 acts as the address less 01400 (`same_as_direct`), or reaches a plain word
of its own that no other address reaches (`plain_storage`), or the step that accesses it refuses (`refuse`): the fetch, an
operand access, the fetch an interrupt entry or EDRUPT makes. The spec's default is `refuse`; one of the other two holds
at reset, which is the model's choice (log 5). The spec leaves open which refusal an EDRUPT answers that its own policy
refuses too; that it is the window's is the model's choice (log 7). -/
def Obligations.LowWindowActsAsItsParameter : Prop :=
  ∀ (s : State) (k : Addr12) (v : Word16), s.eb = 0 → 0o1400 ≤ k.toNat → k.toNat ≤ 0o1460 →
    (s.params.windowE0Low = .take .sameAsDirect →
      s.read k = s.read (k - 0o1400) ∧ s.write k v = s.write (k - 0o1400) v ∧ s.reedit k = s.reedit (k - 0o1400)) ∧
    (s.params.windowE0Low = .take .plainStorage →
      (s.write k v).read k = sext16 (ovc v) ∧
        ∀ j : Addr12, j ≠ k → (s.write k v).read j = s.read j ∧ (s.write j v).behindWord (k.toNat - 0o1400) =
          s.behindWord (k.toNat - 0o1400)) ∧
    (s.params.windowE0Low = .refuse →
      (s.resumeWord = none → s.z = k → step s = .refused .windowE0Low) ∧
      (∀ i ∈ [Instr.ca k, .cs k, .ad k, .mask k, .indexExt k, .mp k, .das k, .dxch k, .dca k, .dcs k, .das (k - 1),
          .dxch (k - 1), .dca (k - 1), .dcs (k - 1)],
        s.nextInstr = i → s.indexRefuses = false → step s = .refused .windowE0Low) ∧
      (∀ ke : Addr10, ke.setWidth 12 = k →
        ∀ i ∈ [Instr.ccs ke, .lxch ke, .incr ke, .ads ke, .index ke, .ts ke, .xch ke, .dv ke, .msu ke, .qxch ke, .aug ke,
          .dim ke, .su ke],
        s.nextInstr = i → s.indexRefuses = false → step s = .refused .windowE0Low) ∧
      (∀ kc, s.nextInstr = .edrupt kc → s.issued.z = k → s.indexRefuses = false → step s = .refused .windowE0Low) ∧
      ∀ (u t : State) (n : Source), exec u.nextInstr u.issued = .next t → u.indexRefuses = false →
        u.params.windowE0Low = .refuse → t.eb = 0 → t.z = k → t.resumeWord = none → t.enabled = true → t.pending.get n = true →
        step u = .refused .windowE0Low)

/-- R20 to R29: what each central register reads as, and reads as after a write, the views of EB, FB and BB through each
other among them; ZERO reads +0 and a write to it changes nothing. R64: a read of a bank that does not exist is a draw,
which as the model's choice is a constant's value for the step, the access and the word (log 8). -/
def Obligations.CentralRegistersReadBack : Prop :=
  ∀ (s : State) (v : Word16),
    s.read 0 = s.a ∧ s.read 1 = s.l ∧ s.read 2 = s.q ∧ (s.read 3).toNat = 256 * s.eb.toNat ∧
    (ovc (s.read 4)).toNat = 1024 * s.fb.toNat ∧ (s.read 5).toNat = s.z.toNat ∧
    (ovc (s.read 6)).toNat = 1024 * s.fb.toNat + s.eb.toNat ∧ ovf (s.read 4) = false ∧ ovf (s.read 6) = false ∧
    (∀ (k : Addr12) (a : Nat), s.resolve k = .missing a →
      ∀ u, s.readAs u k = sext16 (Config.missingFixedBankRead s.steps u a)) ∧
    (s.write 0 v).read 0 = v ∧
    (s.params.lIs16bit = false → (s.write 1 v).read 1 = sext16 (ovc v)) ∧
    (s.params.lIs16bit = true → (s.write 1 v).read 1 = v) ∧
    (s.write 2 v).read 2 = v ∧
    (s.write 3 v).read 3 = v &&& 0o003400 ∧
    (s.write 4 v).read 4 = sext16 (ovc v &&& 0o076000) ∧
    (s.write 5 v).read 5 = v &&& 0o007777 ∧
    (s.write 6 v).read 6 = sext16 (ovc v &&& 0o076007) ∧
    s.read 7 = 0 ∧ s.write 7 v = s ∧
    (s.write 3 v).read 4 = s.read 4 ∧ (s.write 4 v).read 3 = s.read 3 ∧
    (s.write 6 v).read 4 = sext16 (ovc v &&& 0o076000) ∧ (s.write 6 v).read 3 = (v &&& 7) <<< 8 ∧
    (s.write 4 v).read 6 = sext16 ((ovc v &&& 0o076000) ||| (ovc (s.read 6) &&& 7)) ∧
    (s.write 3 v).read 6 = sext16 ((ovc (s.read 6) &&& 0o076000) ||| (ovc (v >>> 8) &&& 7))

/-- R70, R74: what Read and a fetch return, by the place the address leads to (a missing bank's word and the window's
refusal are in O33 and O32). R31, R33, R72: a write to an editing
register stores the word cycled right, shifted right, cycled left or moved to
the low seven bits, and a read returns what is stored; a write to an ordinary erasable word is read back overflow-corrected;
a write to fixed memory changes no state. -/
def Obligations.ErasableWordsReadBack : Prop :=
  ∀ (s : State) (k : Addr12) (v : Word16),
    (∀ r, s.resolve k = .reg r → ∀ u, s.readAs u k = s.readReg r) ∧
    (∀ a, s.resolve k = .erasable a → ∀ u, s.readAs u k = sext16 (s.erasableWord a)) ∧
    (∀ o, s.resolve k = .behind o → ∀ u, s.readAs u k = sext16 (s.behindWord o)) ∧
    (∀ a, s.resolve k = .fixed a → ∀ u, s.readAs u k = sext16 (s.fixedWord a)) ∧
    s.read k = s.readAs .operand k ∧ (∀ u, s.fetch u k = ovc (s.readAs u k)) ∧
    ((s.write 0o20 v).erasableWord 0o20).toNat = (ovc v).toNat / 2 + 16384 * ((ovc v).toNat % 2) ∧
    ((s.write 0o21 v).erasableWord 0o21).toNat = (ovc v).toNat / 2 + 16384 * ((ovc v).toNat / 16384) ∧
    ((s.write 0o22 v).erasableWord 0o22).toNat = 2 * ((ovc v).toNat % 16384) + (ovc v).toNat / 16384 ∧
    ((s.write 0o23 v).erasableWord 0o23).toNat = (ovc v).toNat / 128 % 128 ∧
    (0o20 ≤ k.toNat → k.toNat ≤ 0o23 → s.read k = sext16 (s.erasableWord k.toNat)) ∧
    ((0o10 ≤ k.toNat ∧ k.toNat ≤ 0o17) ∨ (0o24 ≤ k.toNat ∧ k.toNat < 0o1400) ∨
      (0o1400 ≤ k.toNat ∧ k.toNat < 0o2000 ∧ (s.eb ≠ 0 ∨ 0o1461 ≤ k.toNat)) →
      s.read k = sext16 (ovc (s.read k)) ∧ (s.write k v).read k = sext16 (ovc v)) ∧
    (0o2000 ≤ k.toNat → s.write k v = s)

/-- R71, R78: a write changes the place its address leads to and nothing else. -/
def Obligations.WriteChangesOnePlace : Prop :=
  ∀ (s : State) (k : Addr12) (v : Word16), Stored s (s.write k v) (s.resolve k) v

/-- R66, R362, R64: a write to FB, EB or BB, and a channel 7 write, select the bank of the very next access: for FB and
BB at every address of the fixed window, with the superbank bit; for EB and BB at every address of the erasable window
but the low window of R65, which O32 states. -/
def Obligations.BankWritesActAtOnce : Prop :=
  ∀ (s : State) (k : Addr12) (v : Word16),
    (∀ b, b = (ovc v).toNat / 1024 + (if 0o30 ≤ (ovc v).toNat / 1024 ∧ (s.latch 7).getLsbD 6 = true then 8 else 0) →
      0o2000 ≤ k.toNat → k.toNat < 0o4000 →
      (b < 36 → (s.write 4 v).resolve k = .fixed (1024 * b + (k.toNat - 0o2000)) ∧
        (s.write 6 v).resolve k = .fixed (1024 * b + (k.toNat - 0o2000))) ∧
      (36 ≤ b → (s.write 4 v).resolve k = .missing (1024 * b + (k.toNat - 0o2000)) ∧
        (s.write 6 v).resolve k = .missing (1024 * b + (k.toNat - 0o2000)))) ∧
    (0o1400 ≤ k.toNat → k.toNat < 0o2000 →
      (v.toNat / 256 % 8 ≠ 0 ∨ 0o1461 ≤ k.toNat →
        (s.write 3 v).resolve k = .erasable (256 * (v.toNat / 256 % 8) + (k.toNat - 0o1400))) ∧
      (v.toNat % 8 ≠ 0 ∨ 0o1461 ≤ k.toNat →
        (s.write 6 v).resolve k = .erasable (256 * (v.toNat % 8) + (k.toNat - 0o1400)))) ∧
    (∀ b, b = s.fb.toNat + (if 0o30 ≤ s.fb.toNat ∧ v.getLsbD 6 = true then 8 else 0) →
      0o2000 ≤ k.toNat → k.toNat < 0o4000 →
      (b < 36 → (s.chanWrite 7 v).resolve k = .fixed (1024 * b + (k.toNat - 0o2000))) ∧
      (36 ≤ b → (s.chanWrite 7 v).resolve k = .missing (1024 * b + (k.toNat - 0o2000))))

/-! ## The arithmetic unit -/

/-- R134: the zero laws of the adder. -/
def Obligations.AdderZeroLaws : Prop :=
  add16 0 0 = 0 ∧ add16 0o177777 0 = 0o177777 ∧ add16 0o177777 0o177777 = 0o177777 ∧
    (∀ x : Word16, add16 x (neg16 x) = 0o177777) ∧ ∀ x : Word16, add16 x 0 = x

/-- R131: a word holds -16383 to +16383; a sum of two values in that range has exactly the true value, and overflows
exactly where that lies outside the range, to the side it lies on; AD leaves such a sum in A and goes on. -/
def Obligations.AdderIsExactInRange : Prop :=
  (∀ w : Word15, -16383 ≤ val15 w ∧ val15 w ≤ 16383) ∧
  (∀ a b : Word16, ovf a = false → ovf b = false →
    val16 (add16 a b) = val16 a + val16 b ∧
    (ovf (add16 a b) = true ↔ 16383 < val16 a + val16 b ∨ val16 a + val16 b < -16383) ∧
    ((add16 a b).extractLsb' 14 2 = 1 ↔ 16383 < val16 a + val16 b) ∧
    ((add16 a b).extractLsb' 14 2 = 2 ↔ val16 a + val16 b < -16383) ∧ (val16 (add16 a b)).natAbs ≤ 32766) ∧
  ∀ (s : State) (k : Addr12), ∃ t, exec (.ad k) s = .next t ∧ t.a = add16 s.a (s.read k)

/-- R132, R133, R12: storing keeps the sign and the low 14 bits, so an overflow loses 16384 of its magnitude and a value
without one is kept; negation is exact and undoes itself. -/
def Obligations.StoringAndNegatingValues : Prop :=
  ∀ a : Word16,
    (posOvf a = true → val15 (ovc a) = val16 a - 16384 ∧ sign15 (ovc a) = false) ∧
    (negOvf a = true → val15 (ovc a) = val16 a + 16384 ∧ sign15 (ovc a) = true) ∧
    (ovf a = false → val15 (ovc a) = val16 a ∧ sext16 (ovc a) = a) ∧
    val16 (neg16 a) = -val16 a ∧ neg16 (neg16 a) = a ∧ neg16 0 = 0o177777

/-! ## Instructions: loads, arithmetic, logic -/

/-- R135, R136, R146, R180, R181: AD, SU, MASK, CA and CS leave their result in A, re-edit their operand and change
nothing else. -/
def Obligations.AccumulatorInstructionsWriteA : Prop :=
  ∀ (s : State) (k : Addr12) (ke : Addr10),
    (∃ t, exec (.ad k) s = .next t ∧ Loaded s t .a (add16 s.a (s.read k)) k) ∧
    (∃ t, exec (.su ke) s = .next t ∧ Loaded s t .a (add16 s.a (neg16 (s.read (ke.setWidth 12)))) (ke.setWidth 12)) ∧
    (∃ t, exec (.mask k) s = .next t ∧ Loaded s t .a (s.a &&& s.read k) k) ∧
    (∃ t, exec (.ca k) s = .next t ∧ Loaded s t .a (s.read k) k) ∧
    (∃ t, exec (.cs k) s = .next t ∧ Loaded s t .a (~~~s.read k) k)

/-- R143: MSU leaves in A the difference of two two's-complement words as a ones'-complement one: its value, but that
-16384 becomes +16383, and never -0. -/
def Obligations.MsuSubtractsModularly : Prop :=
  ∀ (s : State) (ke : Addr10), ∃ t w d,
    exec (.msu ke) s = .next t ∧ Loaded s t .a (sext16 w) (ke.setWidth 12) ∧
    d = (ovc s.a - ovc (s.read (ke.setWidth 12))).toInt ∧ w ≠ 0o77777 ∧
    val15 w = if d = -16384 then 16383 else d

/-- R144: MP of two non-zero words leaves in (A, L) the exact product, both words with its sign; a product with a zero
factor is a zero whose sign is free, the same in both. Nothing else changes but the re-edit. -/
def Obligations.MpMultipliesExactly : Prop :=
  ∀ (s : State) (k : Addr12), ∃ t hi lo,
    exec (.mp k) s = .next t ∧ t.a = sext16 hi ∧ t.l = sext16 lo ∧
    KeepsRegsBut (fun x => x = .a ∨ x = .l) s t ∧ ReeditedOnly s t k ∧ KeepsRest s t ∧ t.pending = s.pending ∧
    ((isZero15 (ovc s.a) = true ∨ isZero15 (ovc (s.read k)) = true) → isZero15 hi = true ∧ lo = hi) ∧
    (isZero15 (ovc s.a) = false → isZero15 (ovc (s.read k)) = false →
      val15 hi * 16384 + val15 lo = val15 (ovc s.a) * val15 (ovc (s.read k)) ∧
      sign15 hi = decide (val15 (ovc s.a) * val15 (ovc (s.read k)) < 0) ∧ sign15 lo = sign15 hi)

/-- R145: DV in range leaves the truncated quotient in A and the remainder, with the dividend's sign, in L, the signs of
zeros free; by a zero, or with a quotient that does not fit, it still completes, with a free pair whose L is sign-extended.
Nothing else changes but the re-edit. -/
def Obligations.DvDividesExactlyOrLeavesAFreePair : Prop :=
  ∀ (s : State) (ke : Addr10) (n d : Int),
    n = val15 (ovc s.a) * 16384 + val15 (ovc s.l) → d = val15 (ovc (s.read (ke.setWidth 12))) →
    ∃ t, exec (.dv ke) s = .next t ∧ t.l.getLsbD 15 = t.l.getLsbD 14 ∧
      KeepsRegsBut (fun x => x = .a ∨ x = .l) s t ∧ ReeditedOnly s t (ke.setWidth 12) ∧ KeepsRest s t ∧
      t.pending = s.pending ∧
      (d ≠ 0 → n.natAbs < d.natAbs * 16384 →
        ∃ q r, t.a = sext16 q ∧ t.l = sext16 r ∧ n = val15 q * d + val15 r ∧ (val15 r).natAbs < d.natAbs ∧
          (val15 q ≠ 0 → sign15 q = (decide (n < 0) != decide (d < 0))) ∧
          (val15 r ≠ 0 → sign15 r = decide (n < 0)))

/-- R138, R139, R137, R326: INCR, AUG and ADS write their sum back, ADS into A too; a timer they overflow has its
effect; nothing else changes. -/
def Obligations.CountingInstructionsStoreTheirSum : Prop :=
  ∀ (s : State) (ke : Addr10) (k : Addr12) (v : Word16), k = ke.setWidth 12 → v = s.read k →
    (∃ t, exec (.incr ke) s = .next t ∧ CountStored (fun _ => False) s t k (add16 v 1)) ∧
    (∃ t, exec (.aug ke) s = .next t ∧
      CountStored (fun _ => False) s t k (if v.toNat < 0o100000 then add16 v 1 else add16 v 0o177776)) ∧
    (∃ t, exec (.ads ke) s = .next t ∧ t.a = add16 s.a v ∧
      CountStored (fun x => x = .reg .a) s t k (add16 s.a v))

/-- R140, R141: DIM stores a value one less in magnitude, a zero as it is; the zero it makes of a one is -0 by the adder
and of a free sign under `draw`; nothing else changes. -/
def Obligations.DimDiminishes : Prop :=
  ∀ (s : State) (ke : Addr10), ∃ t r,
    exec (.dim ke) s = .next t ∧ Stored s t (s.resolve (ke.setWidth 12)) r ∧
    (val16 (s.read (ke.setWidth 12)) = 0 → r = s.read (ke.setWidth 12)) ∧
    (0 < val16 (s.read (ke.setWidth 12)) → val16 r = val16 (s.read (ke.setWidth 12)) - 1) ∧
    (val16 (s.read (ke.setWidth 12)) < 0 → val16 r = val16 (s.read (ke.setWidth 12)) + 1) ∧
    ((val16 (s.read (ke.setWidth 12))).natAbs = 1 → s.params.dimZeroResult = .adder → r = 0o177777)

/-- R142, KF = 1: DDOUBL doubles (A, L) in place, the low sum's overflow carried into A, and A keeps its overflow. -/
def Obligations.DdoublDoubles : Prop :=
  ∀ s : State, ∃ t, exec (.das 0) s = .next t ∧
    t.a = (if posOvf (add16 s.l s.l) then add16 (add16 s.a s.a) 1
      else if negOvf (add16 s.l s.l) then add16 (add16 s.a s.a) 0o177776 else add16 s.a s.a) ∧
    t.l = sext16 (ovc (add16 s.l s.l)) ∧
    OnlyRegs (fun x => x = .a ∨ x = .l) s t

/-- R142, the general form: the two sums are stored in K + 1 and then K, L is cleared and A holds the net overflow. -/
def Obligations.DasAddsToThePair : Prop :=
  ∀ (s : State) (k : Addr12) (lsw msw : Word16), k ≠ 0 → lsw = add16 s.l (s.read (k + 1)) →
    msw = (if posOvf lsw then add16 (add16 s.a (s.read k)) 1
      else if negOvf lsw then add16 (add16 s.a (s.read k)) 0o177776 else add16 s.a (s.read k)) →
    ∃ t u w, exec (.das k) s = .next t ∧ Stored s u (s.resolve (k + 1)) lsw ∧ Stored u w (u.resolve k) msw ∧
      t.l = 0 ∧ t.a = (if posOvf msw then 1 else if negOvf msw then 0o177776 else 0) ∧
      OnlyRegs (fun x => x = .a ∨ x = .l) w t

/-! ## Instructions: stores, exchanges, pairs -/

/-- R182: OVSK (TS A) skips on overflow and changes nothing else; TCAA (TS Z) jumps to A's low 12 bits and leaves the
overflow indicator; at every other address TS stores A, and an overflow leaves its indicator in A and skips one word. -/
def Obligations.TsStoresSkipsAndJumps : Prop :=
  ∀ (s : State) (ke : Addr10) (p : Loc), p = s.resolve (ke.setWidth 12) →
    (ke = 0 → ∃ t, exec (.ts ke) s = .next t ∧ t.z = (if ovf s.a then s.z + 1 else s.z) ∧
      OnlyRegs (fun x => x = .z) s t) ∧
    (ke = 5 → ∃ t, exec (.ts ke) s = .next t ∧ t.z = s.a.extractLsb' 0 12 ∧
      t.a = (if posOvf s.a then 1 else if negOvf s.a then 0o177776 else s.a) ∧
      OnlyRegs (fun x => x = .z ∨ x = .a) s t) ∧
    (ke ≠ 0 → ke ≠ 5 → ovf s.a = false → ∃ t, exec (.ts ke) s = .next t ∧ Stored s t p s.a) ∧
    (ke ≠ 0 → ke ≠ 5 → ovf s.a = true → ∃ t, exec (.ts ke) s = .next t ∧
      t.a = (if posOvf s.a then 1 else 0o177776) ∧
      t.z = (if p = .reg .z then s.a.extractLsb' 0 12 else s.z) + 1 ∧
      (p ≠ .reg .a → p ≠ .reg .z → PlaceHolds s t p s.a) ∧
      KeepsPlacesBut (fun x => x = .reg .a ∨ x = .reg .z ∨ x = p) s t ∧ KeepsRest s t ∧ t.pending = s.pending)

/-- R184, R185, R186: XCH, LXCH and QXCH exchange A, L or Q with the word. -/
def Obligations.ExchangesSwap : Prop :=
  ∀ (s : State) (ke : Addr10),
    (∃ t, exec (.xch ke) s = .next t ∧ Exchanged s t .a (ke.setWidth 12)) ∧
    (∃ t, exec (.lxch ke) s = .next t ∧ Exchanged s t .l (ke.setWidth 12)) ∧
    (∃ t, exec (.qxch ke) s = .next t ∧ Exchanged s t .q (ke.setWidth 12))

/-- R187, R188: DCA and DCS load L from K + 1 and then A from K, complemented by DCS. -/
def Obligations.PairLoadsLoadLThenA : Prop :=
  ∀ (s : State) (k : Addr12),
    (∃ t u, exec (.dca k) s = .next t ∧ Loaded s u .l (s.read (k + 1)) (k + 1) ∧ Loaded u t .a (u.read k) k) ∧
    (∃ t u, exec (.dcs k) s = .next t ∧ Loaded s u .l (~~~s.read (k + 1)) (k + 1) ∧ Loaded u t .a (~~~u.read k) k)

/-- R189: DXCH exchanges L with K + 1 and then A with K. -/
def Obligations.DxchSwapsThePair : Prop :=
  ∀ (s : State) (k : Addr12), ∃ t u,
    exec (.dxch k) s = .next t ∧ Exchanged s u .l (k + 1) ∧ Exchanged u t .a k

/-- R189's corner cases: DTCF jumps to L's address in the fixed bank of A and leaves the return Z in L and the old FB in
A; DTCB jumps to A's address with both banks from L and leaves the old BB in L and the return Z in A. -/
def Obligations.BankSwitchingJumps : Prop :=
  ∀ s : State,
    (∃ t, exec (.dxch 4) s = .next t ∧ t.z = s.l.extractLsb' 0 12 ∧ t.fb = (ovc s.a).extractLsb' 10 5 ∧
      t.l.toNat = s.z.toNat ∧ t.a = sext16 (s.fb ++ 0#10) ∧ t.eb = s.eb ∧ t.q = s.q ∧
      (∀ a, t.erasableWord a = s.erasableWord a)) ∧
    (∃ t, exec (.dxch 5) s = .next t ∧ t.z = s.a.extractLsb' 0 12 ∧ t.fb = (ovc s.l).extractLsb' 10 5 ∧
      t.eb = s.l.extractLsb' 0 3 ∧ t.l = sext16 (s.fb ++ (0#7 ++ s.eb)) ∧ t.a.toNat = s.z.toNat ∧ t.q = s.q ∧
      (∀ a, t.erasableWord a = s.erasableWord a))

/-! ## Instructions: control -/

/-- R210, R211, R213, R214: the four jumps; only TC writes Q, and not for TC Q. -/
def Obligations.JumpsSetZ : Prop :=
  ∀ (s : State) (k : Addr12),
    (∃ t, exec (.tc k) s = .next t ∧ t.z = k ∧ (k ≠ 2 → t.q.toNat = s.z.toNat) ∧ (k = 2 → t.q = s.q) ∧
      OnlyRegs (fun x => x = .z ∨ x = .q) s t) ∧
    (∃ t, exec (.tcf k) s = .next t ∧ t.z = k ∧ OnlyRegs (fun x => x = .z) s t) ∧
    (∃ t, exec (.bzf k) s = .next t ∧ t.z = (if val16 s.a = 0 then k else s.z) ∧
      OnlyRegs (fun x => x = .z) s t) ∧
    (∃ t, exec (.bzmf k) s = .next t ∧ t.z = (if s.a = 0 ∨ 0o100000 ≤ s.a.toNat then k else s.z) ∧
      OnlyRegs (fun x => x = .z) s t)

/-- R212: CCS leaves in A the magnitude less one (a zero's is +0) and skips 0, 1, 2 or 3 words for a positive word, +0,
a negative word and -0. -/
def Obligations.CcsCountsAndSkips : Prop :=
  ∀ (s : State) (ke : Addr10) (v : Word16), v = s.read (ke.setWidth 12) →
    ∃ t, exec (.ccs ke) s = .next t ∧ t.a.toNat = (val16 v).natAbs - 1 ∧
      t.z.toNat = (s.z.toNat +
        (if v = 0 then 1 else if v = 0o177777 then 3 else if 0 < val16 v then 0 else 2)) % 0o10000 ∧
      KeepsRegsBut (fun x => x = .a ∨ x = .z) s t ∧ ReeditedOnly s t (ke.setWidth 12) ∧ KeepsRest s t ∧
      t.pending = s.pending

/-- R220, R221: INDEX leaves its operand as the pending index; the extended form sets `ext` too. -/
def Obligations.IndexHoldsItsOperand : Prop :=
  ∀ (s : State) (ke : Addr10) (k : Addr12),
    (∃ t, exec (.index ke) s = .next t ∧ t.idx = some (s.read (ke.setWidth 12)) ∧ t.ext = s.ext ∧
      t.resumeWord = s.resumeWord ∧ t.inhint = s.inhint ∧ t.isr = s.isr ∧ t.pending = s.pending ∧
      KeepsRegsBut (fun _ => False) s t ∧ ReeditedOnly s t (ke.setWidth 12) ∧ KeepsChannels s t ∧ KeepsRecord s t) ∧
    (∃ t, exec (.indexExt k) s = .next t ∧ t.idx = some (s.read k) ∧ t.ext = true ∧
      t.resumeWord = s.resumeWord ∧ t.inhint = s.inhint ∧ t.isr = s.isr ∧ t.pending = s.pending ∧
      KeepsRegsBut (fun _ => False) s t ∧ ReeditedOnly s t k ∧ KeepsChannels s t ∧ KeepsRecord s t)

/-! ## Instructions: channels -/

/-- R241, R247: what each channel reads as. That a draw of the scaler and of a channel with no function is a constant's
value at the number of the step is the model's choice (log 8). -/
def Obligations.ChannelReads : Prop :=
  ∀ (s : State) (c : Chan9),
    (c = 1 → s.chanRead c = s.l) ∧ (c = 2 → s.chanRead c = s.q) ∧
    (c = 3 ∨ c = 4 → s.chanRead c = sext16 (Config.scaler s.steps c)) ∧
    (c.toNat ∈ [0o15, 0o16, 0o30, 0o31, 0o32, 0o33] → s.chanRead c = sext16 (s.latch c.toNat)) ∧
    (c.toNat ∈ [0o5, 0o6, 0o7, 0o10, 0o11, 0o12, 0o13, 0o14, 0o34, 0o35, 0o77] →
      s.chanRead c = sext16 (s.latch c.toNat)) ∧
    (c.toNat ∉ [0o1, 0o2, 0o3, 0o4, 0o5, 0o6, 0o7, 0o10, 0o11, 0o12, 0o13, 0o14, 0o15, 0o16, 0o30, 0o31, 0o32,
      0o33, 0o34, 0o35, 0o77] → s.chanRead c = sext16 (Config.unassignedChannelRead s.steps c))

/-- R250, R252, R254, R256: READ, RAND, ROR and RXOR leave their result in A and change nothing else. -/
def Obligations.ChannelReadsWriteA : Prop :=
  ∀ (s : State) (c : Chan9),
    (∃ t, exec (.read c) s = .next t ∧ t.a = s.chanRead c ∧ OnlyRegs (fun x => x = .a) s t) ∧
    (∃ t, exec (.rand c) s = .next t ∧ t.a = s.a &&& s.chanRead c ∧ OnlyRegs (fun x => x = .a) s t) ∧
    (∃ t, exec (.ror c) s = .next t ∧ t.a = s.a ||| s.chanRead c ∧ OnlyRegs (fun x => x = .a) s t) ∧
    (∃ t, exec (.rxor c) s = .next t ∧ t.a = s.a ^^^ s.chanRead c ∧ OnlyRegs (fun x => x = .a) s t)

/-- R242, R243, R247: a channel write reaches L, Q, a latch or nothing, by channel; an output channel also emits its event,
with the value its latch then holds; and no register but L and Q, no memory word, no flag and no request changes. That 07
and 077, which have lines of their own in R242, emit too is the model's reading of R243 and D22 (log 11). -/
def Obligations.ChannelWrites : Prop :=
  ∀ (s : State) (c : Chan9) (v : Word16), ∃ t, s.chanWrite c v = t ∧
    t.l = (if c = 1 then (if s.params.lIs16bit then v else sext16 (ovc v)) else s.l) ∧
    t.q = (if c = 2 then v else s.q) ∧
    (∀ d, d ≠ c.toNat → t.latch d = s.latch d) ∧
    (c.toNat ∈ [0o1, 0o2, 0o3, 0o4, 0o15, 0o16, 0o30, 0o31, 0o32, 0o33] → t.latch c.toNat = s.latch c.toNat) ∧
    (c = 7 → t.latch 7 = ovc v &&& 0o160) ∧ (c = 0o77 → t.latch 0o77 = 0) ∧
    (c.toNat ∉ [0o1, 0o2, 0o3, 0o4, 0o7, 0o15, 0o16, 0o30, 0o31, 0o32, 0o33, 0o77] → t.latch c.toNat = ovc v) ∧
    t.history = s.history ++ (if c.toNat ∈ [0o5, 0o6, 0o10, 0o11, 0o12, 0o13, 0o14, 0o34, 0o35]
      then [⟨s.steps + 1, c, ovc v⟩] else if c = 7 then [⟨s.steps + 1, c, ovc v &&& 0o160⟩]
      else if c = 0o77 then [⟨s.steps + 1, c, 0⟩] else []) ∧
    t.a = s.a ∧ t.eb = s.eb ∧ t.fb = s.fb ∧ t.z = s.z ∧ (∀ a, t.erasableWord a = s.erasableWord a) ∧
    (∀ o, t.behindWord o = s.behindWord o) ∧ KeepsSequencer s t ∧ t.pending = s.pending ∧ KeepsRecord s t

/-- R251, R253, R255: WRITE sends A to the channel; WAND and WOR combine A with the channel first, in A and in the
channel both. -/
def Obligations.ChannelWritesSendA : Prop :=
  ∀ (s : State) (c : Chan9),
    (∃ t, exec (.write c) s = .next t ∧ t.a = s.a ∧ t = s.chanWrite c s.a) ∧
    (∃ t, exec (.wand c) s = .next t ∧ t.a = s.a &&& s.chanRead c ∧
      t = State.chanWrite { s with a := s.a &&& s.chanRead c } c (s.a &&& s.chanRead c)) ∧
    (∃ t, exec (.wor c) s = .next t ∧ t.a = s.a ||| s.chanRead c ∧
      t = State.chanWrite { s with a := s.a ||| s.chanRead c } c (s.a ||| s.chanRead c))

/-- R243, R341: a step appends at most one event, tagged with its own number; the history is never rewritten, and only
WRITE, WAND and WOR append. -/
def Obligations.HistoryOnlyGrows : Prop :=
  ∀ s t : State, step s = .next t → t.history = s.history ∨
    ∃ c v, t.history = s.history ++ [⟨s.steps + 1, c, v⟩] ∧
      (s.nextInstr = .write c ∨ s.nextInstr = .wand c ∨ s.nextInstr = .wor c)
end

