-- ==== Sys2Proof/Laws/Bits.lean ====
section
/-! SUPPORT. The conversions, the adder and the overflow tests as arithmetic on natural numbers, and their laws. -/

namespace Sys2Proof.Machine

theorem testBit_top {n w : Nat} (h : n < 2 ^ (w + 1)) : n.testBit w = decide (2 ^ w ≤ n) := by
  rw [Nat.testBit_eq_decide_div_mod_eq]
  have h2 : n / 2 ^ w < 2 := by
    rw [Nat.div_lt_iff_lt_mul (Nat.two_pow_pos w)]
    rw [Nat.pow_succ] at h
    omega
  have h3 : 1 ≤ n / 2 ^ w ↔ 1 * 2 ^ w ≤ n := Nat.le_div_iff_mul_le (Nat.two_pow_pos w)
  rw [Nat.one_mul] at h3
  apply Bool.eq_iff_iff.mpr
  simp only [decide_eq_true_eq, ← h3]
  generalize n / 2 ^ w = q at h2
  omega

theorem sign15_iff (w : Word15) : sign15 w = true ↔ 16384 ≤ w.toNat := by
  have h := w.isLt
  rw [sign15, BitVec.getLsbD, testBit_top (by simpa using h)]
  simp

theorem sign16_iff (a : Word16) : sign16 a = true ↔ 32768 ≤ a.toNat := by
  have h := a.isLt
  rw [sign16, BitVec.getLsbD, testBit_top (by simpa using h)]
  simp

theorem bit15_iff (a : Word16) : a.getLsbD 14 = true ↔ 16384 ≤ a.toNat % 32768 := by
  have h : a.getLsbD 14 = (a.toNat % 2 ^ 15).testBit 14 := by
    rw [BitVec.getLsbD, Nat.testBit_mod_two_pow]
    simp
  rw [h, testBit_top (Nat.mod_lt _ (Nat.two_pow_pos 15))]
  simp

theorem bit16_iff (a : Word16) : a.getLsbD 15 = true ↔ 32768 ≤ a.toNat := sign16_iff a

theorem sext16_toNat (w : Word15) :
    (sext16 w).toNat = if 16384 ≤ w.toNat then w.toNat + 32768 else w.toNat := by
  have h := w.isLt
  simp only [sext16, BitVec.toNat_append, BitVec.extractLsb'_toNat]
  rw [← Nat.shiftLeft_add_eq_or_of_lt h]
  simp only [Nat.shiftLeft_eq, Nat.shiftRight_eq_div_pow]
  split <;> omega

theorem ovc_toNat (a : Word16) :
    (ovc a).toNat = if 32768 ≤ a.toNat then a.toNat % 16384 + 16384 else a.toNat % 16384 := by
  have h := a.isLt
  have h2 : a.toNat % 2 ^ 14 < 2 ^ 14 := Nat.mod_lt _ (by decide)
  simp only [ovc, BitVec.toNat_append, BitVec.extractLsb'_toNat, Nat.shiftRight_zero]
  rw [← Nat.shiftLeft_add_eq_or_of_lt h2]
  simp only [Nat.shiftLeft_eq, Nat.shiftRight_eq_div_pow]
  split <;> omega

theorem low15_toNat (a : Word16) : (low15 a).toNat = a.toNat % 32768 := by
  simp [low15, BitVec.extractLsb'_toNat]

theorem low12_toNat (a : Word16) : (low12 a).toNat = a.toNat % 4096 := by
  simp [low12, BitVec.extractLsb'_toNat]

theorem neg15_toNat (w : Word15) : (neg15 w).toNat = 32767 - w.toNat := by
  simp [neg15, BitVec.toNat_not]

theorem neg16_toNat (a : Word16) : (neg16 a).toNat = 65535 - a.toNat := by
  simp [neg16, BitVec.toNat_not]

theorem add16_toNat (a b : Word16) : (add16 a b).toNat =
    if 65536 ≤ a.toNat + b.toNat then a.toNat + b.toNat - 65535 else a.toNat + b.toNat := by
  have ha := a.isLt
  have hb := b.isLt
  unfold add16
  split <;> rw [BitVec.toNat_ofNat] <;> omega

theorem ovf_iff (a : Word16) : ovf a = true ↔ 16384 ≤ a.toNat ∧ a.toNat < 49152 := by
  have h := a.isLt
  have h15 := bit15_iff a
  have h16 := bit16_iff a
  rw [ovf, bne_iff_ne, ne_eq, Bool.eq_iff_iff, h15, h16]
  omega

theorem posOvf_iff (a : Word16) : posOvf a = true ↔ 16384 ≤ a.toNat ∧ a.toNat < 32768 := by
  have h := a.isLt
  rw [posOvf, Bool.and_eq_true, Bool.not_eq_true', Bool.eq_false_iff, ne_eq, bit15_iff, bit16_iff]
  omega

theorem negOvf_iff (a : Word16) : negOvf a = true ↔ 32768 ≤ a.toNat ∧ a.toNat < 49152 := by
  have h := a.isLt
  rw [negOvf, Bool.and_eq_true, Bool.not_eq_true', Bool.eq_false_iff, ne_eq, bit15_iff, bit16_iff]
  omega

/-- An overflow is positive or negative, never both. -/
theorem ovf_eq (a : Word16) : ovf a = (posOvf a || negOvf a) := by
  rw [Bool.eq_iff_iff, Bool.or_eq_true, ovf_iff, posOvf_iff, negOvf_iff]
  omega

theorem val15_toNat (w : Word15) :
    val15 w = if 16384 ≤ w.toNat then (w.toNat : Int) - 32767 else (w.toNat : Int) := by
  have h := w.isLt
  unfold val15
  by_cases hs : 16384 ≤ w.toNat
  · rw [if_pos ((sign15_iff w).mpr hs), if_pos hs, neg15_toNat]
    omega
  · rw [if_neg (by rw [sign15_iff]; exact hs), if_neg hs]

theorem val16_toNat (a : Word16) :
    val16 a = if 32768 ≤ a.toNat then (a.toNat : Int) - 65535 else (a.toNat : Int) := by
  have h := a.isLt
  unfold val16
  by_cases hs : 32768 ≤ a.toNat
  · rw [if_pos ((sign16_iff a).mpr hs), if_pos hs, low15_toNat, neg16_toNat]
    omega
  · rw [if_neg (by rw [sign16_iff]; exact hs), if_neg hs, low15_toNat]
    omega

/-- A sign-extended word keeps its 15 bits (R12). -/
@[simp] theorem ovc_sext16 (w : Word15) : ovc (sext16 w) = w := by
  apply BitVec.eq_of_toNat_eq
  have h := w.isLt
  rw [ovc_toNat, sext16_toNat]
  split <;> split <;> omega

/-- R12: `sext16(ovc(a)) = a` when a holds no overflow. -/
theorem sext16_ovc {a : Word16} (h : ovf a = false) : sext16 (ovc a) = a := by
  apply BitVec.eq_of_toNat_eq
  have ha := a.isLt
  have h' : ¬(16384 ≤ a.toNat ∧ a.toNat < 49152) := by
    rw [← ovf_iff, h]
    exact Bool.false_ne_true
  rw [sext16_toNat, ovc_toNat]
  split <;> split <;> omega

/-- A sign-extended word holds no overflow. -/
@[simp] theorem ovf_sext16 (w : Word15) : ovf (sext16 w) = false := by
  have h := w.isLt
  rw [Bool.eq_false_iff, ne_eq, ovf_iff, sext16_toNat]
  split <;> omega

@[simp] theorem val16_sext16 (w : Word15) : val16 (sext16 w) = val15 w := by
  have h := w.isLt
  rw [val16_toNat, val15_toNat, sext16_toNat]
  split <;> split <;> omega

end Sys2Proof.Machine
end

