-- ==== Sys2Proof/Laws/Decode.lean ====
section
/-! SUPPORT. The fields of a word and the words of the three formats, as arithmetic; what the masks of the opcode table
keep of them. -/

namespace Sys2Proof

theorem fieldOp_eq (w : Word15) : fieldOp w = w.toNat / 4096 := by
  have h := w.isLt
  simp only [fieldOp, BitVec.extractLsb'_toNat, Nat.shiftRight_eq_div_pow]
  omega

theorem fieldQc_eq (w : Word15) : fieldQc w = w.toNat / 1024 % 4 := by
  simp [fieldQc, BitVec.extractLsb'_toNat, Nat.shiftRight_eq_div_pow]

theorem fieldPc_eq (w : Word15) : fieldPc w = w.toNat / 512 % 8 := by
  simp [fieldPc, BitVec.extractLsb'_toNat, Nat.shiftRight_eq_div_pow]

theorem fieldK_toNat (w : Word15) : (fieldK w).toNat = w.toNat % 4096 := by
  simp [fieldK, BitVec.extractLsb'_toNat]

theorem fieldKe_toNat (w : Word15) : (fieldKe w).toNat = w.toNat % 1024 := by
  simp [fieldKe, BitVec.extractLsb'_toNat]

theorem fieldKc_toNat (w : Word15) : (fieldKc w).toNat = w.toNat % 512 := by
  simp [fieldKc, BitVec.extractLsb'_toNat]

theorem formatB_toNat (op : BitVec 3) (k : Addr12) : (formatB op k).toNat = op.toNat * 4096 + k.toNat := by
  have h := k.isLt
  simp only [formatB, BitVec.toNat_append]
  rw [← Nat.shiftLeft_add_eq_or_of_lt h, Nat.shiftLeft_eq]

theorem formatQC_toNat (op : BitVec 3) (qc : BitVec 2) (ke : Addr10) :
    (formatQC op qc ke).toNat = op.toNat * 4096 + qc.toNat * 1024 + ke.toNat := by
  have h := ke.isLt
  have h2 := (qc ++ ke).isLt
  simp only [formatQC, BitVec.toNat_append] at *
  rw [← Nat.shiftLeft_add_eq_or_of_lt h] at *
  rw [← Nat.shiftLeft_add_eq_or_of_lt h2]
  simp only [Nat.shiftLeft_eq]
  omega

theorem formatIO_toNat (pc : BitVec 3) (kc : Chan9) : (formatIO pc kc).toNat = pc.toNat * 512 + kc.toNat := by
  have h := kc.isLt
  have h2 := (pc ++ kc).isLt
  simp only [formatIO, BitVec.toNat_append] at *
  rw [← Nat.shiftLeft_add_eq_or_of_lt h] at *
  rw [← Nat.shiftLeft_add_eq_or_of_lt h2]
  simp only [Nat.shiftLeft_eq]
  simp

theorem fields_formatB (op : BitVec 3) (k : Addr12) :
    fieldOp (formatB op k) = op.toNat ∧ fieldK (formatB op k) = k ∧ fieldQc (formatB op k) = k.toNat / 1024 := by
  have h := k.isLt
  have h2 := op.isLt
  refine ⟨?_, BitVec.eq_of_toNat_eq ?_, ?_⟩
  · rw [fieldOp_eq, formatB_toNat]
    omega
  · rw [fieldK_toNat, formatB_toNat]
    omega
  · rw [fieldQc_eq, formatB_toNat]
    omega

theorem fields_formatQC (op : BitVec 3) (qc : BitVec 2) (ke : Addr10) :
    fieldOp (formatQC op qc ke) = op.toNat ∧ fieldKe (formatQC op qc ke) = ke ∧
      fieldQc (formatQC op qc ke) = qc.toNat := by
  have h := ke.isLt
  have h2 := op.isLt
  have h3 := qc.isLt
  refine ⟨?_, BitVec.eq_of_toNat_eq ?_, ?_⟩
  · rw [fieldOp_eq, formatQC_toNat]
    omega
  · rw [fieldKe_toNat, formatQC_toNat]
    omega
  · rw [fieldQc_eq, formatQC_toNat]
    omega

theorem fields_formatIO (pc : BitVec 3) (kc : Chan9) :
    fieldOp (formatIO pc kc) = 0 ∧ fieldKc (formatIO pc kc) = kc ∧ fieldPc (formatIO pc kc) = pc.toNat := by
  have h := kc.isLt
  have h3 := pc.isLt
  refine ⟨?_, BitVec.eq_of_toNat_eq ?_, ?_⟩
  · rw [fieldOp_eq, formatIO_toNat]
    omega
  · rw [fieldKc_toNat, formatIO_toNat]
    omega
  · rw [fieldPc_eq, formatIO_toNat]
    omega

/-- Outside the four special words the basic table goes by OP and QC. -/
theorem decodeBasic_ordinary {w : Word15} (h3 : w.toNat ≠ 0o000003) (h4 : w.toNat ≠ 0o000004)
    (h6 : w.toNat ≠ 0o000006) (hr : w.toNat ≠ 0o050017) : decodeBasic w = decodeOrdinary w := by
  have ne : ∀ v : Word15, w.toNat ≠ v.toNat → w ≠ v := fun v h e => h (by rw [e])
  rw [decodeBasic, if_neg (ne 3 h3), if_neg (ne 4 h4), if_neg (ne 6 h6), if_neg (ne 0o050017 hr)]

theorem formatB_and (op : BitVec 3) (k : Addr12) : formatB op k &&& 0o070000 = formatB op 0 := by
  apply BitVec.eq_of_getLsbD_eq
  intro i hi
  simp only [formatB, BitVec.getLsbD_and, BitVec.getLsbD_append]
  interval_cases i <;> simp

theorem formatQC_and (op : BitVec 3) (qc : BitVec 2) (ke : Addr10) :
    formatQC op qc ke &&& 0o076000 = formatQC op qc 0 := by
  apply BitVec.eq_of_getLsbD_eq
  intro i hi
  simp only [formatQC, BitVec.getLsbD_and, BitVec.getLsbD_append]
  interval_cases i <;> simp

theorem formatIO_and (pc : BitVec 3) (kc : Chan9) : formatIO pc kc &&& 0o077000 = formatIO pc 0 := by
  apply BitVec.eq_of_getLsbD_eq
  intro i hi
  simp only [formatIO, BitVec.getLsbD_and, BitVec.getLsbD_append]
  interval_cases i <;> simp

/-- A fixed target keeps the format's QC bits from being 00. -/
theorem formatB_and_qc (op : BitVec 3) (k : Addr12) :
    formatB op k &&& 0o076000 = formatQC op (k.extractLsb' 10 2) 0 := by
  apply BitVec.eq_of_getLsbD_eq
  intro i hi
  simp only [formatB, formatQC, BitVec.getLsbD_and, BitVec.getLsbD_append, BitVec.getLsbD_extractLsb']
  interval_cases i <;> simp

theorem word_and_all (w : Word15) : w &&& 0o077777 = w := by
  apply BitVec.eq_of_getLsbD_eq
  intro i hi
  simp only [BitVec.getLsbD_and]
  interval_cases i <;> simp

theorem admits_of {r : OpRow} {e : Bool} {w : Word15} (he : r.ext = e) (hm : w &&& r.mask = r.mtch)
    (hx : ∀ p ∈ r.exclude, w &&& p.2 ≠ p.1) : r.admits e w = true := by
  simp only [OpRow.admits, Bool.and_eq_true, beq_iff_eq, List.all_eq_true, Bool.not_eq_true', beq_eq_false_iff_ne]
  exact ⟨⟨he, hm⟩, hx⟩

/-- A row without exclusions admits the words its mask and match say. -/
theorem admits_plain {r : OpRow} {e : Bool} {w : Word15} (hx : r.exclude = []) (he : r.ext = e)
    (hm : w &&& r.mask = r.mtch) : r.admits e w = true :=
  admits_of he hm (by simp [hx])

end Sys2Proof
end

