-- ==== Sys2Proof/Laws/Memory.lean ====
section
/-! SUPPORT. The memory form: read after write, and that every operation keeps it canonical. -/

namespace Sys2Proof.Machine

theorem find_put_same (m : Memory) (a : Nat) (v : Word15) : Memory.find (Memory.put m a v) a = some v := by
  induction m with
  | nil => simp [Memory.put, Memory.find]
  | cons p rest ih =>
    obtain ⟨b, w⟩ := p
    simp only [Memory.put]
    split
    · simp [Memory.find]
    · split
      · simp [Memory.find]
      · simp [Memory.find, *]

theorem find_put_other (m : Memory) {a c : Nat} (v : Word15) (h : c ≠ a) :
    Memory.find (Memory.put m a v) c = Memory.find m c := by
  induction m with
  | nil => simp [Memory.put, Memory.find, h]
  | cons p rest ih =>
    obtain ⟨b, w⟩ := p
    simp only [Memory.put]
    split
    · simp [Memory.find, h]
    · split
      · rename_i h1 h2
        subst h2
        simp [Memory.find, h]
      · simp [Memory.find, ih]

theorem find_put (m : Memory) (a c : Nat) (v : Word15) :
    Memory.find (Memory.put m a v) c = if c = a then some v else Memory.find m c := by
  by_cases h : c = a
  · subst h; simp [find_put_same]
  · simp [find_put_other, h]

theorem find_drop_other (m : Memory) {a c : Nat} (h : c ≠ a) :
    Memory.find (Memory.drop m a) c = Memory.find m c := by
  induction m with
  | nil => simp [Memory.drop]
  | cons p rest ih =>
    obtain ⟨b, w⟩ := p
    simp only [Memory.drop]
    split
    · rename_i h1
      subst h1
      simp [Memory.find, h, ih]
    · simp [Memory.find, ih]

theorem ordered_weaken {lo lo' hi : Nat} {m : Memory} (hl : lo' ≤ lo) (h : Memory.ordered lo hi m = true) :
    Memory.ordered lo' hi m = true := by
  cases m with
  | nil => rfl
  | cons p rest =>
    simp only [Memory.ordered, Bool.and_eq_true, decide_eq_true_eq] at h ⊢
    exact ⟨⟨by omega, h.1.2⟩, h.2⟩

theorem ordered_put {lo hi : Nat} {m : Memory} {a : Nat} (v : Word15) (hl : lo ≤ a) (hh : a < hi)
    (h : Memory.ordered lo hi m = true) : Memory.ordered lo hi (Memory.put m a v) = true := by
  induction m generalizing lo with
  | nil => simp [Memory.put, Memory.ordered, hl, hh]
  | cons p rest ih =>
    obtain ⟨b, w⟩ := p
    simp only [Memory.ordered, Bool.and_eq_true, decide_eq_true_eq] at h
    simp only [Memory.put]
    split
    · simp only [Memory.ordered, Bool.and_eq_true, decide_eq_true_eq]
      exact ⟨⟨hl, hh⟩, ⟨by omega, h.1.2⟩, h.2⟩
    · split
      · rename_i h1 h2
        subst h2
        simp only [Memory.ordered, Bool.and_eq_true, decide_eq_true_eq]
        exact ⟨⟨hl, hh⟩, h.2⟩
      · simp only [Memory.ordered, Bool.and_eq_true, decide_eq_true_eq]
        exact ⟨⟨h.1.1, h.1.2⟩, ih (by omega) h.2⟩

theorem ordered_drop {lo hi : Nat} {m : Memory} (a : Nat)
    (h : Memory.ordered lo hi m = true) : Memory.ordered lo hi (Memory.drop m a) = true := by
  induction m generalizing lo with
  | nil => exact h
  | cons p rest ih =>
    obtain ⟨b, w⟩ := p
    simp only [Memory.ordered, Bool.and_eq_true, decide_eq_true_eq] at h
    simp only [Memory.drop]
    split
    · exact ordered_weaken (by omega) (ih h.2)
    · simp only [Memory.ordered, Bool.and_eq_true, decide_eq_true_eq]
      exact ⟨h.1, ih h.2⟩

/-- A put keeps the canonical form. -/
theorem wf_put {size : Nat} {m : Memory} {a : Nat} (v : Word15) (ha : a < size)
    (h : Memory.wf size m = true) : Memory.wf size (Memory.put m a v) = true :=
  ordered_put v (Nat.zero_le a) ha h

/-- A drop keeps the canonical form. -/
theorem wf_drop {size : Nat} {m : Memory} (a : Nat) (h : Memory.wf size m = true) :
    Memory.wf size (Memory.drop m a) = true :=
  ordered_drop a h

theorem find_of_below {lo hi a : Nat} {m : Memory} (ha : a < lo) (h : Memory.ordered lo hi m = true) :
    Memory.find m a = none := by
  induction m generalizing lo with
  | nil => rfl
  | cons p rest ih =>
    obtain ⟨b, w⟩ := p
    simp only [Memory.ordered, Bool.and_eq_true, decide_eq_true_eq] at h
    have : a ≠ b := by omega
    simp [Memory.find, this, ih (lo := b + 1) (by omega) h.2]

theorem find_drop_same (m : Memory) (a : Nat) : Memory.find (Memory.drop m a) a = none := by
  induction m with
  | nil => rfl
  | cons p rest ih =>
    obtain ⟨b, w⟩ := p
    simp only [Memory.drop]
    split
    · exact ih
    · simp [Memory.find, *]

theorem find_drop (m : Memory) (a c : Nat) :
    Memory.find (Memory.drop m a) c = if c = a then none else Memory.find m c := by
  by_cases h : c = a
  · subst h; simp [find_drop_same]
  · simp [find_drop_other, h]

theorem noneIdle_put {idle : Nat → Word15} {m : Memory} {a : Nat} {v : Word15} (hv : v ≠ idle a)
    (h : Memory.noneIdle idle m = true) : Memory.noneIdle idle (Memory.put m a v) = true := by
  induction m with
  | nil => simpa [Memory.put, Memory.noneIdle] using hv
  | cons p rest ih =>
    obtain ⟨b, w⟩ := p
    simp only [Memory.noneIdle, List.all_cons, Bool.and_eq_true] at h ih ⊢
    simp only [Memory.put]
    split
    · simp only [List.all_cons, Bool.and_eq_true]
      exact ⟨by simpa using hv, h.1, h.2⟩
    · split
      · simp only [List.all_cons, Bool.and_eq_true]
        exact ⟨by simpa using hv, h.2⟩
      · simp only [List.all_cons, Bool.and_eq_true]
        exact ⟨h.1, ih h.2⟩

theorem noneIdle_drop {idle : Nat → Word15} {m : Memory} (a : Nat)
    (h : Memory.noneIdle idle m = true) : Memory.noneIdle idle (Memory.drop m a) = true := by
  induction m with
  | nil => exact h
  | cons p rest ih =>
    obtain ⟨b, w⟩ := p
    simp only [Memory.noneIdle, List.all_cons, Bool.and_eq_true] at h ih ⊢
    simp only [Memory.drop]
    split
    · exact ih h.2
    · simp only [List.all_cons, Bool.and_eq_true]
      exact ⟨h.1, ih h.2⟩

/-- Equal contents are equal data: two canonical memories that list the same words are the same list. -/
theorem ordered_ext {lo hi : Nat} {m n : Memory} (hm : Memory.ordered lo hi m = true)
    (hn : Memory.ordered lo hi n = true) (h : ∀ a, Memory.find m a = Memory.find n a) : m = n := by
  induction m generalizing lo n with
  | nil =>
    cases n with
    | nil => rfl
    | cons p rest => simpa [Memory.find] using h p.1
  | cons p rest ih =>
    obtain ⟨b, w⟩ := p
    cases n with
    | nil => simpa [Memory.find] using h b
    | cons p' rest' =>
      obtain ⟨c, x⟩ := p'
      simp only [Memory.ordered, Bool.and_eq_true, decide_eq_true_eq] at hm hn
      have hbc : b = c := by
        rcases Nat.lt_trichotomy b c with hlt | heq | hgt
        · have hb := h b
          rw [find_of_below (lo := c) (hi := hi) (m := (c, x) :: rest') hlt
            (by simp [Memory.ordered, hn.1.2, hn.2])] at hb
          simp [Memory.find] at hb
        · exact heq
        · have hc := h c
          rw [find_of_below (lo := b) (hi := hi) (m := (b, w) :: rest) hgt
            (by simp [Memory.ordered, hm.1.2, hm.2])] at hc
          simp [Memory.find] at hc
      subst hbc
      have hwx : w = x := by simpa [Memory.find] using h b
      subst hwx
      have hrest : rest = rest' := by
        refine ih hm.2 hn.2 fun a => ?_
        by_cases ha : a = b
        · subst ha
          rw [find_of_below (lo := a + 1) (by omega) hm.2, find_of_below (lo := a + 1) (by omega) hn.2]
        · simpa [Memory.find, ha] using h a
      rw [hrest]

end Sys2Proof.Machine
end

