-- ==== Sys2Proof/Laws/State.lean ====
section
/-! SUPPORT. What each setter does to each field of the state. -/

namespace Sys2Proof.Machine

variable (s : State)

@[simp] theorem setA_fields (v : Word16) :
    (s.setA v).a = v ∧ (s.setA v).l = s.l ∧ (s.setA v).q = s.q ∧ (s.setA v).eb = s.eb ∧ (s.setA v).fb = s.fb ∧
    (s.setA v).z = s.z ∧ (s.setA v).erasable = s.erasable ∧ (s.setA v).behind = s.behind ∧
    (s.setA v).fixed = s.fixed ∧ (s.setA v).chan = s.chan ∧ (s.setA v).ext = s.ext ∧ (s.setA v).idx = s.idx ∧
    (s.setA v).resumeWord = s.resumeWord ∧ (s.setA v).inhint = s.inhint ∧ (s.setA v).isr = s.isr ∧
    (s.setA v).pending = s.pending ∧ (s.setA v).history = s.history ∧ (s.setA v).steps = s.steps ∧
    (s.setA v).lastSelfJump = s.lastSelfJump ∧ (s.setA v).params = s.params ∧
    (s.setA v).boundaries = s.boundaries :=
  ⟨rfl, rfl, rfl, rfl, rfl, rfl, rfl, rfl, rfl, rfl, rfl, rfl, rfl, rfl, rfl, rfl, rfl, rfl, rfl, rfl, rfl⟩

@[simp] theorem setL_fields (v : Word16) :
    (s.setL v).a = s.a ∧ (s.setL v).l = v ∧ (s.setL v).q = s.q ∧ (s.setL v).eb = s.eb ∧ (s.setL v).fb = s.fb ∧
    (s.setL v).z = s.z ∧ (s.setL v).erasable = s.erasable ∧ (s.setL v).behind = s.behind ∧
    (s.setL v).fixed = s.fixed ∧ (s.setL v).chan = s.chan ∧ (s.setL v).ext = s.ext ∧ (s.setL v).idx = s.idx ∧
    (s.setL v).resumeWord = s.resumeWord ∧ (s.setL v).inhint = s.inhint ∧ (s.setL v).isr = s.isr ∧
    (s.setL v).pending = s.pending ∧ (s.setL v).history = s.history ∧ (s.setL v).steps = s.steps ∧
    (s.setL v).lastSelfJump = s.lastSelfJump ∧ (s.setL v).params = s.params ∧
    (s.setL v).boundaries = s.boundaries :=
  ⟨rfl, rfl, rfl, rfl, rfl, rfl, rfl, rfl, rfl, rfl, rfl, rfl, rfl, rfl, rfl, rfl, rfl, rfl, rfl, rfl, rfl⟩

@[simp] theorem setQ_fields (v : Word16) :
    (s.setQ v).a = s.a ∧ (s.setQ v).l = s.l ∧ (s.setQ v).q = v ∧ (s.setQ v).eb = s.eb ∧ (s.setQ v).fb = s.fb ∧
    (s.setQ v).z = s.z ∧ (s.setQ v).erasable = s.erasable ∧ (s.setQ v).behind = s.behind ∧
    (s.setQ v).fixed = s.fixed ∧ (s.setQ v).chan = s.chan ∧ (s.setQ v).ext = s.ext ∧ (s.setQ v).idx = s.idx ∧
    (s.setQ v).resumeWord = s.resumeWord ∧ (s.setQ v).inhint = s.inhint ∧ (s.setQ v).isr = s.isr ∧
    (s.setQ v).pending = s.pending ∧ (s.setQ v).history = s.history ∧ (s.setQ v).steps = s.steps ∧
    (s.setQ v).lastSelfJump = s.lastSelfJump ∧ (s.setQ v).params = s.params ∧
    (s.setQ v).boundaries = s.boundaries :=
  ⟨rfl, rfl, rfl, rfl, rfl, rfl, rfl, rfl, rfl, rfl, rfl, rfl, rfl, rfl, rfl, rfl, rfl, rfl, rfl, rfl, rfl⟩

@[simp] theorem setEb_fields (v : BitVec 3) :
    (s.setEb v).a = s.a ∧ (s.setEb v).l = s.l ∧ (s.setEb v).q = s.q ∧ (s.setEb v).eb = v ∧
    (s.setEb v).fb = s.fb ∧ (s.setEb v).z = s.z ∧ (s.setEb v).erasable = s.erasable ∧
    (s.setEb v).behind = s.behind ∧ (s.setEb v).fixed = s.fixed ∧ (s.setEb v).chan = s.chan ∧
    (s.setEb v).ext = s.ext ∧ (s.setEb v).idx = s.idx ∧ (s.setEb v).resumeWord = s.resumeWord ∧
    (s.setEb v).inhint = s.inhint ∧ (s.setEb v).isr = s.isr ∧ (s.setEb v).pending = s.pending ∧
    (s.setEb v).history = s.history ∧ (s.setEb v).steps = s.steps ∧ (s.setEb v).lastSelfJump = s.lastSelfJump ∧
    (s.setEb v).params = s.params ∧ (s.setEb v).boundaries = s.boundaries :=
  ⟨rfl, rfl, rfl, rfl, rfl, rfl, rfl, rfl, rfl, rfl, rfl, rfl, rfl, rfl, rfl, rfl, rfl, rfl, rfl, rfl, rfl⟩

@[simp] theorem setFb_fields (v : BitVec 5) :
    (s.setFb v).a = s.a ∧ (s.setFb v).l = s.l ∧ (s.setFb v).q = s.q ∧ (s.setFb v).eb = s.eb ∧
    (s.setFb v).fb = v ∧ (s.setFb v).z = s.z ∧ (s.setFb v).erasable = s.erasable ∧
    (s.setFb v).behind = s.behind ∧ (s.setFb v).fixed = s.fixed ∧ (s.setFb v).chan = s.chan ∧
    (s.setFb v).ext = s.ext ∧ (s.setFb v).idx = s.idx ∧ (s.setFb v).resumeWord = s.resumeWord ∧
    (s.setFb v).inhint = s.inhint ∧ (s.setFb v).isr = s.isr ∧ (s.setFb v).pending = s.pending ∧
    (s.setFb v).history = s.history ∧ (s.setFb v).steps = s.steps ∧ (s.setFb v).lastSelfJump = s.lastSelfJump ∧
    (s.setFb v).params = s.params ∧ (s.setFb v).boundaries = s.boundaries :=
  ⟨rfl, rfl, rfl, rfl, rfl, rfl, rfl, rfl, rfl, rfl, rfl, rfl, rfl, rfl, rfl, rfl, rfl, rfl, rfl, rfl, rfl⟩

@[simp] theorem setZ_fields (k : Addr12) :
    (s.setZ k).a = s.a ∧ (s.setZ k).l = s.l ∧ (s.setZ k).q = s.q ∧ (s.setZ k).eb = s.eb ∧
    (s.setZ k).fb = s.fb ∧ (s.setZ k).z = k ∧ (s.setZ k).erasable = s.erasable ∧ (s.setZ k).behind = s.behind ∧
    (s.setZ k).fixed = s.fixed ∧ (s.setZ k).chan = s.chan ∧ (s.setZ k).ext = s.ext ∧ (s.setZ k).idx = s.idx ∧
    (s.setZ k).resumeWord = s.resumeWord ∧ (s.setZ k).inhint = s.inhint ∧ (s.setZ k).isr = s.isr ∧
    (s.setZ k).pending = s.pending ∧ (s.setZ k).history = s.history ∧ (s.setZ k).steps = s.steps ∧
    (s.setZ k).lastSelfJump = s.lastSelfJump ∧ (s.setZ k).params = s.params ∧
    (s.setZ k).boundaries = s.boundaries :=
  ⟨rfl, rfl, rfl, rfl, rfl, rfl, rfl, rfl, rfl, rfl, rfl, rfl, rfl, rfl, rfl, rfl, rfl, rfl, rfl, rfl, rfl⟩

@[simp] theorem setExt_fields (b : Bool) :
    (s.setExt b).a = s.a ∧ (s.setExt b).l = s.l ∧ (s.setExt b).q = s.q ∧ (s.setExt b).eb = s.eb ∧
    (s.setExt b).fb = s.fb ∧ (s.setExt b).z = s.z ∧ (s.setExt b).erasable = s.erasable ∧
    (s.setExt b).behind = s.behind ∧ (s.setExt b).fixed = s.fixed ∧ (s.setExt b).chan = s.chan ∧
    (s.setExt b).ext = b ∧ (s.setExt b).idx = s.idx ∧ (s.setExt b).resumeWord = s.resumeWord ∧
    (s.setExt b).inhint = s.inhint ∧ (s.setExt b).isr = s.isr ∧ (s.setExt b).pending = s.pending ∧
    (s.setExt b).history = s.history ∧ (s.setExt b).steps = s.steps ∧
    (s.setExt b).lastSelfJump = s.lastSelfJump ∧ (s.setExt b).params = s.params ∧
    (s.setExt b).boundaries = s.boundaries :=
  ⟨rfl, rfl, rfl, rfl, rfl, rfl, rfl, rfl, rfl, rfl, rfl, rfl, rfl, rfl, rfl, rfl, rfl, rfl, rfl, rfl, rfl⟩

@[simp] theorem setIdx_fields (x : Option Word16) :
    (s.setIdx x).a = s.a ∧ (s.setIdx x).l = s.l ∧ (s.setIdx x).q = s.q ∧ (s.setIdx x).eb = s.eb ∧
    (s.setIdx x).fb = s.fb ∧ (s.setIdx x).z = s.z ∧ (s.setIdx x).erasable = s.erasable ∧
    (s.setIdx x).behind = s.behind ∧ (s.setIdx x).fixed = s.fixed ∧ (s.setIdx x).chan = s.chan ∧
    (s.setIdx x).ext = s.ext ∧ (s.setIdx x).idx = x ∧ (s.setIdx x).resumeWord = s.resumeWord ∧
    (s.setIdx x).inhint = s.inhint ∧ (s.setIdx x).isr = s.isr ∧ (s.setIdx x).pending = s.pending ∧
    (s.setIdx x).history = s.history ∧ (s.setIdx x).steps = s.steps ∧
    (s.setIdx x).lastSelfJump = s.lastSelfJump ∧ (s.setIdx x).params = s.params ∧
    (s.setIdx x).boundaries = s.boundaries :=
  ⟨rfl, rfl, rfl, rfl, rfl, rfl, rfl, rfl, rfl, rfl, rfl, rfl, rfl, rfl, rfl, rfl, rfl, rfl, rfl, rfl, rfl⟩

@[simp] theorem setResumeWord_fields (w : Option Word15) :
    (s.setResumeWord w).a = s.a ∧ (s.setResumeWord w).l = s.l ∧ (s.setResumeWord w).q = s.q ∧
    (s.setResumeWord w).eb = s.eb ∧ (s.setResumeWord w).fb = s.fb ∧ (s.setResumeWord w).z = s.z ∧
    (s.setResumeWord w).erasable = s.erasable ∧ (s.setResumeWord w).behind = s.behind ∧
    (s.setResumeWord w).fixed = s.fixed ∧ (s.setResumeWord w).chan = s.chan ∧ (s.setResumeWord w).ext = s.ext ∧
    (s.setResumeWord w).idx = s.idx ∧ (s.setResumeWord w).resumeWord = w ∧
    (s.setResumeWord w).inhint = s.inhint ∧ (s.setResumeWord w).isr = s.isr ∧
    (s.setResumeWord w).pending = s.pending ∧ (s.setResumeWord w).history = s.history ∧
    (s.setResumeWord w).steps = s.steps ∧ (s.setResumeWord w).lastSelfJump = s.lastSelfJump ∧
    (s.setResumeWord w).params = s.params ∧ (s.setResumeWord w).boundaries = s.boundaries :=
  ⟨rfl, rfl, rfl, rfl, rfl, rfl, rfl, rfl, rfl, rfl, rfl, rfl, rfl, rfl, rfl, rfl, rfl, rfl, rfl, rfl, rfl⟩

@[simp] theorem setInhint_fields (b : Bool) :
    (s.setInhint b).a = s.a ∧ (s.setInhint b).l = s.l ∧ (s.setInhint b).q = s.q ∧ (s.setInhint b).eb = s.eb ∧
    (s.setInhint b).fb = s.fb ∧ (s.setInhint b).z = s.z ∧ (s.setInhint b).erasable = s.erasable ∧
    (s.setInhint b).behind = s.behind ∧ (s.setInhint b).fixed = s.fixed ∧ (s.setInhint b).chan = s.chan ∧
    (s.setInhint b).ext = s.ext ∧ (s.setInhint b).idx = s.idx ∧ (s.setInhint b).resumeWord = s.resumeWord ∧
    (s.setInhint b).inhint = b ∧ (s.setInhint b).isr = s.isr ∧ (s.setInhint b).pending = s.pending ∧
    (s.setInhint b).history = s.history ∧ (s.setInhint b).steps = s.steps ∧
    (s.setInhint b).lastSelfJump = s.lastSelfJump ∧ (s.setInhint b).params = s.params ∧
    (s.setInhint b).boundaries = s.boundaries :=
  ⟨rfl, rfl, rfl, rfl, rfl, rfl, rfl, rfl, rfl, rfl, rfl, rfl, rfl, rfl, rfl, rfl, rfl, rfl, rfl, rfl, rfl⟩

@[simp] theorem setIsr_fields (b : Bool) :
    (s.setIsr b).a = s.a ∧ (s.setIsr b).l = s.l ∧ (s.setIsr b).q = s.q ∧ (s.setIsr b).eb = s.eb ∧
    (s.setIsr b).fb = s.fb ∧ (s.setIsr b).z = s.z ∧ (s.setIsr b).erasable = s.erasable ∧
    (s.setIsr b).behind = s.behind ∧ (s.setIsr b).fixed = s.fixed ∧ (s.setIsr b).chan = s.chan ∧
    (s.setIsr b).ext = s.ext ∧ (s.setIsr b).idx = s.idx ∧ (s.setIsr b).resumeWord = s.resumeWord ∧
    (s.setIsr b).inhint = s.inhint ∧ (s.setIsr b).isr = b ∧ (s.setIsr b).pending = s.pending ∧
    (s.setIsr b).history = s.history ∧ (s.setIsr b).steps = s.steps ∧
    (s.setIsr b).lastSelfJump = s.lastSelfJump ∧ (s.setIsr b).params = s.params ∧
    (s.setIsr b).boundaries = s.boundaries :=
  ⟨rfl, rfl, rfl, rfl, rfl, rfl, rfl, rfl, rfl, rfl, rfl, rfl, rfl, rfl, rfl, rfl, rfl, rfl, rfl, rfl, rfl⟩

@[simp] theorem setPending_fields (r : Requests) :
    (s.setPending r).a = s.a ∧ (s.setPending r).l = s.l ∧ (s.setPending r).q = s.q ∧
    (s.setPending r).eb = s.eb ∧ (s.setPending r).fb = s.fb ∧ (s.setPending r).z = s.z ∧
    (s.setPending r).erasable = s.erasable ∧ (s.setPending r).behind = s.behind ∧
    (s.setPending r).fixed = s.fixed ∧ (s.setPending r).chan = s.chan ∧ (s.setPending r).ext = s.ext ∧
    (s.setPending r).idx = s.idx ∧ (s.setPending r).resumeWord = s.resumeWord ∧
    (s.setPending r).inhint = s.inhint ∧ (s.setPending r).isr = s.isr ∧ (s.setPending r).pending = r ∧
    (s.setPending r).history = s.history ∧ (s.setPending r).steps = s.steps ∧
    (s.setPending r).lastSelfJump = s.lastSelfJump ∧ (s.setPending r).params = s.params ∧
    (s.setPending r).boundaries = s.boundaries :=
  ⟨rfl, rfl, rfl, rfl, rfl, rfl, rfl, rfl, rfl, rfl, rfl, rfl, rfl, rfl, rfl, rfl, rfl, rfl, rfl, rfl, rfl⟩

@[simp] theorem setLastSelfJump_fields (b : Bool) :
    (s.setLastSelfJump b).a = s.a ∧ (s.setLastSelfJump b).l = s.l ∧ (s.setLastSelfJump b).q = s.q ∧
    (s.setLastSelfJump b).eb = s.eb ∧ (s.setLastSelfJump b).fb = s.fb ∧ (s.setLastSelfJump b).z = s.z ∧
    (s.setLastSelfJump b).erasable = s.erasable ∧ (s.setLastSelfJump b).behind = s.behind ∧
    (s.setLastSelfJump b).fixed = s.fixed ∧ (s.setLastSelfJump b).chan = s.chan ∧
    (s.setLastSelfJump b).ext = s.ext ∧ (s.setLastSelfJump b).idx = s.idx ∧
    (s.setLastSelfJump b).resumeWord = s.resumeWord ∧ (s.setLastSelfJump b).inhint = s.inhint ∧
    (s.setLastSelfJump b).isr = s.isr ∧ (s.setLastSelfJump b).pending = s.pending ∧
    (s.setLastSelfJump b).history = s.history ∧ (s.setLastSelfJump b).steps = s.steps ∧
    (s.setLastSelfJump b).lastSelfJump = b ∧ (s.setLastSelfJump b).params = s.params ∧
    (s.setLastSelfJump b).boundaries = s.boundaries :=
  ⟨rfl, rfl, rfl, rfl, rfl, rfl, rfl, rfl, rfl, rfl, rfl, rfl, rfl, rfl, rfl, rfl, rfl, rfl, rfl, rfl, rfl⟩

@[simp] theorem setBoundaries_fields (es : List (List Event)) :
    (s.setBoundaries es).a = s.a ∧ (s.setBoundaries es).l = s.l ∧ (s.setBoundaries es).q = s.q ∧
    (s.setBoundaries es).eb = s.eb ∧ (s.setBoundaries es).fb = s.fb ∧ (s.setBoundaries es).z = s.z ∧
    (s.setBoundaries es).erasable = s.erasable ∧ (s.setBoundaries es).behind = s.behind ∧
    (s.setBoundaries es).fixed = s.fixed ∧ (s.setBoundaries es).chan = s.chan ∧
    (s.setBoundaries es).ext = s.ext ∧ (s.setBoundaries es).idx = s.idx ∧
    (s.setBoundaries es).resumeWord = s.resumeWord ∧ (s.setBoundaries es).inhint = s.inhint ∧
    (s.setBoundaries es).isr = s.isr ∧ (s.setBoundaries es).pending = s.pending ∧
    (s.setBoundaries es).history = s.history ∧ (s.setBoundaries es).steps = s.steps ∧
    (s.setBoundaries es).lastSelfJump = s.lastSelfJump ∧ (s.setBoundaries es).params = s.params ∧
    (s.setBoundaries es).boundaries = es :=
  ⟨rfl, rfl, rfl, rfl, rfl, rfl, rfl, rfl, rfl, rfl, rfl, rfl, rfl, rfl, rfl, rfl, rfl, rfl, rfl, rfl, rfl⟩

@[simp] theorem tick_fields :
    (s.tick).a = s.a ∧ (s.tick).l = s.l ∧ (s.tick).q = s.q ∧ (s.tick).eb = s.eb ∧ (s.tick).fb = s.fb ∧
    (s.tick).z = s.z ∧ (s.tick).erasable = s.erasable ∧ (s.tick).behind = s.behind ∧ (s.tick).fixed = s.fixed ∧
    (s.tick).chan = s.chan ∧ (s.tick).ext = s.ext ∧ (s.tick).idx = s.idx ∧ (s.tick).resumeWord = s.resumeWord ∧
    (s.tick).inhint = s.inhint ∧ (s.tick).isr = s.isr ∧ (s.tick).pending = s.pending ∧
    (s.tick).history = s.history ∧ (s.tick).steps = s.steps + 1 ∧ (s.tick).lastSelfJump = s.lastSelfJump ∧
    (s.tick).params = s.params ∧ (s.tick).boundaries = s.boundaries :=
  ⟨rfl, rfl, rfl, rfl, rfl, rfl, rfl, rfl, rfl, rfl, rfl, rfl, rfl, rfl, rfl, rfl, rfl, rfl, rfl, rfl, rfl⟩

@[simp] theorem emit_fields (c : Chan9) (v : Word15) :
    (s.emit c v).a = s.a ∧ (s.emit c v).l = s.l ∧ (s.emit c v).q = s.q ∧ (s.emit c v).eb = s.eb ∧
    (s.emit c v).fb = s.fb ∧ (s.emit c v).z = s.z ∧ (s.emit c v).erasable = s.erasable ∧
    (s.emit c v).behind = s.behind ∧ (s.emit c v).fixed = s.fixed ∧ (s.emit c v).chan = s.chan ∧
    (s.emit c v).ext = s.ext ∧ (s.emit c v).idx = s.idx ∧ (s.emit c v).resumeWord = s.resumeWord ∧
    (s.emit c v).inhint = s.inhint ∧ (s.emit c v).isr = s.isr ∧ (s.emit c v).pending = s.pending ∧
    (s.emit c v).history = s.history ++ [⟨s.steps + 1, c, v⟩] ∧ (s.emit c v).steps = s.steps ∧
    (s.emit c v).lastSelfJump = s.lastSelfJump ∧ (s.emit c v).params = s.params ∧
    (s.emit c v).boundaries = s.boundaries :=
  ⟨rfl, rfl, rfl, rfl, rfl, rfl, rfl, rfl, rfl, rfl, rfl, rfl, rfl, rfl, rfl, rfl, rfl, rfl, rfl, rfl, rfl⟩

@[simp] theorem putErasable_fields (n : Nat) (w : Word15) :
    (s.putErasable n w).a = s.a ∧ (s.putErasable n w).l = s.l ∧ (s.putErasable n w).q = s.q ∧
    (s.putErasable n w).eb = s.eb ∧ (s.putErasable n w).fb = s.fb ∧ (s.putErasable n w).z = s.z ∧
    (s.putErasable n w).erasable = Memory.put s.erasable n w ∧ (s.putErasable n w).behind = s.behind ∧
    (s.putErasable n w).fixed = s.fixed ∧ (s.putErasable n w).chan = s.chan ∧ (s.putErasable n w).ext = s.ext ∧
    (s.putErasable n w).idx = s.idx ∧ (s.putErasable n w).resumeWord = s.resumeWord ∧
    (s.putErasable n w).inhint = s.inhint ∧ (s.putErasable n w).isr = s.isr ∧
    (s.putErasable n w).pending = s.pending ∧ (s.putErasable n w).history = s.history ∧
    (s.putErasable n w).steps = s.steps ∧ (s.putErasable n w).lastSelfJump = s.lastSelfJump ∧
    (s.putErasable n w).params = s.params ∧ (s.putErasable n w).boundaries = s.boundaries :=
  ⟨rfl, rfl, rfl, rfl, rfl, rfl, rfl, rfl, rfl, rfl, rfl, rfl, rfl, rfl, rfl, rfl, rfl, rfl, rfl, rfl, rfl⟩

@[simp] theorem putBehind_fields (n : Nat) (w : Word15) :
    (s.putBehind n w).a = s.a ∧ (s.putBehind n w).l = s.l ∧ (s.putBehind n w).q = s.q ∧
    (s.putBehind n w).eb = s.eb ∧ (s.putBehind n w).fb = s.fb ∧ (s.putBehind n w).z = s.z ∧
    (s.putBehind n w).erasable = s.erasable ∧ (s.putBehind n w).behind = Memory.put s.behind n w ∧
    (s.putBehind n w).fixed = s.fixed ∧ (s.putBehind n w).chan = s.chan ∧ (s.putBehind n w).ext = s.ext ∧
    (s.putBehind n w).idx = s.idx ∧ (s.putBehind n w).resumeWord = s.resumeWord ∧
    (s.putBehind n w).inhint = s.inhint ∧ (s.putBehind n w).isr = s.isr ∧
    (s.putBehind n w).pending = s.pending ∧ (s.putBehind n w).history = s.history ∧
    (s.putBehind n w).steps = s.steps ∧ (s.putBehind n w).lastSelfJump = s.lastSelfJump ∧
    (s.putBehind n w).params = s.params ∧ (s.putBehind n w).boundaries = s.boundaries :=
  ⟨rfl, rfl, rfl, rfl, rfl, rfl, rfl, rfl, rfl, rfl, rfl, rfl, rfl, rfl, rfl, rfl, rfl, rfl, rfl, rfl, rfl⟩

@[simp] theorem putLatch_fields (c : Nat) (w : Word15) :
    (s.putLatch c w).a = s.a ∧ (s.putLatch c w).l = s.l ∧ (s.putLatch c w).q = s.q ∧
    (s.putLatch c w).eb = s.eb ∧ (s.putLatch c w).fb = s.fb ∧ (s.putLatch c w).z = s.z ∧
    (s.putLatch c w).erasable = s.erasable ∧ (s.putLatch c w).behind = s.behind ∧ (s.putLatch c w).fixed = s.fixed ∧
    (s.putLatch c w).ext = s.ext ∧ (s.putLatch c w).idx = s.idx ∧ (s.putLatch c w).resumeWord = s.resumeWord ∧
    (s.putLatch c w).inhint = s.inhint ∧ (s.putLatch c w).isr = s.isr ∧ (s.putLatch c w).pending = s.pending ∧
    (s.putLatch c w).history = s.history ∧ (s.putLatch c w).steps = s.steps ∧ (s.putLatch c w).lastSelfJump = s.lastSelfJump ∧
    (s.putLatch c w).params = s.params ∧ (s.putLatch c w).boundaries = s.boundaries := by
  unfold State.putLatch
  split <;> simp

/-- The memory of latches after a latch is set. -/
theorem putLatch_chan (c : Nat) (w : Word15) : (s.putLatch c w).chan =
    if w = s.params.channelReset c then Memory.drop s.chan c else Memory.put s.chan c w := by
  unfold State.putLatch
  split <;> rfl

end Sys2Proof.Machine
end

