-- ==== Sys2Proof/Laws/Ops.lean ====
section
/-! SUPPORT. One lemma per shared operation: what it reads, what it writes, what it leaves. -/

namespace Sys2Proof.Machine

variable (s : State)

/-! ## Words read after a word is put -/

theorem erasableWord_congr {s t : State} (h : t.erasable = s.erasable) (a : Nat) :
    t.erasableWord a = s.erasableWord a := by
  simp [State.erasableWord, h]

theorem behindWord_congr {s t : State} (h : t.behind = s.behind) (o : Nat) :
    t.behindWord o = s.behindWord o := by
  simp [State.behindWord, h]

theorem fixedWord_congr {s t : State} (h : t.fixed = s.fixed) (a : Nat) : t.fixedWord a = s.fixedWord a := by
  simp [State.fixedWord, h]

theorem latch_congr {s t : State} (h : t.chan = s.chan) (hp : t.params = s.params) (c : Nat) :
    t.latch c = s.latch c := by
  simp [State.latch, h, hp]

theorem erasableWord_putErasable (n a : Nat) (w : Word15) :
    (s.putErasable n w).erasableWord a = if a = n then w else s.erasableWord a := by
  by_cases h : a = n <;> simp [State.erasableWord, find_put, h]

theorem behindWord_putBehind (n o : Nat) (w : Word15) :
    (s.putBehind n w).behindWord o = if o = n then w else s.behindWord o := by
  by_cases h : o = n <;> simp [State.behindWord, find_put, h]

theorem latch_putLatch (c d : Nat) (w : Word15) :
    (s.putLatch c w).latch d = if d = c then w else s.latch d := by
  by_cases h : d = c
  · subst h
    by_cases hw : w = s.params.channelReset d <;> simp [State.latch, putLatch_chan, hw, find_put, find_drop]
  · by_cases hw : w = s.params.channelReset c <;> simp [State.latch, putLatch_chan, hw, find_put, find_drop, h]

/-! ## Setters and the words read -/

@[simp] theorem setA_words (v : Word16) : (∀ a, (s.setA v).erasableWord a = s.erasableWord a) ∧
    (∀ o, (s.setA v).behindWord o = s.behindWord o) ∧ (∀ a, (s.setA v).fixedWord a = s.fixedWord a) ∧
    (∀ c, (s.setA v).latch c = s.latch c) := ⟨fun _ => rfl, fun _ => rfl, fun _ => rfl, fun _ => rfl⟩

@[simp] theorem setL_words (v : Word16) : (∀ a, (s.setL v).erasableWord a = s.erasableWord a) ∧
    (∀ o, (s.setL v).behindWord o = s.behindWord o) ∧ (∀ a, (s.setL v).fixedWord a = s.fixedWord a) ∧
    (∀ c, (s.setL v).latch c = s.latch c) := ⟨fun _ => rfl, fun _ => rfl, fun _ => rfl, fun _ => rfl⟩

@[simp] theorem setQ_words (v : Word16) : (∀ a, (s.setQ v).erasableWord a = s.erasableWord a) ∧
    (∀ o, (s.setQ v).behindWord o = s.behindWord o) ∧ (∀ a, (s.setQ v).fixedWord a = s.fixedWord a) ∧
    (∀ c, (s.setQ v).latch c = s.latch c) := ⟨fun _ => rfl, fun _ => rfl, fun _ => rfl, fun _ => rfl⟩

@[simp] theorem setEb_words (v : BitVec 3) : (∀ a, (s.setEb v).erasableWord a = s.erasableWord a) ∧
    (∀ o, (s.setEb v).behindWord o = s.behindWord o) ∧ (∀ a, (s.setEb v).fixedWord a = s.fixedWord a) ∧
    (∀ c, (s.setEb v).latch c = s.latch c) := ⟨fun _ => rfl, fun _ => rfl, fun _ => rfl, fun _ => rfl⟩

@[simp] theorem setFb_words (v : BitVec 5) : (∀ a, (s.setFb v).erasableWord a = s.erasableWord a) ∧
    (∀ o, (s.setFb v).behindWord o = s.behindWord o) ∧ (∀ a, (s.setFb v).fixedWord a = s.fixedWord a) ∧
    (∀ c, (s.setFb v).latch c = s.latch c) := ⟨fun _ => rfl, fun _ => rfl, fun _ => rfl, fun _ => rfl⟩

@[simp] theorem setZ_words (k : Addr12) : (∀ a, (s.setZ k).erasableWord a = s.erasableWord a) ∧
    (∀ o, (s.setZ k).behindWord o = s.behindWord o) ∧ (∀ a, (s.setZ k).fixedWord a = s.fixedWord a) ∧
    (∀ c, (s.setZ k).latch c = s.latch c) := ⟨fun _ => rfl, fun _ => rfl, fun _ => rfl, fun _ => rfl⟩

@[simp] theorem setExt_words (b : Bool) : (∀ a, (s.setExt b).erasableWord a = s.erasableWord a) ∧
    (∀ o, (s.setExt b).behindWord o = s.behindWord o) ∧ (∀ a, (s.setExt b).fixedWord a = s.fixedWord a) ∧
    (∀ c, (s.setExt b).latch c = s.latch c) := ⟨fun _ => rfl, fun _ => rfl, fun _ => rfl, fun _ => rfl⟩

@[simp] theorem setIdx_words (x : Option Word16) : (∀ a, (s.setIdx x).erasableWord a = s.erasableWord a) ∧
    (∀ o, (s.setIdx x).behindWord o = s.behindWord o) ∧ (∀ a, (s.setIdx x).fixedWord a = s.fixedWord a) ∧
    (∀ c, (s.setIdx x).latch c = s.latch c) := ⟨fun _ => rfl, fun _ => rfl, fun _ => rfl, fun _ => rfl⟩

@[simp] theorem setResumeWord_words (w : Option Word15) :
    (∀ a, (s.setResumeWord w).erasableWord a = s.erasableWord a) ∧
    (∀ o, (s.setResumeWord w).behindWord o = s.behindWord o) ∧
    (∀ a, (s.setResumeWord w).fixedWord a = s.fixedWord a) ∧
    (∀ c, (s.setResumeWord w).latch c = s.latch c) := ⟨fun _ => rfl, fun _ => rfl, fun _ => rfl, fun _ => rfl⟩

@[simp] theorem setInhint_words (b : Bool) : (∀ a, (s.setInhint b).erasableWord a = s.erasableWord a) ∧
    (∀ o, (s.setInhint b).behindWord o = s.behindWord o) ∧ (∀ a, (s.setInhint b).fixedWord a = s.fixedWord a) ∧
    (∀ c, (s.setInhint b).latch c = s.latch c) := ⟨fun _ => rfl, fun _ => rfl, fun _ => rfl, fun _ => rfl⟩

@[simp] theorem setIsr_words (b : Bool) : (∀ a, (s.setIsr b).erasableWord a = s.erasableWord a) ∧
    (∀ o, (s.setIsr b).behindWord o = s.behindWord o) ∧ (∀ a, (s.setIsr b).fixedWord a = s.fixedWord a) ∧
    (∀ c, (s.setIsr b).latch c = s.latch c) := ⟨fun _ => rfl, fun _ => rfl, fun _ => rfl, fun _ => rfl⟩

@[simp] theorem setPending_words (r : Requests) : (∀ a, (s.setPending r).erasableWord a = s.erasableWord a) ∧
    (∀ o, (s.setPending r).behindWord o = s.behindWord o) ∧ (∀ a, (s.setPending r).fixedWord a = s.fixedWord a) ∧
    (∀ c, (s.setPending r).latch c = s.latch c) := ⟨fun _ => rfl, fun _ => rfl, fun _ => rfl, fun _ => rfl⟩

@[simp] theorem setLastSelfJump_words (b : Bool) :
    (∀ a, (s.setLastSelfJump b).erasableWord a = s.erasableWord a) ∧
    (∀ o, (s.setLastSelfJump b).behindWord o = s.behindWord o) ∧
    (∀ a, (s.setLastSelfJump b).fixedWord a = s.fixedWord a) ∧
    (∀ c, (s.setLastSelfJump b).latch c = s.latch c) := ⟨fun _ => rfl, fun _ => rfl, fun _ => rfl, fun _ => rfl⟩

@[simp] theorem setBoundaries_words (es : List (List Event)) :
    (∀ a, (s.setBoundaries es).erasableWord a = s.erasableWord a) ∧
    (∀ o, (s.setBoundaries es).behindWord o = s.behindWord o) ∧
    (∀ a, (s.setBoundaries es).fixedWord a = s.fixedWord a) ∧
    (∀ c, (s.setBoundaries es).latch c = s.latch c) := ⟨fun _ => rfl, fun _ => rfl, fun _ => rfl, fun _ => rfl⟩

@[simp] theorem tick_words : (∀ a, s.tick.erasableWord a = s.erasableWord a) ∧
    (∀ o, s.tick.behindWord o = s.behindWord o) ∧ (∀ a, s.tick.fixedWord a = s.fixedWord a) ∧
    (∀ c, s.tick.latch c = s.latch c) := ⟨fun _ => rfl, fun _ => rfl, fun _ => rfl, fun _ => rfl⟩

@[simp] theorem emit_words (c : Chan9) (v : Word15) : (∀ a, (s.emit c v).erasableWord a = s.erasableWord a) ∧
    (∀ o, (s.emit c v).behindWord o = s.behindWord o) ∧ (∀ a, (s.emit c v).fixedWord a = s.fixedWord a) ∧
    (∀ d, (s.emit c v).latch d = s.latch d) := ⟨fun _ => rfl, fun _ => rfl, fun _ => rfl, fun _ => rfl⟩

@[simp] theorem putErasable_words (n : Nat) (w : Word15) :
    (∀ o, (s.putErasable n w).behindWord o = s.behindWord o) ∧
    (∀ a, (s.putErasable n w).fixedWord a = s.fixedWord a) ∧
    (∀ c, (s.putErasable n w).latch c = s.latch c) := ⟨fun _ => rfl, fun _ => rfl, fun _ => rfl⟩

@[simp] theorem putBehind_words (n : Nat) (w : Word15) :
    (∀ a, (s.putBehind n w).erasableWord a = s.erasableWord a) ∧
    (∀ a, (s.putBehind n w).fixedWord a = s.fixedWord a) ∧
    (∀ c, (s.putBehind n w).latch c = s.latch c) := ⟨fun _ => rfl, fun _ => rfl, fun _ => rfl⟩

@[simp] theorem putLatch_words (c : Nat) (w : Word15) :
    (∀ a, (s.putLatch c w).erasableWord a = s.erasableWord a) ∧
    (∀ o, (s.putLatch c w).behindWord o = s.behindWord o) ∧
    (∀ a, (s.putLatch c w).fixedWord a = s.fixedWord a) := by
  refine ⟨fun a => ?_, fun o => ?_, fun a => ?_⟩
  · exact erasableWord_congr (by simp) a
  · exact behindWord_congr (by simp) o
  · exact fixedWord_congr (by simp) a

/-! ## Register writes -/

/-- A register write touches no memory, latch, sequencer flag, request or record. -/
@[simp] theorem writeReg_fields (r : Reg) (v : Word16) :
    (s.writeReg r v).erasable = s.erasable ∧ (s.writeReg r v).behind = s.behind ∧
    (s.writeReg r v).fixed = s.fixed ∧ (s.writeReg r v).chan = s.chan ∧ (s.writeReg r v).ext = s.ext ∧
    (s.writeReg r v).idx = s.idx ∧ (s.writeReg r v).resumeWord = s.resumeWord ∧
    (s.writeReg r v).inhint = s.inhint ∧ (s.writeReg r v).isr = s.isr ∧
    (s.writeReg r v).pending = s.pending ∧ (s.writeReg r v).history = s.history ∧
    (s.writeReg r v).steps = s.steps ∧ (s.writeReg r v).lastSelfJump = s.lastSelfJump ∧
    (s.writeReg r v).params = s.params ∧ (s.writeReg r v).boundaries = s.boundaries := by
  cases r <;> simp [State.writeReg]

@[simp] theorem writeReg_words (r : Reg) (v : Word16) :
    (∀ a, (s.writeReg r v).erasableWord a = s.erasableWord a) ∧
    (∀ o, (s.writeReg r v).behindWord o = s.behindWord o) ∧
    (∀ a, (s.writeReg r v).fixedWord a = s.fixedWord a) ∧
    (∀ c, (s.writeReg r v).latch c = s.latch c) := by
  cases r <;> simp [State.writeReg]

/-! ## Write -/

/-- Everything `Write` can do: write one register, put one erasable word, put one word behind bank E0, or nothing. -/
theorem write_cases (k : Addr12) (v : Word16) :
    (∃ r, s.resolve k = .reg r ∧ s.write k v = s.writeReg r v) ∨
    (∃ a, s.resolve k = .erasable a ∧ s.write k v = s.putErasable a (edit a (ovc v))) ∨
    (∃ o, s.resolve k = .behind o ∧ s.write k v = s.putBehind o (ovc v)) ∨
    (∃ a, (s.resolve k = .fixed a ∨ s.resolve k = .missing a) ∧ s.write k v = s) := by
  unfold State.write
  cases h : s.resolve k <;> simp

/-- A write touches no latch, sequencer flag, request or record, and never fixed memory (R71, R72). -/
@[simp] theorem write_fields (k : Addr12) (v : Word16) :
    (s.write k v).fixed = s.fixed ∧ (s.write k v).chan = s.chan ∧ (s.write k v).ext = s.ext ∧
    (s.write k v).idx = s.idx ∧ (s.write k v).resumeWord = s.resumeWord ∧
    (s.write k v).inhint = s.inhint ∧ (s.write k v).isr = s.isr ∧
    (s.write k v).pending = s.pending ∧ (s.write k v).history = s.history ∧
    (s.write k v).steps = s.steps ∧ (s.write k v).lastSelfJump = s.lastSelfJump ∧
    (s.write k v).params = s.params ∧ (s.write k v).boundaries = s.boundaries := by
  unfold State.write
  split <;> simp

@[simp] theorem write_latch (k : Addr12) (v : Word16) (c : Nat) : (s.write k v).latch c = s.latch c :=
  latch_congr (by simp) (by simp) c

/-! ## Where an address leads -/

/-- Resolution looks at EB, FB, the superbank bit and one parameter only. -/
theorem resolve_congr {s t : State} (he : t.eb = s.eb) (hf : t.fb = s.fb) (hc : t.chan = s.chan)
    (hp : t.params = s.params) (k : Addr12) : t.resolve k = s.resolve k := by
  simp [State.resolve, State.direct, State.inLowWindow, State.erasableLoc, State.fixedLoc, State.feb,
    State.latch, he, hf, hc, hp]

theorem direct_congr {s t : State} (he : t.eb = s.eb) (hp : t.params = s.params) (k : Addr12) :
    t.direct k = s.direct k := by
  simp [State.direct, State.inLowWindow, he, hp]

theorem isEditing_congr {s t : State} (he : t.eb = s.eb) (hp : t.params = s.params) (k : Addr12) :
    t.isEditing k = s.isEditing k := by
  simp [State.isEditing, direct_congr he hp]

/-- An editing register resolves to the erasable word of its own address. -/
theorem resolve_of_isEditing {k : Addr12} (h : s.isEditing k = true) :
    s.resolve k = .erasable (s.direct k).toNat ∧ 0o20 ≤ (s.direct k).toNat ∧ (s.direct k).toNat ≤ 0o23 := by
  simp only [State.isEditing, Bool.and_eq_true, decide_eq_true_eq] at h
  refine ⟨?_, h.1, h.2⟩
  have h1 : ¬(s.direct k).toNat < 8 := by omega
  have h2 : (s.direct k).toNat < 0o2000 := by omega
  have h3 : (s.direct k).toNat < 0o400 := by omega
  simp [State.resolve, State.erasableLoc, h1, h2, h3]

/-! ## Re-edit -/

/-- A re-edit does nothing, or edits the one editing register the address reaches (R73, R148). -/
theorem reedit_eq (k : Addr12) : s.reedit k =
    if s.params.reeditOnRead = true ∧ s.isEditing k = true then
      s.putErasable (s.direct k).toNat (edit (s.direct k).toNat (s.erasableWord (s.direct k).toNat))
    else s := by
  unfold State.reedit
  split
  · rename_i h
    have hr := (resolve_of_isEditing s h.2).1
    simp [State.write, State.read, State.readAs, hr]
  · rfl

@[simp] theorem reedit_fields (k : Addr12) :
    (s.reedit k).a = s.a ∧ (s.reedit k).l = s.l ∧ (s.reedit k).q = s.q ∧ (s.reedit k).eb = s.eb ∧
    (s.reedit k).fb = s.fb ∧ (s.reedit k).z = s.z ∧ (s.reedit k).behind = s.behind ∧
    (s.reedit k).fixed = s.fixed ∧ (s.reedit k).chan = s.chan ∧ (s.reedit k).ext = s.ext ∧
    (s.reedit k).idx = s.idx ∧ (s.reedit k).resumeWord = s.resumeWord ∧ (s.reedit k).inhint = s.inhint ∧
    (s.reedit k).isr = s.isr ∧ (s.reedit k).pending = s.pending ∧ (s.reedit k).history = s.history ∧
    (s.reedit k).steps = s.steps ∧ (s.reedit k).lastSelfJump = s.lastSelfJump ∧
    (s.reedit k).params = s.params ∧ (s.reedit k).boundaries = s.boundaries := by
  rw [reedit_eq]
  split <;> simp

@[simp] theorem reedit_latch (k : Addr12) (c : Nat) : (s.reedit k).latch c = s.latch c :=
  latch_congr (by simp) (by simp) c

/-- The erasable words after a re-edit. -/
theorem erasableWord_reedit (k : Addr12) (a : Nat) : (s.reedit k).erasableWord a =
    if s.params.reeditOnRead = true ∧ s.isEditing k = true ∧ a = (s.direct k).toNat then edit a (s.erasableWord a)
    else s.erasableWord a := by
  rw [reedit_eq]
  by_cases h : s.params.reeditOnRead = true ∧ s.isEditing k = true
  · rw [if_pos h, erasableWord_putErasable]
    by_cases ha : a = (s.direct k).toNat
    · simp [ha, h]
    · simp [ha]
  · rw [if_neg h, if_neg (fun hc => h ⟨hc.1, hc.2.1⟩)]

/-! ## Requests -/

@[simp] theorem requests_get_set (r : Requests) (n m : Source) (b : Bool) :
    (r.set n b).get m = if m = n then b else r.get m := by
  cases n <;> cases m <;> rfl

@[simp] theorem requests_get_none (m : Source) : Requests.none.get m = false := by
  cases m <;> rfl

theorem find_lowest (p : Source → Bool) (n : Source) (l : List Source)
    (h : l.Pairwise fun x y => x.number < y.number) :
    l.find? p = some n ↔ n ∈ l ∧ p n = true ∧ ∀ m ∈ l, p m = true → n.number ≤ m.number := by
  induction l with
  | nil => simp
  | cons x rest ih =>
    rw [List.pairwise_cons] at h
    by_cases hx : p x = true
    · rw [List.find?_cons_of_pos hx]
      constructor
      · intro e
        obtain rfl : x = n := by simpa using e
        refine ⟨by simp, hx, fun m hm _ => ?_⟩
        rcases List.mem_cons.mp hm with rfl | hm
        · exact Nat.le_refl _
        · exact Nat.le_of_lt (h.1 m hm)
      · rintro ⟨hn, _, hmin⟩
        rcases List.mem_cons.mp hn with rfl | hn
        · rfl
        · have := hmin x (by simp) hx
          have := h.1 n hn
          omega
    · rw [List.find?_cons_of_neg hx, ih h.2]
      constructor
      · rintro ⟨hn, hp, hmin⟩
        refine ⟨List.mem_cons_of_mem _ hn, hp, fun m hm hpm => ?_⟩
        rcases List.mem_cons.mp hm with rfl | hm
        · exact absurd hpm hx
        · exact hmin m hm hpm
      · rintro ⟨hn, hp, hmin⟩
        rcases List.mem_cons.mp hn with rfl | hn
        · exact absurd hp hx
        · exact ⟨hn, hp, fun m hm hpm => hmin m (List.mem_cons_of_mem _ hm) hpm⟩

theorem mem_all (n : Source) : n ∈ Source.all := by
  cases n <;> decide

/-- The source the check would enter is pending and no pending source has a lower number (R305). -/
theorem requests_first_some {r : Requests} {n : Source} :
    r.first = some n ↔ r.get n = true ∧ ∀ m, r.get m = true → n.number ≤ m.number := by
  rw [Requests.first, find_lowest _ _ _ (by decide)]
  exact ⟨fun h => ⟨h.2.1, fun m hm => h.2.2 m (mem_all m) hm⟩,
    fun h => ⟨mem_all n, h.1, fun m _ hm => h.2 m hm⟩⟩

theorem requests_first_none {r : Requests} : r.first = none ↔ ∀ m, r.get m = false := by
  rw [Requests.first, List.find?_eq_none]
  exact ⟨fun h m => by simpa using h m (mem_all m), fun h m _ => by simp [h m]⟩

@[simp] theorem raise_fields (n : Source) :
    (s.raise n).a = s.a ∧ (s.raise n).l = s.l ∧ (s.raise n).q = s.q ∧ (s.raise n).eb = s.eb ∧
    (s.raise n).fb = s.fb ∧ (s.raise n).z = s.z ∧ (s.raise n).erasable = s.erasable ∧
    (s.raise n).behind = s.behind ∧ (s.raise n).fixed = s.fixed ∧ (s.raise n).chan = s.chan ∧
    (s.raise n).ext = s.ext ∧ (s.raise n).idx = s.idx ∧ (s.raise n).resumeWord = s.resumeWord ∧
    (s.raise n).inhint = s.inhint ∧ (s.raise n).isr = s.isr ∧ (s.raise n).pending = s.pending.set n true ∧
    (s.raise n).history = s.history ∧ (s.raise n).steps = s.steps ∧
    (s.raise n).lastSelfJump = s.lastSelfJump ∧ (s.raise n).params = s.params ∧
    (s.raise n).boundaries = s.boundaries := by
  simp [State.raise]

@[simp] theorem raise_words (n : Source) : (∀ a, (s.raise n).erasableWord a = s.erasableWord a) ∧
    (∀ o, (s.raise n).behindWord o = s.behindWord o) ∧ (∀ a, (s.raise n).fixedWord a = s.fixedWord a) ∧
    (∀ c, (s.raise n).latch c = s.latch c) := ⟨fun _ => rfl, fun _ => rfl, fun _ => rfl, fun _ => rfl⟩

/-! ## Channel writes -/

/-- An output touches one latch and the history only (R242, R243). -/
@[simp] theorem output_fields (c : Chan9) (w : Word15) :
    (s.output c w).a = s.a ∧ (s.output c w).l = s.l ∧ (s.output c w).q = s.q ∧ (s.output c w).eb = s.eb ∧
    (s.output c w).fb = s.fb ∧ (s.output c w).z = s.z ∧ (s.output c w).erasable = s.erasable ∧
    (s.output c w).behind = s.behind ∧ (s.output c w).fixed = s.fixed ∧ (s.output c w).ext = s.ext ∧
    (s.output c w).idx = s.idx ∧ (s.output c w).resumeWord = s.resumeWord ∧
    (s.output c w).inhint = s.inhint ∧ (s.output c w).isr = s.isr ∧ (s.output c w).pending = s.pending ∧
    (s.output c w).history = s.history ++ [⟨s.steps + 1, c, w⟩] ∧ (s.output c w).steps = s.steps ∧
    (s.output c w).lastSelfJump = s.lastSelfJump ∧ (s.output c w).params = s.params ∧
    (s.output c w).boundaries = s.boundaries := by
  simp [State.output]

theorem latch_output (c : Chan9) (w : Word15) (d : Nat) :
    (s.output c w).latch d = if d = c.toNat then w else s.latch d := by
  simp [State.output, latch_putLatch]

/-- A channel write touches L, Q, one latch and the history only (R242). -/
@[simp] theorem chanWrite_fields (c : Chan9) (v : Word16) :
    (s.chanWrite c v).a = s.a ∧ (s.chanWrite c v).eb = s.eb ∧ (s.chanWrite c v).fb = s.fb ∧
    (s.chanWrite c v).z = s.z ∧ (s.chanWrite c v).erasable = s.erasable ∧
    (s.chanWrite c v).behind = s.behind ∧ (s.chanWrite c v).fixed = s.fixed ∧
    (s.chanWrite c v).ext = s.ext ∧ (s.chanWrite c v).idx = s.idx ∧
    (s.chanWrite c v).resumeWord = s.resumeWord ∧ (s.chanWrite c v).inhint = s.inhint ∧
    (s.chanWrite c v).isr = s.isr ∧ (s.chanWrite c v).pending = s.pending ∧
    (s.chanWrite c v).steps = s.steps ∧ (s.chanWrite c v).lastSelfJump = s.lastSelfJump ∧
    (s.chanWrite c v).params = s.params ∧ (s.chanWrite c v).boundaries = s.boundaries := by
  unfold State.chanWrite
  split
  · simp [State.writeReg]
  split
  · simp [State.writeReg]
  split
  · simp
  split
  · simp
  split
  · simp
  split <;> simp

/-- Which register or latch a channel write changes, and the event it emits (R242, R243). -/
theorem chanWrite_cases (c : Chan9) (v : Word16) :
    (c.toNat = 1 ∧ s.chanWrite c v = s.writeReg .l v) ∨
    (c.toNat = 2 ∧ s.chanWrite c v = s.setQ v) ∨
    ((c.toNat ∈ inputChannels ∨ c.toNat = 3 ∨ c.toNat = 4) ∧ s.chanWrite c v = s) ∨
    (c.toNat = 0o7 ∧ s.chanWrite c v = s.output c (ovc v &&& 0o000160)) ∨
    (c.toNat = 0o77 ∧ s.chanWrite c v = s.output c 0) ∨
    (c.toNat ∈ outputChannels ∧ s.chanWrite c v = s.output c (ovc v)) ∨
    ((¬c.toNat = 1 ∧ ¬c.toNat = 2 ∧ ¬(c.toNat ∈ inputChannels ∨ c.toNat = 3 ∨ c.toNat = 4) ∧
        ¬c.toNat = 0o7 ∧ ¬c.toNat = 0o77 ∧ c.toNat ∉ outputChannels) ∧
      s.chanWrite c v = s.putLatch c.toNat (ovc v)) := by
  unfold State.chanWrite
  by_cases h1 : c.toNat = 1
  · exact .inl ⟨h1, if_pos h1⟩
  by_cases h2 : c.toNat = 2
  · exact .inr (.inl ⟨h2, by rw [if_neg h1, if_pos h2]; rfl⟩)
  by_cases h3 : c.toNat ∈ inputChannels ∨ c.toNat = 3 ∨ c.toNat = 4
  · exact .inr (.inr (.inl ⟨h3, by rw [if_neg h1, if_neg h2, if_pos h3]⟩))
  by_cases h4 : c.toNat = 0o7
  · exact .inr (.inr (.inr (.inl ⟨h4, by rw [if_neg h1, if_neg h2, if_neg h3, if_pos h4]⟩)))
  by_cases h5 : c.toNat = 0o77
  · exact .inr (.inr (.inr (.inr (.inl ⟨h5, by
      rw [if_neg h1, if_neg h2, if_neg h3, if_neg h4, if_pos h5]⟩))))
  by_cases h6 : c.toNat ∈ outputChannels
  · exact .inr (.inr (.inr (.inr (.inr (.inl ⟨h6, by
      rw [if_neg h1, if_neg h2, if_neg h3, if_neg h4, if_neg h5, if_pos h6]⟩)))))
  · exact .inr (.inr (.inr (.inr (.inr (.inr ⟨⟨h1, h2, h3, h4, h5, h6⟩, by
      rw [if_neg h1, if_neg h2, if_neg h3, if_neg h4, if_neg h5, if_neg h6]⟩)))))

/-! ## Counter effects -/

/-- An overflow effect changes the word of TIME2 or the pending requests, nothing else (R320). -/
@[simp] theorem effectIf_fields (b : Bool) (a : Nat) :
    (s.effectIf b a).a = s.a ∧ (s.effectIf b a).l = s.l ∧ (s.effectIf b a).q = s.q ∧
    (s.effectIf b a).eb = s.eb ∧ (s.effectIf b a).fb = s.fb ∧ (s.effectIf b a).z = s.z ∧
    (s.effectIf b a).behind = s.behind ∧ (s.effectIf b a).fixed = s.fixed ∧
    (s.effectIf b a).chan = s.chan ∧ (s.effectIf b a).ext = s.ext ∧ (s.effectIf b a).idx = s.idx ∧
    (s.effectIf b a).resumeWord = s.resumeWord ∧ (s.effectIf b a).inhint = s.inhint ∧
    (s.effectIf b a).isr = s.isr ∧ (s.effectIf b a).history = s.history ∧
    (s.effectIf b a).steps = s.steps ∧ (s.effectIf b a).lastSelfJump = s.lastSelfJump ∧
    (s.effectIf b a).params = s.params ∧ (s.effectIf b a).boundaries = s.boundaries := by
  unfold State.effectIf State.overflowEffect
  split
  · split <;> simp
  · simp

@[simp] theorem effectIf_latch (b : Bool) (a c : Nat) : (s.effectIf b a).latch c = s.latch c :=
  latch_congr (by simp) (by simp) c

/-- The pending requests after an overflow effect. -/
theorem pending_effectIf (b : Bool) (a : Nat) : (s.effectIf b a).pending =
    if b = true then
      if a = 0o26 then s.pending.set .t3rupt true
      else if a = 0o27 then s.pending.set .t4rupt true
      else if a = 0o30 then s.pending.set .t5rupt true
      else s.pending
    else s.pending := by
  cases b
  · simp [State.effectIf]
  · simp only [State.effectIf, State.overflowEffect, if_true]
    split <;> simp_all [State.raise]

/-- The erasable words after an overflow effect: TIME1's counts TIME2 (R320). -/
theorem erasableWord_effectIf (b : Bool) (a n : Nat) : (s.effectIf b a).erasableWord n =
    if b = true ∧ a = 0o25 ∧ n = 0o24 then (pincWord (s.erasableWord 0o24)).1 else s.erasableWord n := by
  cases b
  · simp [State.effectIf]
  · simp only [State.effectIf, State.overflowEffect, if_true]
    split <;> simp_all [erasableWord_putErasable]

end Sys2Proof.Machine
end

