-- ==== Sys2Proof/Laws/Invariant.lean ====
section
/-! SUPPORT. Every shared operation keeps the invariant of Safety. -/

namespace Sys2Proof.Machine

variable {s : State}

/-! ## Where words may be put -/

theorem resolve_erasable_lt {k : Addr12} {a : Nat} (h : s.resolve k = .erasable a) : a < 8 * 256 := by
  have hb := s.eb.isLt
  unfold State.resolve State.erasableLoc State.fixedLoc at h
  grind

theorem resolve_behind_lt {k : Addr12} {o : Nat} (h : s.resolve k = .behind o) : o < 0o61 := by
  unfold State.resolve State.erasableLoc State.fixedLoc at h
  grind

theorem resolve_fixed_lt {k : Addr12} {a : Nat} (h : s.resolve k = .fixed a) : a < 36 * 1024 := by
  have hk := (s.direct k).isLt
  unfold State.resolve State.erasableLoc State.fixedLoc at h
  grind

/-! ## The parts of the invariant, one update at a time -/

/-- The invariant looks at no more than these fields. -/
theorem Inv_congr {t : State} (h : s.Inv) (he : t.erasable = s.erasable) (hb : t.behind = s.behind)
    (hf : t.fixed = s.fixed) (hc : t.chan = s.chan) (hl : t.l = s.l) (hp : t.params = s.params)
    (hr : t.resumeOk = true) : t.Inv := by
  obtain ⟨h1, h2, h3, h4, -⟩ := h
  refine ⟨?_, ?_, ?_, ?_, hr⟩
  · simpa [State.memoriesOk, he, hb, hf, hc, hp] using h1
  · simpa [State.lExtended, hl, hp] using h2
  · simpa [State.superbankOk, latch_congr hc hp] using h3
  · simpa [State.aliasesUnlatched, hc] using h4

theorem resumeOk_congr {t : State} (h : s.resumeOk = true) (hw : t.resumeWord = s.resumeWord) (hi : t.isr = s.isr)
    (hx : t.ext = s.ext) (hd : t.idx = s.idx) : t.resumeOk = true := by
  simpa [State.resumeOk, hw, hi, hx, hd] using h

theorem Inv_putErasable (h : s.Inv) {a : Nat} (ha : a < 8 * 256) (w : Word15) : (s.putErasable a w).Inv := by
  obtain ⟨h1, h2, h3, h4, h5⟩ := h
  refine ⟨?_, h2, h3, h4, h5⟩
  simp only [State.memoriesOk, Bool.and_eq_true] at h1 ⊢
  exact ⟨⟨⟨⟨wf_put w ha h1.1.1.1.1, h1.1.1.1.2⟩, h1.1.1.2⟩, h1.1.2⟩, h1.2⟩

theorem Inv_putBehind (h : s.Inv) {o : Nat} (ho : o < 0o61) (w : Word15) : (s.putBehind o w).Inv := by
  obtain ⟨h1, h2, h3, h4, h5⟩ := h
  refine ⟨?_, h2, h3, h4, h5⟩
  simp only [State.memoriesOk, Bool.and_eq_true] at h1 ⊢
  exact ⟨⟨⟨⟨h1.1.1.1.1, wf_put w ho h1.1.1.1.2⟩, h1.1.1.2⟩, h1.1.2⟩, h1.2⟩

/-- A latch may be set behind any channel but 1 to 4, and behind channel 7 only to bits 7 to 5. -/
theorem Inv_putLatch (h : s.Inv) {c : Nat} {w : Word15} (hc : c < 512) (h14 : ¬(1 ≤ c ∧ c ≤ 4))
    (h7 : c = 7 → w &&& 0o000160 = w) : (s.putLatch c w).Inv := by
  obtain ⟨h1, h2, h3, h4, h5⟩ := h
  refine ⟨?_, ?_, ?_, ?_, ?_⟩
  · simp only [State.memoriesOk, Bool.and_eq_true] at h1 ⊢
    by_cases hw : w = s.params.channelReset c
    · simpa [putLatch_chan, hw] using ⟨⟨h1.1.1, wf_drop c h1.1.2⟩, noneIdle_drop c h1.2⟩
    · simpa [putLatch_chan, hw] using ⟨⟨h1.1.1, wf_put w hc h1.1.2⟩, noneIdle_put hw h1.2⟩
  · simpa [State.lExtended] using h2
  · simp only [State.superbankOk, beq_iff_eq, latch_putLatch] at h3 ⊢
    by_cases hc7 : c = 7
    · simpa [hc7] using h7 hc7
    · simpa [show ¬(7 = c) from fun e => hc7 e.symm] using h3
  · have hn : ∀ d, 1 ≤ d → d ≤ 4 → Memory.find (s.putLatch c w).chan d = Memory.find s.chan d := by
      intro d hd1 hd4
      have hdc : d ≠ c := fun e => h14 ⟨e ▸ hd1, e ▸ hd4⟩
      rw [putLatch_chan]
      split <;> simp [find_drop, find_put, hdc]
    simpa [State.aliasesUnlatched, hn] using h4
  · exact resumeOk_congr h5 (by simp) (by simp) (by simp) (by simp)

/-- L may be set to a sign-extended value, or to any where L keeps 16 bits. -/
theorem Inv_setL (h : s.Inv) {v : Word16} (hv : s.params.lIs16bit = true ∨ v.getLsbD 15 = v.getLsbD 14) :
    (s.setL v).Inv := by
  obtain ⟨h1, h2, h3, h4, h5⟩ := h
  refine ⟨h1, ?_, h3, h4, h5⟩
  simp only [State.lExtended, Bool.or_eq_true, beq_iff_eq]
  exact hv

theorem sext16_extended (w : Word15) : (sext16 w).getLsbD 15 = (sext16 w).getLsbD 14 := by
  have h := ovf_sext16 w
  simpa [ovf] using h

/-! ## The shared operations -/

theorem Inv_writeReg (h : s.Inv) (r : Reg) (v : Word16) : (s.writeReg r v).Inv := by
  by_cases hr : r = .l
  · subst hr
    refine Inv_setL h ?_
    by_cases hp : s.params.lIs16bit = true
    · exact .inl hp
    · exact .inr (by simpa [hp] using sext16_extended _)
  · refine Inv_congr h (by simp) (by simp) (by simp) (by simp) ?_ (by simp)
      (resumeOk_congr h.2.2.2.2 (by simp) (by simp) (by simp) (by simp))
    cases r <;> first | exact absurd rfl hr | simp [State.writeReg]

theorem Inv_write (h : s.Inv) (k : Addr12) (v : Word16) : (s.write k v).Inv := by
  rcases write_cases s k v with ⟨r, _, e⟩ | ⟨a, ha, e⟩ | ⟨o, ho, e⟩ | ⟨_, _, e⟩ <;> rw [e]
  · exact Inv_writeReg h r v
  · exact Inv_putErasable h (resolve_erasable_lt ha) _
  · exact Inv_putBehind h (resolve_behind_lt ho) _
  · exact h

theorem Inv_reedit (h : s.Inv) (k : Addr12) : (s.reedit k).Inv := by
  unfold State.reedit
  split
  · exact Inv_write h _ _
  · exact h

/-- An output leaves a word its latch may hold. -/
theorem Inv_output (h : s.Inv) {c : Chan9} {w : Word15} (h14 : ¬(1 ≤ c.toNat ∧ c.toNat ≤ 4))
    (h7 : c.toNat = 7 → w &&& 0o000160 = w) : (s.output c w).Inv := by
  have hl : (s.putLatch c.toNat w).Inv := Inv_putLatch h (by have := c.isLt; omega) h14 h7
  exact hl

theorem Inv_chanWrite (h : s.Inv) (c : Chan9) (v : Word16) : (s.chanWrite c v).Inv := by
  have hc := c.isLt
  rcases chanWrite_cases s c v with ⟨_, e⟩ | ⟨_, e⟩ | ⟨_, e⟩ | ⟨hm, e⟩ | ⟨hm, e⟩ | ⟨hm, e⟩ | ⟨hm, e⟩ <;> rw [e]
  · exact Inv_writeReg h .l v
  · exact Inv_writeReg h .q v
  · exact h
  · refine Inv_output h (by omega) fun _ => ?_
    rw [BitVec.and_assoc, BitVec.and_self]
  · exact Inv_output h (by omega) (by omega)
  · simp only [outputChannels, List.mem_cons, List.not_mem_nil, or_false] at hm
    exact Inv_output h (by omega) (by omega)
  · exact Inv_putLatch h (by omega) (by omega) (by omega)

theorem Inv_raise (h : s.Inv) (n : Source) : (s.raise n).Inv := h

theorem Inv_effectIf (h : s.Inv) (b : Bool) (a : Nat) : (s.effectIf b a).Inv := by
  unfold State.effectIf State.overflowEffect
  split
  · split
    · exact Inv_putErasable h (by decide) _
    · exact h
    · exact h
    · exact h
    · exact h
  · exact h

theorem Inv_counter (h : s.Inv) {a : Nat} (ha : a < 8 * 256) (k : CounterKind) : (s.counter a k).Inv := by
  cases k
  case dinc =>
    simp only [State.counter]
    split
    · unfold State.zeroEffect
      split
      · exact Inv_putLatch (Inv_raise h _) (by decide) (by decide) (fun hne => absurd hne (by decide))
      · exact h
    · exact Inv_putErasable h ha _
  all_goals first
    | exact Inv_effectIf (Inv_putErasable h ha _) _ _
    | exact Inv_putErasable h ha _

theorem Inv_panel (h : s.Inv) (c : Chan9) (v : Word16) : (s.panel c v).Inv := by
  unfold State.panel
  split
  · rename_i hm
    simp only [inputChannels, List.mem_cons, List.not_mem_nil, or_false] at hm
    have hl : (s.putLatch c.toNat (low15 v)).Inv := Inv_putLatch h (by omega) (by omega) (by omega)
    dsimp only
    split
    · exact hl
    · split <;> exact hl
  · exact h

theorem Inv_clearLatches (h : s.Inv) (cs : List Nat) (hc : ∀ c ∈ cs, c < 512 ∧ ¬(1 ≤ c ∧ c ≤ 4)) :
    (s.clearLatches cs).Inv := by
  induction cs generalizing s with
  | nil => exact h
  | cons c rest ih =>
    have hd := hc c (by simp)
    exact ih (Inv_putLatch h hd.1 hd.2 fun _ => by decide) fun d hm => hc d (by simp [hm])

theorem Inv_gojam (h : s.Inv) (c : Alarm) : (s.gojam c).Inv := by
  unfold State.gojam
  refine Inv_putLatch (Inv_clearLatches ?_ _ (by decide)) (by decide) (by decide) (fun hne => absurd hne (by decide))
  exact Inv_congr h (by simp) (by simp) (by simp) (by simp) (by simp) (by simp) (by simp [State.resumeOk])

theorem counterKinds_lt {a : Nat} {k : CounterKind} (h : k ∈ counterKinds a) : a < 8 * 256 := by
  unfold counterKinds at h
  split at h <;> first | omega | simp at h

theorem Inv_event (h : s.Inv) (e : Event) : (s.event e).Inv := by
  cases e with
  | counter a k =>
    simp only [State.event]
    split
    · rename_i hm
      simp only [State.mayCount, Bool.and_eq_true, decide_eq_true_eq] at hm
      exact Inv_counter h (counterKinds_lt hm.1) k
    · exact h
  | panel c v => exact Inv_panel h c v
  | raise n =>
    simp only [State.event]
    split <;> exact h
  | alarm c =>
    simp only [State.event]
    split
    · exact Inv_gojam h c
    · exact h

theorem Inv_events (h : s.Inv) (es : List Event) : (es.foldl State.event s).Inv := by
  induction es generalizing s with
  | nil => exact h
  | cons e rest ih => exact ih (Inv_event h e)

theorem Inv_boundary (h : s.Inv) : s.boundary.Inv := by
  unfold State.boundary
  split
  · exact h
  · exact Inv_events (by exact h) _

theorem Inv_enter (h : s.Inv) (n : Source) : (s.enter n).Inv := by
  cases hw : s.resumeWord with
  | some w =>
    have h2 : (((s.setPending (s.pending.set n false)).putErasable 0o17 w).putErasable 0o15 (addrWord s.z)).Inv :=
      Inv_putErasable (Inv_putErasable (by exact h) (by decide) _) (by decide) _
    simp only [State.enter, hw]
    exact Inv_congr h2 rfl rfl rfl rfl rfl rfl (by simp [State.resumeOk])
  | none =>
    have h2 : (((s.setPending (s.pending.set n false)).putErasable 0o17 (s.fetch .entry s.z)).putErasable 0o15
        (addrWord (s.z + 1))).Inv :=
      Inv_putErasable (Inv_putErasable (by exact h) (by decide) _) (by decide) _
    simp only [State.enter, hw]
    exact Inv_congr h2 rfl rfl rfl rfl rfl rfl (by simp [State.resumeOk, hw])

theorem Inv_interruptCheck (h : s.Inv) : s.interruptCheck.Inv := by
  unfold State.interruptCheck
  split
  · split
    · exact Inv_enter h _
    · exact h
  · exact h

end Sys2Proof.Machine
end

