-- ==== Sys2Proof/Laws/PerInstr.lean ====
section
/-! SUPPORT. The family TableRow: the word of a well-formed instruction is one its own row of the opcode table admits. -/

namespace Sys2Proof.Laws.TableRow

/-- Some row of the table has the instruction's mnemonic and admits its encoding (R106, R107). -/
def Statement (i : Instr) : Prop :=
  i.wf = true → ∃ r ∈ opcodeTable, r.mnemonic = i.mnemonic ∧ r.admits (encode i).1 (encode i).2 = true

/-- A row of the table by its place. -/
theorem of_row (n : Fin 39) {i : Instr} (hm : opcodeTable[n.val].mnemonic = i.mnemonic)
    (ha : opcodeTable[n.val].admits (encode i).1 (encode i).2 = true) : Statement i :=
  fun _ => ⟨opcodeTable[n.val], List.getElem_mem _, hm, ha⟩

/-- A fixed target keeps a word out of the quarter-code row with QC = 00 (R102). -/
theorem fixedTarget_excluded (op : BitVec 3) {k : Addr12} (h : isFixedTarget k = true) :
    formatB op k &&& 0o076000 ≠ formatQC op 0 0 := by
  intro he
  rw [formatB_and_qc] at he
  have := congrArg BitVec.toNat he
  simp only [formatQC_toNat, BitVec.extractLsb'_toNat, Nat.shiftRight_eq_div_pow] at this
  simp only [isFixedTarget, decide_eq_true_eq] at h
  have hk := k.isLt
  simp at this
  omega

theorem relint : Statement .relint := of_row 0 rfl (by decide)

theorem inhint : Statement .inhint := of_row 1 rfl (by decide)

theorem extend : Statement .extend := of_row 2 rfl (by decide)

theorem resume : Statement .resume := of_row 3 rfl (by decide)

theorem tc (k : Addr12) : Statement (.tc k) := by
  intro h
  refine ⟨opcodeTable[4], List.getElem_mem _, rfl, admits_of rfl (formatB_and 0 k) fun p hp => ?_⟩
  have hk : ∀ j : Addr12, k ≠ j → formatB 0 k &&& 0o077777 ≠ formatB 0 j := by
    intro j hj he
    rw [word_and_all] at he
    have := congrArg BitVec.toNat he
    simp only [formatB_toNat] at this
    exact hj (BitVec.eq_of_toNat_eq (by omega))
  simp only [Instr.wf, Bool.and_eq_true, decide_eq_true_eq] at h
  simp only [opcodeTable, basicRows, List.cons_append, List.getElem_cons_succ, List.getElem_cons_zero,
    List.mem_cons, List.not_mem_nil, or_false] at hp
  rcases hp with rfl | rfl | rfl
  · exact hk 3 h.1.1
  · exact hk 4 h.1.2
  · exact hk 6 h.2

theorem ccs (ke : Addr10) : Statement (.ccs ke) :=
  of_row 5 rfl (admits_plain rfl rfl (formatQC_and 1 0 ke))

theorem tcf (k : Addr12) : Statement (.tcf k) := by
  intro h
  refine ⟨opcodeTable[6], List.getElem_mem _, rfl, admits_of rfl (formatB_and 1 k) fun p hp => ?_⟩
  simp only [opcodeTable, basicRows, extendedRows, List.cons_append, List.nil_append, List.getElem_cons_succ,
    List.getElem_cons_zero, List.mem_cons, List.not_mem_nil, or_false] at hp
  subst hp
  exact fixedTarget_excluded 1 h

theorem das (k : Addr12) : Statement (.das k) :=
  of_row 7 rfl (admits_plain rfl rfl (formatQC_and 2 0 _))

theorem lxch (ke : Addr10) : Statement (.lxch ke) :=
  of_row 8 rfl (admits_plain rfl rfl (formatQC_and 2 1 ke))

theorem incr (ke : Addr10) : Statement (.incr ke) :=
  of_row 9 rfl (admits_plain rfl rfl (formatQC_and 2 2 ke))

theorem ads (ke : Addr10) : Statement (.ads ke) :=
  of_row 10 rfl (admits_plain rfl rfl (formatQC_and 2 3 ke))

theorem ca (k : Addr12) : Statement (.ca k) :=
  of_row 11 rfl (admits_plain rfl rfl (formatB_and 3 k))

theorem cs (k : Addr12) : Statement (.cs k) :=
  of_row 12 rfl (admits_plain rfl rfl (formatB_and 4 k))

theorem index (ke : Addr10) : Statement (.index ke) := by
  intro h
  refine ⟨opcodeTable[13], List.getElem_mem _, rfl, admits_of rfl (formatQC_and 5 0 ke) fun p hp => ?_⟩
  simp only [Instr.wf, decide_eq_true_eq] at h
  simp only [opcodeTable, basicRows, List.cons_append, List.getElem_cons_succ, List.getElem_cons_zero,
    List.mem_cons, List.not_mem_nil, or_false] at hp
  subst hp
  intro he
  have he : formatQC 5 0 ke = formatQC 5 0 0o17 := by rw [← word_and_all (formatQC 5 0 ke)]; exact he
  have := congrArg BitVec.toNat he
  simp only [formatQC_toNat] at this
  exact h (BitVec.eq_of_toNat_eq (by omega))

theorem dxch (k : Addr12) : Statement (.dxch k) :=
  of_row 14 rfl (admits_plain rfl rfl (formatQC_and 5 1 _))

theorem ts (ke : Addr10) : Statement (.ts ke) :=
  of_row 15 rfl (admits_plain rfl rfl (formatQC_and 5 2 ke))

theorem xch (ke : Addr10) : Statement (.xch ke) :=
  of_row 16 rfl (admits_plain rfl rfl (formatQC_and 5 3 ke))

theorem ad (k : Addr12) : Statement (.ad k) :=
  of_row 17 rfl (admits_plain rfl rfl (formatB_and 6 k))

theorem mask (k : Addr12) : Statement (.mask k) :=
  of_row 18 rfl (admits_plain rfl rfl (formatB_and 7 k))

theorem read (kc : Chan9) : Statement (.read kc) :=
  of_row 19 rfl (admits_plain rfl rfl (formatIO_and 0 kc))

theorem write (kc : Chan9) : Statement (.write kc) :=
  of_row 20 rfl (admits_plain rfl rfl (formatIO_and 1 kc))

theorem rand (kc : Chan9) : Statement (.rand kc) :=
  of_row 21 rfl (admits_plain rfl rfl (formatIO_and 2 kc))

theorem wand (kc : Chan9) : Statement (.wand kc) :=
  of_row 22 rfl (admits_plain rfl rfl (formatIO_and 3 kc))

theorem ror (kc : Chan9) : Statement (.ror kc) :=
  of_row 23 rfl (admits_plain rfl rfl (formatIO_and 4 kc))

theorem wor (kc : Chan9) : Statement (.wor kc) :=
  of_row 24 rfl (admits_plain rfl rfl (formatIO_and 5 kc))

theorem rxor (kc : Chan9) : Statement (.rxor kc) :=
  of_row 25 rfl (admits_plain rfl rfl (formatIO_and 6 kc))

theorem edrupt (kc : Chan9) : Statement (.edrupt kc) :=
  of_row 26 rfl (admits_plain rfl rfl (formatIO_and 7 kc))

theorem dv (ke : Addr10) : Statement (.dv ke) :=
  of_row 27 rfl (admits_plain rfl rfl (formatQC_and 1 0 ke))

theorem bzf (k : Addr12) : Statement (.bzf k) := by
  intro h
  refine ⟨opcodeTable[28], List.getElem_mem _, rfl, admits_of rfl (formatB_and 1 k) fun p hp => ?_⟩
  simp only [opcodeTable, basicRows, extendedRows, List.cons_append, List.nil_append, List.getElem_cons_succ,
    List.getElem_cons_zero, List.mem_cons, List.not_mem_nil, or_false] at hp
  subst hp
  exact fixedTarget_excluded 1 h

theorem msu (ke : Addr10) : Statement (.msu ke) :=
  of_row 29 rfl (admits_plain rfl rfl (formatQC_and 2 0 ke))

theorem qxch (ke : Addr10) : Statement (.qxch ke) :=
  of_row 30 rfl (admits_plain rfl rfl (formatQC_and 2 1 ke))

theorem aug (ke : Addr10) : Statement (.aug ke) :=
  of_row 31 rfl (admits_plain rfl rfl (formatQC_and 2 2 ke))

theorem dim (ke : Addr10) : Statement (.dim ke) :=
  of_row 32 rfl (admits_plain rfl rfl (formatQC_and 2 3 ke))

theorem dca (k : Addr12) : Statement (.dca k) :=
  of_row 33 rfl (admits_plain rfl rfl (formatB_and 3 _))

theorem dcs (k : Addr12) : Statement (.dcs k) :=
  of_row 34 rfl (admits_plain rfl rfl (formatB_and 4 _))

theorem indexExt (k : Addr12) : Statement (.indexExt k) :=
  of_row 35 rfl (admits_plain rfl rfl (formatB_and 5 k))

theorem su (ke : Addr10) : Statement (.su ke) :=
  of_row 36 rfl (admits_plain rfl rfl (formatQC_and 6 0 ke))

theorem bzmf (k : Addr12) : Statement (.bzmf k) := by
  intro h
  refine ⟨opcodeTable[37], List.getElem_mem _, rfl, admits_of rfl (formatB_and 6 k) fun p hp => ?_⟩
  simp only [opcodeTable, basicRows, extendedRows, List.cons_append, List.nil_append, List.getElem_cons_succ,
    List.getElem_cons_zero, List.mem_cons, List.not_mem_nil, or_false] at hp
  subst hp
  exact fixedTarget_excluded 6 h

theorem mp (k : Addr12) : Statement (.mp k) :=
  of_row 38 rfl (admits_plain rfl rfl (formatB_and 7 k))

end Sys2Proof.Laws.TableRow
end

