-- ==== Sys2Proof/Laws/Step.lean ====
section
/-! SUPPORT. Interrupt entry and return, restart and the boundary, field by field; a step taken apart. -/

namespace Sys2Proof.Machine

variable (s : State)

/-! ## Interrupt entry and return -/

/-- An entry touches no register but Z, no channel and no record; it sets `isr` and uses up a resume word (R307). -/
@[simp] theorem enter_fields (n : Source) :
    (s.enter n).a = s.a ∧ (s.enter n).l = s.l ∧ (s.enter n).q = s.q ∧ (s.enter n).eb = s.eb ∧
    (s.enter n).fb = s.fb ∧ (s.enter n).z = n.vector ∧ (s.enter n).behind = s.behind ∧
    (s.enter n).fixed = s.fixed ∧ (s.enter n).chan = s.chan ∧ (s.enter n).ext = s.ext ∧
    (s.enter n).idx = s.idx ∧ (s.enter n).resumeWord = none ∧ (s.enter n).inhint = s.inhint ∧
    (s.enter n).isr = true ∧ (s.enter n).pending = s.pending.set n false ∧ (s.enter n).history = s.history ∧
    (s.enter n).steps = s.steps ∧ (s.enter n).lastSelfJump = s.lastSelfJump ∧ (s.enter n).params = s.params ∧
    (s.enter n).boundaries = s.boundaries := by
  cases h : s.resumeWord <;> simp [State.enter, h]

/-- The two words an entry saves (R307). -/
theorem erasableWord_enter (n : Source) (a : Nat) : (s.enter n).erasableWord a =
    if a = 0o15 then addrWord (if s.resumeWord = none then s.z + 1 else s.z)
    else if a = 0o17 then s.resumeWord.getD (s.fetch .entry s.z)
    else s.erasableWord a := by
  cases h : s.resumeWord <;> simp [State.enter, h, erasableWord_putErasable]

/-- The check enters the first pending source, interrupts being enabled, or does nothing (R305). -/
theorem interruptCheck_cases : s.interruptCheck = s ∨
    ∃ n, s.enabled = true ∧ s.pending.first = some n ∧ s.interruptCheck = s.enter n := by
  unfold State.interruptCheck
  by_cases he : s.enabled = true
  · cases hf : s.pending.first with
    | none => exact .inl (by simp [he])
    | some n => exact .inr ⟨n, he, rfl, by simp [he]⟩
  · exact .inl (by simp [he])

theorem enabled_iff : s.enabled = true ↔
    ((((s.inhint = false ∧ s.isr = false) ∧ s.ext = false) ∧ s.idx = none) ∧ ovf s.a = false) := by
  simp [State.enabled]

/-- A word at 010 to 01377 is read and written as itself, whatever the banks (R62). -/
theorem resolve_unswitched {k : Addr12} (h1 : 8 ≤ k.toNat) (h2 : k.toNat < 0o1400) :
    s.resolve k = .erasable k.toNat := by
  have hd : s.direct k = k := by
    have hw : s.inLowWindow k = false := by
      simp only [State.inLowWindow, Bool.and_eq_false_iff, decide_eq_false_iff_not]
      exact .inl (.inr (by omega))
    simp [State.direct, hw]
  simp only [State.resolve, State.erasableLoc, hd]
  grind

theorem read_unswitched {k : Addr12} (h1 : 8 ≤ k.toNat) (h2 : k.toNat < 0o1400) :
    s.read k = sext16 (s.erasableWord k.toNat) := by
  simp [State.read, State.readAs, resolve_unswitched s h1 h2]

theorem write_unswitched {k : Addr12} (v : Word16) (h1 : 8 ≤ k.toNat) (h2 : k.toNat < 0o1400) :
    s.write k v = s.putErasable k.toNat (edit k.toNat (ovc v)) := by
  simp [State.write, resolve_unswitched s h1 h2]

/-- The return jumps to the saved address and hands on the saved word (R222). -/
theorem returnFromInterrupt_eq : s.returnFromInterrupt =
    ((s.setZ (addr15 (s.erasableWord 0o15))).setResumeWord (some (s.erasableWord 0o17))).setIsr false := by
  rw [State.returnFromInterrupt, read_unswitched s (by decide) (by decide),
    read_unswitched s (by decide) (by decide), ovc_sext16, ovc_sext16]
  rfl

/-- EDRUPT's entry saves its two words in erasable memory (R223). -/
theorem checkoutEntry_eq : s.checkoutEntry =
    (((s.putErasable 0o17 (s.fetch .entry s.z)).putErasable 0o15 (ovc (zext16 (s.z + 1)))).setIsr true).setZ 0 := by
  rw [State.checkoutEntry, write_unswitched s _ (by decide) (by decide),
    write_unswitched _ _ (by decide) (by decide), ovc_sext16]
  rfl

/-! ## Restart, events, boundary -/

/-- Clearing latches touches nothing else. -/
@[simp] theorem clearLatches_fields (cs : List Nat) :
    (s.clearLatches cs).a = s.a ∧ (s.clearLatches cs).l = s.l ∧ (s.clearLatches cs).q = s.q ∧
    (s.clearLatches cs).eb = s.eb ∧ (s.clearLatches cs).fb = s.fb ∧ (s.clearLatches cs).z = s.z ∧
    (s.clearLatches cs).erasable = s.erasable ∧ (s.clearLatches cs).behind = s.behind ∧
    (s.clearLatches cs).fixed = s.fixed ∧ (s.clearLatches cs).ext = s.ext ∧ (s.clearLatches cs).idx = s.idx ∧
    (s.clearLatches cs).resumeWord = s.resumeWord ∧ (s.clearLatches cs).inhint = s.inhint ∧
    (s.clearLatches cs).isr = s.isr ∧ (s.clearLatches cs).pending = s.pending ∧
    (s.clearLatches cs).history = s.history ∧ (s.clearLatches cs).steps = s.steps ∧
    (s.clearLatches cs).lastSelfJump = s.lastSelfJump ∧ (s.clearLatches cs).params = s.params ∧
    (s.clearLatches cs).boundaries = s.boundaries := by
  induction cs generalizing s with
  | nil => simp [State.clearLatches]
  | cons c rest ih => simpa [State.clearLatches] using ih (s.putLatch c 0)

theorem latch_clearLatches (cs : List Nat) (d : Nat) :
    (s.clearLatches cs).latch d = if d ∈ cs then 0 else s.latch d := by
  induction cs generalizing s with
  | nil => simp [State.clearLatches]
  | cons c rest ih =>
    have h := ih (s.putLatch c 0)
    simp only [State.clearLatches, List.foldl_cons] at h ⊢
    rw [h, latch_putLatch]
    by_cases h1 : d ∈ rest <;> by_cases h2 : d = c <;> simp [h1, h2]

/-- A counter request touches no register, no sequencer flag, no behind or fixed word and no record (R320). -/
@[simp] theorem counter_fields (a : Nat) (k : CounterKind) :
    (s.counter a k).a = s.a ∧ (s.counter a k).l = s.l ∧ (s.counter a k).q = s.q ∧ (s.counter a k).eb = s.eb ∧
    (s.counter a k).fb = s.fb ∧ (s.counter a k).z = s.z ∧ (s.counter a k).behind = s.behind ∧
    (s.counter a k).fixed = s.fixed ∧ (s.counter a k).ext = s.ext ∧ (s.counter a k).idx = s.idx ∧
    (s.counter a k).resumeWord = s.resumeWord ∧ (s.counter a k).inhint = s.inhint ∧
    (s.counter a k).isr = s.isr ∧ (s.counter a k).history = s.history ∧ (s.counter a k).steps = s.steps ∧
    (s.counter a k).lastSelfJump = s.lastSelfJump ∧ (s.counter a k).params = s.params ∧
    (s.counter a k).boundaries = s.boundaries := by
  cases k
  case dinc =>
    simp only [State.counter]
    split
    · unfold State.zeroEffect
      split <;> simp
    · simp
  all_goals simp [State.counter]

/-- A panel event touches latches and requests only (R340). -/
@[simp] theorem panel_fields (c : Chan9) (v : Word16) :
    (s.panel c v).a = s.a ∧ (s.panel c v).l = s.l ∧ (s.panel c v).q = s.q ∧ (s.panel c v).eb = s.eb ∧
    (s.panel c v).fb = s.fb ∧ (s.panel c v).z = s.z ∧ (s.panel c v).erasable = s.erasable ∧
    (s.panel c v).behind = s.behind ∧ (s.panel c v).fixed = s.fixed ∧ (s.panel c v).ext = s.ext ∧
    (s.panel c v).idx = s.idx ∧ (s.panel c v).resumeWord = s.resumeWord ∧ (s.panel c v).inhint = s.inhint ∧
    (s.panel c v).isr = s.isr ∧ (s.panel c v).history = s.history ∧ (s.panel c v).steps = s.steps ∧
    (s.panel c v).lastSelfJump = s.lastSelfJump ∧ (s.panel c v).params = s.params ∧
    (s.panel c v).boundaries = s.boundaries := by
  unfold State.panel
  dsimp only
  split
  · split
    · simp
    · split <;> simp
  · simp

/-- No event touches A, L, Q, the banks, the rope, the history or the record (R340, R350). -/
theorem event_fields (e : Event) :
    (s.event e).a = s.a ∧ (s.event e).l = s.l ∧ (s.event e).q = s.q ∧ (s.event e).eb = s.eb ∧
    (s.event e).fb = s.fb ∧ (s.event e).behind = s.behind ∧ (s.event e).fixed = s.fixed ∧
    (s.event e).history = s.history ∧ (s.event e).steps = s.steps ∧
    (s.event e).lastSelfJump = s.lastSelfJump ∧ (s.event e).params = s.params ∧
    (s.event e).boundaries = s.boundaries := by
  cases e with
  | counter a k => simp only [State.event]; split <;> simp
  | panel c v => simp [State.event]
  | raise n => simp only [State.event]; split <;> simp
  | alarm c => simp only [State.event]; split <;> simp [State.gojam]

/-- A relation that every event keeps is kept by a boundary (R373). -/
theorem boundary_induction {R : State → State → Prop} (hr : ∀ x, R x x) (ht : ∀ x y z, R x y → R y z → R x z)
    (hs : ∀ x es, R x (x.setBoundaries es)) (he : ∀ x e, R x (x.event e)) : R s s.boundary := by
  unfold State.boundary
  cases hb : s.boundaries with
  | nil => exact hr s
  | cons es rest =>
    have hl : ∀ (l : List Event) (x : State), R x (l.foldl State.event x) := by
      intro l
      induction l with
      | nil => exact hr
      | cons e l ih => exact fun x => ht _ _ _ (he x e) (ih _)
    exact ht _ _ _ (hs s rest) (hl es _)

/-! ## The step -/

/-- A step that goes on is an execution, then the retirement, then the boundary (R230). -/
theorem step_next {s t : State} (h : step s = .next t) :
    ∃ u, exec s.nextInstr s.issued = .next u ∧ t = (u.retire s.nextInstr s.issued.z).boundary := by
  unfold step at h
  split at h
  · cases h
  split at h
  · rename_i u hu
    unfold State.finish at h
    split at h <;> cases h
    exact ⟨u, hu, rfl⟩
  · cases h
  · cases h

/-- Only an access through the window under `refuse`, or an index sum that overflows under `refuse`, stops a step before
execute (R65, R108, R232). -/
theorem refusal_some {r : Refusal} (h : s.refusal = some r) :
    (r = .windowE0Low ∧ s.params.windowE0Low = .refuse) ∨
    (r = .indexSumOverflow ∧ s.params.indexSumMode = .refuse ∧ s.idx ≠ none) := by
  unfold State.refusal at h
  split at h
  · rename_i hw
    simp only [State.windowRefuses, Bool.and_eq_true, decide_eq_true_eq] at hw
    cases h
    exact .inl ⟨rfl, hw.2.1⟩
  split at h
  · rename_i hx
    cases h
    refine .inr ⟨rfl, ?_⟩
    unfold State.indexRefuses at hx
    split at hx
    · rename_i hi
      simp only [Bool.and_eq_true, decide_eq_true_eq] at hx
      exact ⟨hx.1, by simp [hi]⟩
    · cases hx
  split at h
  · rename_i hw
    obtain ⟨k, -, hk⟩ := List.any_eq_true.mp hw
    simp only [State.windowRefuses, Bool.and_eq_true, decide_eq_true_eq] at hk
    cases h
    exact .inl ⟨rfl, hk.1⟩
  · cases h

/-- With no parameter `refuse` that a step before execute looks at, nothing stops it there. -/
theorem refusal_none (hw : s.params.windowE0Low ≠ .refuse) (hx : s.params.indexSumMode ≠ .refuse) :
    s.refusal = none := by
  cases h : s.refusal with
  | none => rfl
  | some r => rcases refusal_some s h with ⟨-, e⟩ | ⟨-, e, -⟩ <;> contradiction

/-- The end of a step goes on, or refuses by the window (R230, R232). -/
theorem finish_cases (t : State) :
    (s.entryRefuses t = false ∧ s.finish t = .next (t.retire s.nextInstr s.issued.z).boundary) ∨
    (s.entryRefuses t = true ∧ s.params.windowE0Low = .refuse ∧ s.finish t = .refused .windowE0Low) := by
  cases h : s.entryRefuses t with
  | false => exact .inl ⟨rfl, by simp [State.finish, h]⟩
  | true =>
    refine .inr ⟨rfl, ?_, by simp [State.finish, h]⟩
    simp only [State.entryRefuses, Bool.and_eq_true, decide_eq_true_eq] at h
    exact h.1.1.1.1

/-- Issuing an instruction touches Z and the sequencer flags only. -/
@[simp] theorem issued_fields :
    s.issued.a = s.a ∧ s.issued.l = s.l ∧ s.issued.q = s.q ∧ s.issued.eb = s.eb ∧ s.issued.fb = s.fb ∧
    s.issued.erasable = s.erasable ∧ s.issued.behind = s.behind ∧ s.issued.fixed = s.fixed ∧
    s.issued.chan = s.chan ∧ s.issued.ext = false ∧ s.issued.idx = none ∧ s.issued.resumeWord = none ∧
    s.issued.inhint = s.inhint ∧ s.issued.isr = s.isr ∧ s.issued.pending = s.pending ∧
    s.issued.history = s.history ∧ s.issued.steps = s.steps ∧ s.issued.lastSelfJump = s.lastSelfJump ∧
    s.issued.params = s.params ∧ s.issued.boundaries = s.boundaries := by
  cases h : s.resumeWord <;> simp [State.issued, State.fetchPhase, h]

end Sys2Proof.Machine
end

