-- ==== Sys2Proof/Machine/Timing.lean ====
section
/-! DEFINITION. The memory-cycle counts of R371: informative, as R370 says; the machine has no time (R372) and no step
reads them (log 18). -/

namespace Sys2Proof.Machine

/-- A branch takes one cycle where it is taken and two where it is not (R371). -/
def branchMct (taken : Bool) : Nat := if taken then 1 else 2

/-- The MCT count of an instruction executed in a state (R371). -/
def mct (i : Instr) (s : State) : Nat :=
  match i with
  | .tc _ | .tcf _ | .extend | .inhint | .relint => 1
  | .bzf _ => branchMct (isZero16 s.a)
  | .bzmf _ => branchMct (s.a = plusZero || sign16 s.a)
  | .ccs _ | .lxch _ | .incr _ | .ads _ | .ca _ | .cs _ | .index _ | .indexExt _ | .resume => 2
  | .ts _ | .xch _ | .ad _ | .mask _ => 2
  | .read _ | .write _ | .rand _ | .wand _ | .ror _ | .wor _ | .rxor _ => 2
  | .msu _ | .qxch _ | .aug _ | .dim _ | .su _ => 2
  | .das _ | .dxch _ | .dca _ | .dcs _ | .mp _ | .edrupt _ => 3
  | .dv _ => 6

/-- The MCT count of an interrupt entry (R371). -/
def entryMct : Nat := 3

/-- The MCT count of a counter request (R371). -/
def counterMct : Nat := 1

end Sys2Proof.Machine
end

