-- ==== Sys2Proof/Tests/Slice0.lean ====
section
/-! SUPPORT. Tests of one step each, with values from spec/95_test_vectors.md unless a comment says otherwise; the
refused terms of WellFormed; decoding of words written out from R101 to R107; and for each obligation with hypotheses a witness
that meets them. -/

namespace Sys2Proof.Tests

open Sys2Proof Sys2Proof.Machine

/-- The machine after reset, with A, L and some erasable words given. -/
def start (a l : Word16) (mem : Memory) : State := { State.reset with a := a, l := l, erasable := mem }

/-- One step of a word placed at 04000, in the table `ext` tells. -/
def runWord (ext : Bool) (w : Word15) (s : State) : State :=
  match step { s with ext := ext, fixed := [(2 * 1024, w)] } with
  | .next t => t
  | .fault _ => State.reset
  | .refused _ => State.reset

/-- R7's default parameters, three of which refuse. -/
def refusing : Params := Config.specDefaults

/-- The machine after a cold start with those parameters and one word at 04000. -/
def refuser (w : Word15) : State := { State.cold refusing with fixed := [(2 * 1024, w)] }

/-! ## WellFormed: a term for each check, which it refuses -/

/-- TC 3, 4 and 6 are RELINT, INHINT and EXTEND (R106). -/
theorem test_wf_refuses_tc :
    Instr.wf (.tc 3) = false ∧ Instr.wf (.tc 4) = false ∧ Instr.wf (.tc 6) = false ∧
    Instr.wf (.tc 5) = true := by decide

/-- A target below 02000 has QC 0 (R102). -/
theorem test_wf_refuses_target :
    Instr.wf (.tcf 0o1777) = false ∧ Instr.wf (.bzf 0) = false ∧ Instr.wf (.bzmf 0o1777) = false ∧
    Instr.wf (.tcf 0o2000) = true := by decide

/-- KF has ten bits; KF = 0 names 07777 (R105). -/
theorem test_wf_refuses_pair :
    Instr.wf (.das 0o1777) = false ∧ Instr.wf (.dxch 0o4000) = false ∧ Instr.wf (.das 0o7777) = true ∧
    Instr.wf (.dxch 0o1776) = true := by decide

/-- INDEX 017 is RESUME (R106). -/
theorem test_wf_refuses_index : Instr.wf (.index 0o17) = false ∧ Instr.wf (.index 0o16) = true := by decide

/-! ## Decoding: a word for every constructor, written out from R101 to R107 -/

theorem test_decode_special :
    decode false 0o000003 = .relint ∧
    decode false 0o000004 = .inhint ∧
    decode false 0o000006 = .extend ∧
    decode false 0o050017 = .resume := by decide

theorem test_decode_basic_branches :
    decode false 0o004011 = .tc 0o4011 ∧
    decode false 0o010123 = .ccs 0o123 ∧
    decode false 0o014003 = .tcf 0o4003 ∧
    decode false 0o050123 = .index 0o123 := by decide

theorem test_decode_basic_counts :
    decode false 0o020301 = .das 0o300 ∧
    decode false 0o024024 = .incr 0o24 ∧
    decode false 0o026300 = .ads 0o300 ∧
    decode false 0o064011 = .ad 0o4011 ∧
    decode false 0o074012 = .mask 0o4012 := by decide

theorem test_decode_basic_transfers :
    decode false 0o022123 = .lxch 0o123 ∧
    decode false 0o034005 = .ca 0o4005 ∧
    decode false 0o044006 = .cs 0o4006 ∧
    decode false 0o052301 = .dxch 0o300 ∧
    decode false 0o054124 = .ts 0o124 ∧
    decode false 0o056125 = .xch 0o125 := by decide

theorem test_decode_channels :
    decode true 0o000015 = .read 0o15 ∧
    decode true 0o001010 = .write 0o10 ∧
    decode true 0o002030 = .rand 0o30 ∧
    decode true 0o003013 = .wand 0o13 ∧
    decode true 0o004014 = .ror 0o14 ∧
    decode true 0o005101 = .wor 0o101 ∧
    decode true 0o006033 = .rxor 0o33 ∧
    decode true 0o007000 = .edrupt 0 := by decide

theorem test_decode_extended_arithmetic :
    decode true 0o010123 = .dv 0o123 ∧
    decode true 0o020124 = .msu 0o124 ∧
    decode true 0o024125 = .aug 0o125 ∧
    decode true 0o026126 = .dim 0o126 ∧
    decode true 0o060127 = .su 0o127 ∧
    decode true 0o074011 = .mp 0o4011 := by decide

theorem test_decode_extended_others :
    decode true 0o012000 = .bzf 0o2000 ∧
    decode true 0o022007 = .qxch 7 ∧
    decode true 0o030001 = .dca 0 ∧
    decode true 0o044001 = .dcs 0o4000 ∧
    decode true 0o054000 = .indexExt 0o4000 ∧
    decode true 0o062000 = .bzmf 0o2000 := by decide

/-- S1 of the test vectors. -/
theorem test_decode_vectors :
    decode false 0o000005 = .tc 5 ∧ decode false 0o077777 = .mask 0o7777 ∧ decode true 0o000006 = .read 6 := by decide

/-- Bit 15 of the host's number tells the table (log 13). -/
theorem test_decode_table_word :
    decodeTableWord 16 0o034005 = some (.ca 0o4005) ∧ decodeTableWord 16 0o101010 = some (.write 0o10) ∧
    decodeTableWord 8 0o400 = none := by decide

/-- A number above 077777 is no word (R100). -/
theorem test_decode_number_rejects :
    decodeNumber false 0o100000 = .error .notAWord ∧ decodeNumber true 0o77777 = .ok (.mp 0o7777) := ⟨rfl, rfl⟩

/-- DDOUBL, WRITE 10 and DCOM (R116). -/
theorem test_encode_words :
    encode (.das 0) = (false, 0o020001) ∧ encode (.write 0o10) = (true, 0o001010) ∧
    encode (.dcs 0) = (true, 0o040001) := by decide

/-! ## The adder and the helpers -/

theorem test_add16_vectors :
    add16 0o37777 1 = 0o40000 ∧ add16 0o140000 0o177776 = 0o137777 ∧ add16 5 0o177772 = 0o177777 ∧
    add16 0o177777 1 = 1 := by decide

theorem test_helper_vectors :
    sext16 0o54321 = 0o154321 ∧ sext16 0o12345 = 0o12345 ∧ ovc 0o40003 = 3 ∧ ovc 0o137776 = 0o77776 := by decide

/-! ## Arithmetic and logic -/

theorem test_ad_overflow :
    let t := runWord false 0o060100 (start 0o37777 0 [(0o100, 1)])
    t.a = 0o40000 ∧ t.z = 0o4001 := by decide

theorem test_ad_minus_zero : (runWord false 0o060100 (start 5 0 [(0o100, 0o77772)])).a = 0o177777 := by decide

theorem test_su : (runWord true 0o060100 (start 3 0 [(0o100, 5)])).a = 0o177775 := by decide

theorem test_su_zero : (runWord true 0o060100 (start 0 0 [(0o100, 0)])).a = 0o177777 := by decide

theorem test_ads :
    let t := runWord false 0o026100 (start 1 0 [(0o100, 0o37777)])
    t.a = 0o40000 ∧ t.erasableWord 0o100 = 0 := by decide

theorem test_incr_minus_one :
    (runWord false 0o024100 (start 0 0 [(0o100, 0o77776)])).erasableWord 0o100 = 0o77777 := by decide

theorem test_incr_timer :
    let t := runWord false 0o024026 (start 0 0 [(0o26, 0o37777)])
    t.erasableWord 0o26 = 0 ∧ t.pending.t3rupt = true := by decide

theorem test_aug : (runWord true 0o024100 (start 0 0 [(0o100, 0o77777)])).erasableWord 0o100 = 0o77776 := by decide

theorem test_aug_positive : (runWord true 0o024100 (start 0 0 [(0o100, 0)])).erasableWord 0o100 = 1 := by decide

theorem test_dim : (runWord true 0o026100 (start 0 0 [(0o100, 0o77772)])).erasableWord 0o100 = 0o77773 := by decide

theorem test_dim_minus_zero :
    (runWord true 0o026100 (start 0 0 [(0o100, 0o77777)])).erasableWord 0o100 = 0o77777 := by decide

theorem test_das_carry :
    let t := runWord false 0o020101 (start 0 1 [(0o100, 2), (0o101, 0o37777)])
    t.erasableWord 0o100 = 3 ∧ t.erasableWord 0o101 = 0 ∧ t.a = 0 ∧ t.l = 0 := by decide

theorem test_das_overflow :
    let t := runWord false 0o020101 (start 0o37777 0 [(0o100, 1), (0o101, 0)])
    t.erasableWord 0o100 = 0 ∧ t.a = 1 := by decide

theorem test_ddoubl :
    let t := runWord false 0o020001 (start 0 0o20000 [])
    t.a = 1 ∧ t.l = 0 := by decide

theorem test_msu : (runWord true 0o020100 (start 2 0 [(0o100, 0o77777)])).a = 3 := by decide

theorem test_msu_negative : (runWord true 0o020100 (start 0 0 [(0o100, 1)])).a = 0o177776 := by decide

/-- The vector's A is the 15-bit pattern 077774 of -3 (log 20). -/
theorem test_mp_negative :
    let t := runWord true 0o070100 (start 0o177774 0 [(0o100, 5)])
    t.a = 0o177777 ∧ t.l = 0o177760 := by decide

theorem test_mp_largest :
    let t := runWord true 0o070100 (start 0o37777 0 [(0o100, 0o37777)])
    t.a = 0o37776 ∧ t.l = 1 := by decide

theorem test_dv_negative_divisor :
    let t := runWord true 0o010100 (start 0 0o17 [(0o100, 0o77773)])
    t.a = 0o177774 ∧ t.l = 3 := by decide

theorem test_dv :
    let t := runWord true 0o010100 (start 1 0 [(0o100, 4)])
    t.a = 0o10000 ∧ t.z = 0o4001 := by decide

theorem test_mask : (runWord false 0o070100 (start 0o177777 0 [(0o100, 0o52525)])).a = 0o152525 := by decide

/-! ## Editing registers and re-edit -/

theorem test_edit_vectors :
    edit 0o20 3 = 0o40001 ∧ edit 0o21 0o77776 = 0o77777 ∧ edit 0o22 0o40000 = 1 ∧ edit 0o23 0o12345 = 0o51 := by decide

theorem test_ca_reedits :
    let t := runWord false 0o030020 (start 0 0 [(0o20, 0o40001)])
    t.a = 0o140001 ∧ t.erasableWord 0o20 = 0o60000 := by decide

/-! ## Loads, stores and exchanges -/

theorem test_ca : (runWord false 0o030100 (start 0 0 [(0o100, 0o54321)])).a = 0o154321 := by decide

theorem test_cs : (runWord false 0o040100 (start 0 0 [(0o100, 5)])).a = 0o177772 := by decide

/-- COM of ZERO, 040007. -/
theorem test_cs_zero : (runWord false 0o040007 (start 0 0 [])).a = 0o177777 := by decide

theorem test_ts_overflow :
    let t := runWord false 0o054100 (start 0o40003 0 [])
    t.erasableWord 0o100 = 3 ∧ t.a = 1 ∧ t.z = 0o4002 := by decide

theorem test_ts_tcaa :
    let t := runWord false 0o054005 (start 0o4123 0 [])
    t.z = 0o4123 ∧ t.a = 0o4123 := by decide

theorem test_ovsk :
    let t := runWord false 0o054000 (start 0o40000 0 [])
    t.z = 0o4002 ∧ t.a = 0o40000 := by decide

theorem test_xch :
    let t := runWord false 0o056100 (start 1 0 [(0o100, 2)])
    t.a = 2 ∧ t.erasableWord 0o100 = 1 := by decide

theorem test_lxch :
    let t := runWord false 0o022100 (start 0 4 [(0o100, 0o11)])
    t.l = 0o11 ∧ t.erasableWord 0o100 = 4 := by decide

theorem test_zl : (runWord false 0o022007 (start 0 4 [])).l = 0 := by decide

theorem test_qxch :
    let t := runWord true 0o022100 { start 0 0 [(0o100, 0)] with q := 0o2345 }
    t.q = 0 ∧ t.erasableWord 0o100 = 0o2345 := by decide

theorem test_dca :
    let t := runWord true 0o030101 (start 0 0 [(0o100, 1), (0o101, 2)])
    t.a = 1 ∧ t.l = 2 := by decide

theorem test_dcs :
    let t := runWord true 0o040101 (start 0 0 [(0o100, 1), (0o101, 2)])
    t.a = 0o177776 ∧ t.l = 0o177775 := by decide

theorem test_dxch :
    let t := runWord false 0o052101 (start 1 2 [(0o100, 3), (0o101, 4)])
    t.a = 3 ∧ t.l = 4 ∧ t.erasableWord 0o100 = 1 ∧ t.erasableWord 0o101 = 2 := by decide

/-- The vector, with Z = 04001 after the fetch. -/
theorem test_dtcf :
    let t := runWord false 0o052005 { start 0o12000 0o2100 [] with fb := 3 }
    t.fb = 5 ∧ t.z = 0o2100 ∧ t.a = 0o6000 ∧ t.l = 0o4001 := by decide

/-! ## Control -/

theorem test_tc :
    let t := runWord false 0o004100 (start 0 0 [])
    t.q = 0o4001 ∧ t.z = 0o4100 := by decide

theorem test_tc_q :
    let t := runWord false 0o000002 (start 0 0 [])
    t.q = 0 ∧ t.z = 2 := by decide

theorem test_tcf :
    let t := runWord false 0o012345 (start 0 0 [])
    t.q = 0 ∧ t.z = 0o2345 := by decide

theorem test_ccs_negative :
    let t := runWord false 0o010100 (start 0 0 [(0o100, 0o77772)])
    t.a = 4 ∧ t.z = 0o4003 := by decide

theorem test_ccs_minus_zero :
    let t := runWord false 0o010100 (start 0 0 [(0o100, 0o77777)])
    t.a = 0 ∧ t.z = 0o4004 := by decide

theorem test_bzf : (runWord true 0o012345 (start 0o177777 0 [])).z = 0o2345 := by decide

theorem test_bzf_not : (runWord true 0o012345 (start 0o40000 0 [])).z = 0o4001 := by decide

theorem test_bzmf : (runWord true 0o062345 (start 0o100000 0 [])).z = 0o2345 := by decide

theorem test_bzmf_not : (runWord true 0o062345 (start 1 0 [])).z = 0o4001 := by decide

theorem test_inhint : (runWord false 0o000004 (start 0 0 [])).inhint = true := by decide

theorem test_relint : (runWord false 0o000003 (start 0 0 [])).inhint = false := by decide

theorem test_extend : (runWord false 0o000006 (start 0 0 [])).ext = true := by decide

theorem test_index :
    let t := runWord false 0o050100 (start 0 0 [(0o100, 0o77776)])
    t.idx = some 0o177776 ∧ t.ext = false := by decide

theorem test_index_extended :
    let t := runWord true 0o050100 (start 0 0 [(0o100, 1)])
    t.idx = some 1 ∧ t.ext = true := by decide

/-- The parameters with a way to take an index sum that overflows. -/
def summing (m : OrRefuse IndexSumMode) : Params := { Config.params with indexSumMode := m }

theorem test_indexed_words :
    indexWord (summing (.take .corrected)) 0o34021 2 = 0o34023 ∧
    indexWord (summing (.take .corrected)) 0o34025 0o177776 = 0o34024 ∧
    indexWord (summing (.take .corrected)) 0o34000 0o4000 = 0 ∧
    indexWord (summing (.take .wrap15)) 0o34000 0o4000 = 0o40000 := by decide

/-- An index of -0: the word 000000 by the sum of R108, and as R220's corner case has it; any other word. -/
theorem test_index_minus_zero :
    indexWord { Config.params with indexMinusZero := .bySum } 0 0o177777 = 0o77777 ∧
    indexWord { Config.params with indexMinusZero := .unchanged } 0 0o177777 = 0 ∧
    indexWord Config.params 0 0o177777 = 0o77777 ∧ indexWord Config.params 0o34021 0o177777 = 0o34021 := by decide

theorem test_resume :
    let t := runWord false 0o050017 (start 0 0 [(0o15, 0o4124), (0o17, 0o30100)])
    t.z = 0o4124 ∧ t.resumeWord = some 0o30100 ∧ t.isr = false := by decide

theorem test_resumed_word :
    { State.reset with resumeWord := some 0o30100, z := 0o4124 }.nextInstr = .ca 0o100 := by decide

/-- R223: ZRUPT is the address after the saved word. -/
theorem test_edrupt :
    let t := runWord true 0o007000 (start 0 0 [])
    t.z = 0 ∧ t.isr = true ∧ t.erasableWord 0o15 = 0o4002 := by decide

/-! ## The three refusals, under the parameters that name them -/

theorem test_edrupt_refuses : step { refuser 0o007000 with ext := true } = .refused .edrupt := rfl

/-- INDEX of 004000, then 034000. -/
theorem test_index_refuses : step { refuser 0o34000 with idx := some 0o4000 } = .refused .indexSumOverflow := rfl

/-- Read(01400) with EB = 0, and TS, DXCH into its low end. -/
theorem test_window_refuses :
    step (refuser 0o031400) = .refused .windowE0Low ∧ step (refuser 0o055460) = .refused .windowE0Low ∧
    step (refuser 0o053400) = .refused .windowE0Low := ⟨rfl, rfl, rfl⟩

/-- With EB = 1, or at offset 061, nothing refuses; a fetch in the window does (R65). -/
theorem test_window_goes_on :
    (∃ t, step { refuser 0o031400 with eb := 1 } = .next t) ∧ (∃ t, step (refuser 0o031461) = .next t) ∧
    step { refuser 0 with z := 0o1400 } = .refused .windowE0Low := ⟨⟨_, rfl⟩, ⟨_, rfl⟩, rfl⟩

/-! ## Memory and banks -/

theorem test_fixed_banks :
    { State.reset with fb := 5, chan := [] }.resolve 0o2000 = .fixed (5 * 1024) ∧
    { State.reset with fb := 0o30, chan := [] }.resolve 0o2001 = .fixed (0o30 * 1024 + 1) ∧
    { State.reset with fb := 0o30, chan := [(7, 0o100)] }.resolve 0o2001 = .fixed (0o40 * 1024 + 1) ∧
    { State.reset with fb := 0o27, chan := [(7, 0o100)] }.resolve 0o2001 = .fixed (0o27 * 1024 + 1) ∧
    { State.reset with fb := 0o34, chan := [(7, 0o100)] }.resolve 0o2000 = .missing (0o44 * 1024) ∧
    { State.reset with fb := 5, chan := [] }.resolve 0o6000 = .fixed (3 * 1024) := by decide

theorem test_erasable_banks :
    { State.reset with eb := 3 }.resolve 0o1400 = .erasable (3 * 256) ∧
    { State.reset with eb := 3 }.resolve 0o400 = .erasable 256 ∧
    State.reset.resolve 0o1500 = .erasable 0o100 := by decide

theorem test_bb_write :
    let t := State.reset.write 6 0o12003
    t.fb = 5 ∧ t.eb = 3 ∧ t.read 3 = 0o1400 ∧ t.read 4 = 0o12000 ∧ t.read 6 = 0o12003 := by decide

/-! ## Channels -/

theorem test_read_keyboard :
    let t := runWord true 0o000015 (start 1 0 [])
    t.a = 0 ∧ t.z = 0o4001 := by decide

theorem test_read_idle : (runWord true 0o000030 (start 0 0 [])).a = 0o177777 := by decide

theorem test_write_display :
    let t := runWord true 0o001010 (start 0o12345 0 [])
    t.latch 0o10 = 0o12345 ∧ t.history = [⟨1, 0o10, 0o12345⟩] := by decide

theorem test_write_superbank :
    let t := runWord true 0o001007 (start 0o177 0 [])
    t.latch 7 = 0o160 ∧ t.feb = true ∧ t.history = [⟨1, 7, 0o160⟩] := by decide

theorem test_write_restart_monitor :
    let t := runWord true 0o001077 { start 5 0 [] with chan := [(0o77, 4)] }
    t.latch 0o77 = 0 ∧ t.history = [⟨1, 0o77, 0⟩] := by decide

theorem test_rand :
    let t := runWord true 0o002030 { start 0o77777 0 [] with chan := [(0o30, 0o77770)] }
    t.a = 0o77770 := by decide

theorem test_wand :
    let t := runWord true 0o003011 { start 0o177775 0 [] with chan := [(0o11, 6)] }
    t.a = 4 ∧ t.latch 0o11 = 4 := by decide

theorem test_ror :
    let t := runWord true 0o004013 { start 1 0 [] with chan := [(0o13, 2)] }
    t.a = 3 ∧ t.latch 0o13 = 2 := by decide

theorem test_wor :
    let t := runWord true 0o005013 { start 0o140000 0 [] with chan := [] }
    t.a = 0o140000 ∧ t.latch 0o13 = 0o40000 := by decide

theorem test_rxor :
    let t := runWord true 0o006012 { start 3 0 [] with chan := [(0o12, 1)] }
    t.a = 2 := by decide

/-! ## Counters, interrupts and restart -/

theorem test_pinc_vectors :
    pincWord 5 = (6, false) ∧ pincWord 0o37777 = (0, true) ∧ pincWord 0o77777 = (1, false) := by decide

theorem test_minc_vectors :
    mincWord 0 = (0o77776, false) ∧ mincWord 1 = (0o77777, false) ∧ mincWord 0o40000 = (0o77777, true) := by decide

theorem test_dinc_vectors : dincWord 3 = 2 ∧ dincWord 0o77774 = 0o77775 ∧ dincWord 0o77776 = 0o77777 := by decide

theorem test_time1 :
    let t := (start 0 0 [(0o24, 0o12), (0o25, 0o37777)]).event (.counter 0o25 .pinc)
    t.erasableWord 0o25 = 0 ∧ t.erasableWord 0o24 = 0o13 := by decide

theorem test_time6 :
    let t := { start 0 0 [(0o31, 0)] with chan := [(0o13, 0o40000)] }.event (.counter 0o31 .dinc)
    t.erasableWord 0o31 = 0 ∧ t.latch 0o13 = 0 ∧ t.pending.t6rupt = true := by decide

theorem test_shift_requests :
    ((start 0 0 [(0o45, 0o40001)]).event (.counter 0o45 .shinc)).erasableWord 0o45 = 2 ∧
    ((start 0 0 [(0o45, 1)]).event (.counter 0o45 .shanc)).erasableWord 0o45 = 3 := by decide

theorem test_interrupt_entry :
    let t := { State.reset with inhint := false, z := 0o4105, fixed := [(2 * 1024 + 0o105, 0o14105)],
                                pending := Requests.none.set .t3rupt true }.interruptCheck
    t.z = 0o4014 ∧ t.isr = true ∧ t.erasableWord 0o17 = 0o14105 ∧ t.erasableWord 0o15 = 0o4106 := by decide

theorem test_interrupt_after_resume :
    let t := { State.reset with inhint := false, z := 0o4106, resumeWord := some 0o14105,
                                pending := Requests.none.set .keyrupt1 true }.interruptCheck
    t.z = 0o4024 ∧ t.resumeWord = none ∧ t.erasableWord 0o17 = 0o14105 ∧ t.erasableWord 0o15 = 0o4106 := by decide

theorem test_gojam :
    let t := { State.reset with a := 5, z := 0o4100, chan := [(0o13, 0o40000)] }.gojam .tcTrap
    t.z = 0o4000 ∧ t.inhint = true ∧ t.latch 0o13 = 0 ∧ t.latch 0o77 = 4 ∧ t.a = 5 := by decide

theorem test_load_error :
    coldStart Config.params (List.replicate 36863 0) = .fault .loadError ∧ coldStart Config.params [0o100000] = .fault .loadError := by
  constructor
  · rw [coldStart, loadRope, if_neg (fun h => absurd (List.length_replicate.symm.trans h.1) (by decide))]
  · rfl

/-! ## Reset and the host's placing of a word -/

theorem test_reset :
    State.reset.z = 0o4000 ∧ State.reset.inhint = true ∧ State.reset.latch 0o15 = 0 ∧
    State.reset.latch 0o30 = 0o77777 := by decide

/-- `channel_idle` may be replaced (R248). -/
theorem test_idle_parameter :
    let s := State.cold { Config.params with channelIdle := { Config.channelIdle with c32 := 0o57777 } }
    s.latch 0o32 = 0o57777 ∧ s.latch 0o33 = 0o77777 ∧ s.latch 0o34 = 0 := by decide

theorem test_placed_word :
    (State.reset.withFetchWord 16 0o034005).nextInstr = .ca 0o4005 ∧
    (State.reset.withFetchWord 16 0o101010).nextInstr = .write 0o10 := by decide

/-! ## Witnesses: states and operands that meet the hypotheses of each obligation -/

/-- The machine after reset with the word 034005 (CA 04005) next and no alarm possible. -/
def plain : State := State.reset.withFetchWord 16 0o034005

/-- The machine with every interrupt condition met and two requests pending. -/
def ready : State := { State.reset with inhint := false, pending := (Requests.none.set .t3rupt true).set .keyrupt1 true }

/-- A machine under service. -/
def inService : State := { plain with isr := true, pending := Requests.none.set .keyrupt1 true }

/-- The machine that a step reaches, as its obligations name it. -/
def Reaches (s : State) : Prop := ∃ t, step s = .next t

theorem witness_DecodeOfEncodeIsTheInstruction :
    Instr.wf (.das 0o7777) = true ∧ Instr.wf (.tcf 0o2000) = true ∧ Instr.wf (.tc 0) = true := by decide

/-- The top of each range, and KF = 0. -/
theorem witness_DoubleWordFieldsHoldKPlusOne :
    (0o1776 : Addr12).toNat < 0o1777 ∧ (0o7776 : Addr12).toNat < 0o7777 ∧
    decode false (formatQC 2 0 0) = .das 0o7777 := by decide

theorem witness_StepRunsTheFetchedInstruction :
    plain.resumeWord = none ∧ plain.idx = none ∧ decode plain.ext (plain.fetch .fetch plain.z) = .ca 0o4005 ∧
    plain.params.windowE0Low ≠ .refuse := by decide

/-- Under `refuse`: the word CA 04005, outside the window. -/
theorem witness_StepRunsTheFetchedInstruction_refuse :
    (refuser 0o34005).params.windowE0Low = .refuse ∧ (refuser 0o34005).inLowWindow (refuser 0o34005).z = false ∧
    ∀ k ∈ operandAddrs (.ca 0o4005) ((refuser 0o34005).z + 1), (refuser 0o34005).inLowWindow k = false := by decide

theorem witness_StepIsTheInstructionCycle :
    { plain with resumeWord := some 3, idx := some 1 }.resumeWord = some 3 ∧
    { plain with resumeWord := some 3, idx := some 1 }.idx = some 1 ∧ plain.resumeWord = none ∧ plain.idx = none ∧
    plain.params.windowE0Low ≠ .refuse ∧ plain.params.indexSumMode ≠ .refuse := by decide

/-- Under `refuse`: 034005 with the index 1. -/
theorem witness_StepIsTheInstructionCycle_refuse :
    let s : State := { refuser 0o34005 with idx := some 1 }
    s.params.windowE0Low = .refuse ∧ s.params.indexSumMode = .refuse ∧ s.inLowWindow s.z = false ∧
    (∀ k ∈ operandAddrs (.ca 0o4006) (s.z + 1), s.inLowWindow k = false) ∧
    decode s.ext (indexWord s.params (s.fetch .fetch s.z) 1) = .ca 0o4006 ∧
    ovf (add16 (sext16 (s.fetch .fetch s.z)) 1) = false := by decide

theorem witness_EveryStepContinues :
    State.reset.params.windowE0Low ≠ .refuse ∧ State.reset.params.indexSumMode ≠ .refuse ∧
    State.reset.params.edruptPolicy ≠ .refuse ∧
    step { refuser 0o007000 with ext := true } = .refused .edrupt := ⟨by decide, by decide, by decide, rfl⟩

/-- An overflow and a zero. -/
theorem witness_CounterRequestsCount :
    (start 0 0 [(0o25, 0o37777)]).erasableWord 0o25 = 0o37777 ∧ (start 0 0 [(0o31, 0)]).erasableWord 0o31 = 0 ∧
    (0o24 : Nat) ≠ 0o25 := by decide

theorem witness_IndexedWordIsTheSum :
    { Config.params with indexMinusZero := .bySum }.indexMinusZero = .bySum ∧
    { Config.params with indexMinusZero := .unchanged }.indexMinusZero = .unchanged ∧
    (summing (.take .corrected)).indexSumMode = .take .corrected ∧
    (summing (.take .wrap15)).indexSumMode = .take .wrap15 ∧
    (2 : Word16) ≠ 0o177777 ∧ (0o77777 : Word15) ≠ 0 ∧ ovf (add16 (sext16 0o34021) 2) = false ∧ ovf (add16 (sext16 0o34000) 0o4000) = true ∧ ovf 2 = false ∧
    -16383 ≤ val15 0o34021 + val16 2 ∧ val15 0o34021 + val16 2 ≤ 16383 := by decide

/-- Fetched from memory and handed on by RESUME. -/
theorem witness_IndexedWordIsTheSum_refuse :
    let s : State := { refuser 0o34000 with idx := some 0o4000 }
    s.idx = some 0o4000 ∧ s.params.indexSumMode = .refuse ∧ s.resumeWord = none ∧
    0o34000 = s.fetch .fetch s.z ∧ s.inLowWindow s.z = false ∧
    { s with resumeWord := some 0o34000 }.resumeWord = some 0o34000 := by decide

/-- The channels next to the input channels have no idle value. -/
theorem witness_ResetLeavesTheSpecsValues :
    State.reset = State.cold Config.params ∧ refusing = Config.specDefaults ∧ 0o14 ∉ [0o15, 0o16, 0o30, 0o31, 0o32, 0o33] ∧
    0o34 ∉ [0o15, 0o16, 0o30, 0o31, 0o32, 0o33] := ⟨rfl, rfl, by decide, by decide⟩

theorem witness_EdruptActsLikeAnEntry :
    refusing.edruptPolicy = .refuse ∧ State.reset.params.edruptPolicy = .asRule := by decide

theorem witness_StepKeepsTheInvariant :
    ((start 1 2 [(0o100, 3)]).withFetchWord 16 0o034005).Inv ∧
    Reaches ((start 1 2 [(0o100, 3)]).withFetchWord 16 0o034005) := ⟨by unfold State.Inv; decide, _, rfl⟩

theorem witness_StepKeepsRopeAndParameters : Reaches plain := ⟨_, rfl⟩

/-- An image of each kind; the last word of the last bank. -/
theorem witness_RopeLoadsInBankMajorOrder :
    (∃ image : List Nat, image.length ≠ 36864) ∧ (∃ image : List Nat, ∃ w ∈ image, 0o77777 < w) ∧
    ∃ image : List Nat, image.length = 36864 ∧ (∀ w ∈ image, w ≤ 0o77777) ∧
      image[1024 * 35 + 1023]? = some 0o77777 := by
  refine ⟨⟨[], by decide⟩, ⟨[0o100000], 0o100000, by decide⟩, List.replicate 36864 0o77777,
    List.length_replicate, ?_, ?_⟩
  · intro w h
    exact Nat.le_of_eq (List.eq_of_mem_replicate h)
  · exact List.getElem?_replicate_of_lt (by decide)

theorem witness_ExtAndIndexLastOneInstruction : Reaches plain ∧ plain.params.restartAlarms = false :=
  ⟨⟨_, rfl⟩, rfl⟩

/-- The highest of two requests; no resume word waits. -/
theorem witness_InterruptEntersTheLowestNumber :
    ready.inhint = false ∧ ready.isr = false ∧ ready.ext = false ∧ ready.idx = none ∧ ovf ready.a = false ∧
    ready.pending.get .t3rupt = true ∧
    ∀ m, ready.pending.get m = true → Source.number .t3rupt ≤ m.number := by
  refine ⟨rfl, rfl, rfl, rfl, rfl, rfl, fun m => ?_⟩
  cases m <;> decide

theorem witness_InterruptEntersTheLowestNumber_resume :
    { ready with resumeWord := some 0o14105 }.resumeWord = some 0o14105 ∧
    { ready with resumeWord := some 0o14105 }.idx = none := by decide

/-- Each condition missing on its own. -/
theorem witness_InterruptNeedsAllFiveConditions :
    { ready with inhint := true }.inhint = true ∧ { ready with isr := true }.isr = true ∧
    { ready with ext := true }.ext = true ∧ { ready with idx := some 0 }.idx ≠ none ∧
    ovf { ready with a := 0o40000 }.a = true ∧ ∀ n, Requests.none.get n = false := by
  refine ⟨rfl, rfl, rfl, by decide, rfl, fun n => ?_⟩
  cases n <;> rfl

theorem witness_NoInterruptNests :
    Reaches inService ∧ inService.params.restartAlarms = false ∧ inService.isr = true ∧ inService.nextInstr ≠ .resume :=
  ⟨⟨_, rfl⟩, rfl, rfl, by decide⟩

theorem witness_RequestsStayPendingUntilTaken :
    Reaches inService ∧ inService.params.restartAlarms = false ∧ inService.pending.get .keyrupt1 = true :=
  ⟨⟨_, rfl⟩, rfl, rfl⟩

/-- EXTEND with requests pending and interrupts enabled. -/
theorem witness_ProtectedSequencesTakeNoInterrupt :
    ∃ t u, step (ready.withFetchWord 16 6) = .next t ∧
    exec (ready.withFetchWord 16 6).nextInstr (ready.withFetchWord 16 6).issued = .next u ∧
    (ready.withFetchWord 16 6).params.restartAlarms = false ∧ u.ext = true := ⟨_, _, rfl, rfl, rfl, rfl⟩

/-- INDEX and an overflow. -/
theorem witness_ProtectedSequencesTakeNoInterrupt_others :
    (∃ u, exec (.index 0) ready = .next u ∧ u.idx ≠ none) ∧
    ∃ u, exec (.ad 0) { ready with a := 0o37777 } = .next u ∧ ovf u.a = true :=
  ⟨⟨_, rfl, by decide⟩, _, rfl, by decide⟩

theorem witness_ResumeRestoresTheInterruptedStream :
    ∃ u v, exec .resume u = .next v ∧ u.erasableWord 0o15 = (ready.enter .t3rupt).erasableWord 0o15 ∧
    u.erasableWord 0o17 = (ready.enter .t3rupt).erasableWord 0o17 := ⟨ready.enter .t3rupt, _, rfl, rfl, rfl⟩

theorem witness_ResumeRestoresTheInterruptedStream_resume :
    { ready with resumeWord := some 3 }.resumeWord = some 3 ∧ ready.resumeWord = none := by decide

theorem witness_TimerOverflowHasItsEffect :
    (0o26, Source.t3rupt) ∈ [(0o26, Source.t3rupt), (0o27, Source.t4rupt), (0o30, Source.t5rupt)] ∧
    (0o27 : Nat) ≠ 0o26 ∧ (0o24 : Nat) ≤ 0o30 := by decide

theorem witness_Time6StopsAtZero :
    let on : Word15 → State := fun w => { State.reset with chan := [(0o13, 0o40000)], erasable := [(0o31, w)] }
    (State.reset.latch 0o13).getLsbD 14 = false ∧ ((on 0o77777).latch 0o13).getLsbD 14 = true ∧
    isZero15 ((on 0o77777).erasableWord 0o31) = true ∧ ((on 1).latch 0o13).getLsbD 14 = true ∧
    isZero15 ((on 1).erasableWord 0o31) = false := by decide

theorem witness_HostEventsLatchAndRaise :
    (0o15 : Chan9).toNat ∈ [0o15, 0o16, 0o30, 0o31, 0o32, 0o33] ∧
    (0o14 : Chan9).toNat ∉ [0o15, 0o16, 0o30, 0o31, 0o32, 0o33] ∧
    Source.handrupt ∈ [Source.uprupt, Source.downrupt, Source.radarupt, Source.handrupt] := by decide

theorem witness_AlarmsRestartTheMachine :
    let s : State := { State.reset with params := { Config.params with restartAlarms := true }, isr := true, lastSelfJump := true }
    s.params.restartAlarms = true ∧ s.lastSelfJump = true ∧ s.isr = true ∧ State.reset.params.restartAlarms = false ∧
    State.reset.lastSelfJump = false ∧ State.reset.isr = false := by decide

/-- TCF to itself, fetched and handed on by RESUME; and TCF elsewhere. -/
theorem witness_AlarmsRestartTheMachine_selfJump :
    (runWord false 0o014000 State.reset).lastSelfJump = true ∧
    (runWord false 0o014000 { State.reset with resumeWord := some 0o014000, z := 0o4001 }).lastSelfJump = true ∧
    (runWord false 0o014001 State.reset).lastSelfJump = false := by decide

theorem witness_BoundariesTouchOnlyTheirOwn : State.reset.params.restartAlarms = false := by decide

/-- The values where the clauses meet. -/
theorem witness_AddressesFollowTheMap :
    let hi : State := { State.reset with fb := 0o33, chan := [(7, 0o100)] }
    let top : State := { State.reset with fb := 0o34, chan := [(7, 0o100)] }
    8 ≤ (0o1377 : Addr12).toNat ∧ (0o1377 : Addr12).toNat < 0o1400 ∧
    0o1461 ≤ (0o1461 : Addr12).toNat ∧ (0o1461 : Addr12).toNat < 0o2000 ∧ (0o3777 : Addr12).toNat < 0o4000 ∧
    (hi.latch 7).getLsbD 6 = true ∧ 0o30 ≤ hi.fb.toNat ∧ hi.fb.toNat < 0o34 ∧
    (top.latch 7).getLsbD 6 = true ∧ 0o34 ≤ top.fb.toNat ∧ State.reset.fb.toNat < 0o30 ∧
    (0o5777 : Addr12).toNat < 0o6000 ∧ 0o6000 ≤ (0o6000 : Addr12).toNat := by decide

theorem witness_AddressesFollowTheMap_banks :
    { State.reset with eb := 7 }.eb ≠ 0 ∧ 0o1400 ≤ (0o1400 : Addr12).toNat ∧
    ({ State.reset with fb := 0o37 }.latch 7).getLsbD 6 = false := by decide

theorem witness_LowWindowActsAsItsParameter :
    State.reset.eb = 0 ∧ 0o1400 ≤ (0o1460 : Addr12).toNat ∧ (0o1460 : Addr12).toNat ≤ 0o1460 ∧
    { Config.params with windowE0Low := .take .sameAsDirect }.windowE0Low = .take .sameAsDirect ∧
    { Config.params with windowE0Low := .take .plainStorage }.windowE0Low = .take .plainStorage ∧ (0 : Addr12) ≠ 0o1460 :=
  by decide

/-- Both ends of the window as an operand, at Z, and before an interrupt entry. -/
theorem witness_LowWindowActsAsItsParameter_refuse :
    (refuser 0o031400).nextInstr = .ca 0o1400 ∧ (refuser 0o053400).nextInstr = .dxch (0o1400 - 1) ∧
    (refuser 0o055460).nextInstr = .ts 0o1460 ∧ (refuser 0).indexRefuses = false ∧
    { refuser 0 with ext := true, resumeWord := some 0o7000, z := 0o1460 }.nextInstr = .edrupt 0 ∧
    { refuser 0 with ext := true, resumeWord := some 0o7000, z := 0o1460 }.issued.z = 0o1460 ∧
    ∃ t, exec { ready with params := refusing, resumeWord := some 0o1400 }.nextInstr
        { ready with params := refusing, resumeWord := some 0o1400 }.issued = .next t ∧ refusing.windowE0Low = .refuse ∧
      { ready with params := refusing, resumeWord := some 0o1400 }.indexRefuses = false ∧ t.eb = 0 ∧
      t.z = 0o1400 ∧ t.resumeWord = none ∧ t.enabled = true ∧ t.pending.get .t3rupt = true :=
  ⟨by decide, by decide, by decide, by decide, by decide, by decide, _, rfl, rfl, rfl, rfl, rfl, rfl, rfl, rfl⟩

theorem witness_CentralRegistersReadBack :
    State.reset.params.lIs16bit = false ∧ { Config.params with lIs16bit := true }.lIs16bit = true ∧
    { State.reset with fb := 0o34, chan := [(7, 0o100)] }.resolve 0o2000 = .missing (0o44 * 1024) := by decide

theorem witness_ErasableWordsReadBack :
    0o10 ≤ (0o17 : Addr12).toNat ∧ (0o17 : Addr12).toNat ≤ 0o17 ∧ 0o24 ≤ (0o24 : Addr12).toNat ∧
    (0o1377 : Addr12).toNat < 0o1400 ∧ (0o1777 : Addr12).toNat < 0o2000 ∧ 0o1461 ≤ (0o1777 : Addr12).toNat ∧ (0o23 : Addr12).toNat ≤ 0o23 ∧
    0o20 ≤ (0o20 : Addr12).toNat ∧ 0o2000 ≤ (0o2000 : Addr12).toNat ∧ { State.reset with eb := 1 }.eb ≠ 0 :=
  by decide

/-- An address of each kind of place. -/
theorem witness_ErasableWordsReadBack_places :
    State.reset.resolve 2 = .reg .q ∧ State.reset.resolve 0o100 = .erasable 0o100 ∧
    { State.reset with params := { Config.params with windowE0Low := .take .plainStorage } }.resolve 0o1400 = .behind 0 ∧
    State.reset.resolve 0o4000 = .fixed (2 * 1024) := by decide

/-- The last bank that exists and the first that does not, by FB and by channel 7; both ends of each window. -/
theorem witness_BankWritesActAtOnce :
    let hi : State := { State.reset with fb := 0o33, chan := [(7, 0o100)] }
    let up : State := { hi with fb := 0o34 }
    0o2000 ≤ (0o2000 : Addr12).toNat ∧ (0o3777 : Addr12).toNat < 0o4000 ∧ (hi.latch 7).getLsbD 6 = true ∧
    0o43 = (ovc 0o166777).toNat / 1024 + 8 ∧ 0o44 = (ovc 0o170000).toNat / 1024 + 8 ∧
    0o43 = hi.fb.toNat + 8 ∧ 0o44 = up.fb.toNat + 8 ∧ (0o100 : Word16).getLsbD 6 = true ∧
    0o1400 ≤ (0o1400 : Addr12).toNat ∧ (0o1777 : Addr12).toNat < 0o2000 ∧ 0o1461 ≤ (0o1461 : Addr12).toNat ∧
    (0o400 : Word16).toNat / 256 % 8 ≠ 0 ∧ (1 : Word16).toNat % 8 ≠ 0 := by decide

/-- The two ends of the range. -/
theorem witness_AdderIsExactInRange : ovf 0o37777 = false ∧ ovf 0o140000 = false := by decide

theorem witness_StoringAndNegatingValues : posOvf 0o40000 = true ∧ negOvf 0o137777 = true ∧ ovf 0 = false :=
  by decide

theorem witness_MpMultipliesExactly :
    isZero15 (ovc 0o177777) = true ∧ isZero15 (ovc 0) = true ∧ isZero15 (ovc 0o177774) = false := by decide

theorem witness_DvDividesExactlyOrLeavesAFreePair :
    let s := start 1 0 [(0o100, 4)]
    (val15 (ovc (s.read 0o100)) ≠ 0) ∧
    (val15 (ovc s.a) * 16384 + val15 (ovc s.l)).natAbs < (val15 (ovc (s.read 0o100))).natAbs * 16384 :=
  by decide

theorem witness_CountingInstructionsStoreTheirSum :
    (0o26 : Addr12) = BitVec.setWidth 12 (0o26 : Addr10) ∧ ovf 0o40000 = true ∧
    (start 0 0 [(0o26, 0o37777)]).direct 0o26 = 0o26 ∧
    (start 0 0 [(0o26, 0o37777)]).params.instrCounterOverflow = true := by decide

theorem witness_DimDiminishes :
    val16 ((start 0 0 [(0o100, 0)]).read 0o100) = 0 ∧ 0 < val16 ((start 0 0 [(0o100, 1)]).read 0o100) ∧
    val16 ((start 0 0 [(0o100, 0o77776)]).read 0o100) < 0 ∧
    (val16 ((start 0 0 [(0o100, 0o77776)]).read 0o100)).natAbs = 1 ∧
    { Config.params with dimZeroResult := .adder }.dimZeroResult = .adder := by decide

theorem witness_DasAddsToThePair : (1 : Addr12) ≠ 0 ∧ (0o7777 : Addr12) ≠ 0 := by decide

theorem witness_TsStoresSkipsAndJumps :
    (1 : Addr10) ≠ 0 ∧ (1 : Addr10) ≠ 5 ∧ ovf (start 0o40000 0 []).a = true ∧ ovf (start 0o37777 0 []).a = false ∧
    (start 0 0 []).resolve 0o100 ≠ .reg .a ∧ (start 0 0 []).resolve 0o100 ≠ .reg .z ∧
    { State.reset with params := { Config.params with windowE0Low := .take .sameAsDirect } }.resolve 0o1405 = .reg .z :=
  by decide

theorem witness_JumpsSetZ : (0 : Addr12) ≠ 2 ∧ val16 (start 0o177777 0 []).a = 0 ∧ (start 0 0 []).a = 0 :=
  by decide

theorem witness_CcsCountsAndSkips :
    (start 0 0 [(0o100, 5)]).read (BitVec.setWidth 12 (0o100 : Addr10)) = 5 := by decide

/-- Each list of channels has a member. -/
theorem witness_ChannelReads : (3 : Chan9) = 3 ∨ (3 : Chan9) = 4 := by decide

theorem witness_ChannelReads_lists :
    (0o33 : Chan9).toNat ∈ [0o15, 0o16, 0o30, 0o31, 0o32, 0o33] ∧
    (0o77 : Chan9).toNat ∈ [0o5, 0o6, 0o7, 0o10, 0o11, 0o12, 0o13, 0o14, 0o34, 0o35, 0o77] ∧
    (0o777 : Chan9).toNat ∉ [0o1, 0o2, 0o3, 0o4, 0o5, 0o6, 0o7, 0o10, 0o11, 0o12, 0o13, 0o14, 0o15, 0o16, 0o30, 0o31,
      0o32, 0o33, 0o34, 0o35, 0o77] := by decide

theorem witness_ChannelWrites :
    (4 : Chan9).toNat ∈ [0o1, 0o2, 0o3, 0o4, 0o15, 0o16, 0o30, 0o31, 0o32, 0o33] ∧ (5 : Nat) ≠ (4 : Chan9).toNat ∧
    (0o35 : Chan9).toNat ∉ [0o1, 0o2, 0o3, 0o4, 0o7, 0o15, 0o16, 0o30, 0o31, 0o32, 0o33, 0o77] := by decide

theorem witness_HistoryOnlyGrows :
    Reaches (State.reset.withFetchWord 16 0o101010) ∧
    (State.reset.withFetchWord 16 0o101010).nextInstr = .write 0o10 := ⟨⟨_, rfl⟩, by decide⟩

end Sys2Proof.Tests
end

section
/-! Storing a register value in a memory word, and negating it (R12, R132, R133). -/

namespace Sys2Proof.Proofs

open Sys2Proof.Machine

/-- The sign of a stored word is the true sign of the register (R12). -/
@[simp] theorem sign15_ovc (a : Word16) : sign15 (ovc a) = sign16 a := by
  rw [Bool.eq_iff_iff, sign15_iff, sign16_iff, ovc_toNat]
  split <;> omega

/-- Bits 16..15 are 01: bit 15, worth 16384, is dropped (R132). -/
theorem val15_ovc_of_posOvf {a : Word16} (h : posOvf a = true) : val15 (ovc a) = val16 a - 16384 := by
  obtain ⟨hlo, hhi⟩ := (posOvf_iff a).mp h
  rw [val15_toNat, val16_toNat, ovc_toNat, if_neg (by omega : ¬32768 ≤ a.toNat)]
  split <;> omega

/-- Bits 16..15 are 10: bit 15, a 0 worth -16384 under the negative sign, is dropped (R132). -/
theorem val15_ovc_of_negOvf {a : Word16} (h : negOvf a = true) : val15 (ovc a) = val16 a + 16384 := by
  obtain ⟨hlo, hhi⟩ := (negOvf_iff a).mp h
  rw [val15_toNat, val16_toNat, ovc_toNat, if_pos hlo]
  split <;> omega

/-- Without an overflow the stored word extends back to the register, so it has its value (R12). -/
theorem val15_ovc_of_not_ovf {a : Word16} (h : ovf a = false) : val15 (ovc a) = val16 a := by
  rw [← val16_sext16, sext16_ovc h]

theorem sign16_of_posOvf {a : Word16} (h : posOvf a = true) : sign16 a = false := by
  rw [Bool.eq_false_iff, ne_eq, sign16_iff]
  exact Nat.not_le.mpr ((posOvf_iff a).mp h).2

theorem sign16_of_negOvf {a : Word16} (h : negOvf a = true) : sign16 a = true :=
  (sign16_iff a).mpr ((negOvf_iff a).mp h).1

/-- Complementing the pattern negates the value, the two zeros included (R133). -/
@[simp] theorem val16_neg16 (a : Word16) : val16 (neg16 a) = -val16 a := by
  have h := a.isLt
  rw [val16_toNat, val16_toNat, neg16_toNat]
  split <;> split <;> omega

@[simp] theorem neg16_neg16 (a : Word16) : neg16 (neg16 a) = a := BitVec.not_not

theorem neg16_zero : neg16 0 = 0o177777 := by decide

/-- Settles O39: one lemma for each overflow state of the stored value, and the three laws of the negation. -/
theorem storingAndNegatingValues : Obligations.StoringAndNegatingValues := by
  intro a
  refine ⟨fun hpos => ?_, fun hneg => ?_, fun hno => ?_, val16_neg16 a, neg16_neg16 a, neg16_zero⟩
  · exact ⟨val15_ovc_of_posOvf hpos, (sign15_ovc a).trans (sign16_of_posOvf hpos)⟩
  · exact ⟨val15_ovc_of_negOvf hneg, (sign15_ovc a).trans (sign16_of_negOvf hneg)⟩
  · exact ⟨val15_ovc_of_not_ovf hno, sext16_ovc hno⟩

end Sys2Proof.Proofs
end

section
/-! The invariant through execute and through a whole step (R22, R34, R35, R222, R241, R242). -/

namespace Sys2Proof.Proofs

open Sys2Proof.Machine

variable {s : State}

/-! ## Updates of registers and flags -/

theorem Inv_setA (h : s.Inv) (v : Word16) : (s.setA v).Inv := h

theorem Inv_setQ (h : s.Inv) (v : Word16) : (s.setQ v).Inv := h

theorem Inv_setZ (h : s.Inv) (k : Addr12) : (s.setZ k).Inv := h

theorem Inv_setInhint (h : s.Inv) (b : Bool) : (s.setInhint b).Inv := h

theorem Inv_setL_sext16 (h : s.Inv) (w : Word15) : (s.setL (sext16 w)).Inv :=
  Inv_setL h (.inr (sext16_extended w))

theorem Inv_setL_plusZero (h : s.Inv) : (s.setL plusZero).Inv := Inv_setL h (.inr (by decide))

/-- With no resume word waiting, an extracode may be announced. -/
theorem Inv_setExt (h : s.Inv) (hr : s.resumeWord = none) (b : Bool) : (s.setExt b).Inv :=
  Inv_congr h rfl rfl rfl rfl rfl rfl (by simp [State.resumeOk, hr])

/-- With no resume word waiting, an index may be left pending. -/
theorem Inv_setIdx (h : s.Inv) (hr : s.resumeWord = none) (x : Option Word16) : (s.setIdx x).Inv :=
  Inv_congr h rfl rfl rfl rfl rfl rfl (by simp [State.resumeOk, hr])

/-- The extended INDEX announces an extracode and leaves an index (R221). -/
theorem Inv_indexExt (h : s.Inv) (hr : s.resumeWord = none) (x : Option Word16) : ((s.setIdx x).setExt true).Inv :=
  Inv_setExt (Inv_setIdx h hr x) hr true

/-- With no resume word waiting, an interrupt may come into service. -/
theorem Inv_setIsr (h : s.Inv) (hr : s.resumeWord = none) (b : Bool) : (s.setIsr b).Inv :=
  Inv_congr h rfl rfl rfl rfl rfl rfl (by simp [State.resumeOk, hr])

/-- A resume word may be left where no extracode and no index is pending, the return clearing `isr` (R222). -/
theorem Inv_returnFromInterrupt (h : s.Inv) (hx : s.ext = false) (hi : s.idx = none) : s.returnFromInterrupt.Inv :=
  Inv_congr h rfl rfl rfl rfl rfl rfl (by simp [State.resumeOk, State.returnFromInterrupt, hx, hi])

/-- An issued instruction has used up the resume word, the extracode and the index. -/
theorem Inv_issued (h : s.Inv) : s.issued.Inv :=
  Inv_congr h (by simp) (by simp) (by simp) (by simp) (by simp) (by simp) (by simp [State.resumeOk])

/-! ## The parts of the instructions -/

theorem Inv_counterOverflowCheck (h : s.Inv) (k : Addr12) (sum : Word16) : (s.counterOverflowCheck k sum).Inv :=
  Inv_effectIf h _ _

theorem Inv_storeCount (h : s.Inv) (k : Addr12) (sum : Word16) : (s.storeCount k sum).Inv :=
  Inv_counterOverflowCheck (Inv_write h k sum) k sum

theorem Inv_doubleAL (h : s.Inv) : s.doubleAL.Inv := Inv_setL_sext16 (Inv_setA h _) _

theorem Inv_addPair (h : s.Inv) (k : Addr12) : (s.addPair k).Inv :=
  Inv_setA (Inv_setL_plusZero (Inv_write (Inv_write h _ _) _ _)) _

/-- Both results of a division leave a sign-extended L (R145). -/
theorem Inv_dvResult (h : s.Inv) (x : State) (a l d : Word15) :
    ((s.setA (x.dvResult a l d).1).setL (x.dvResult a l d).2).Inv := by
  unfold State.dvResult
  split <;> exact Inv_setL_sext16 (Inv_setA h _) _

theorem Inv_combineBoth (h : s.Inv) (f : Word16 → Word16 → Word16) (kc : Chan9) : (s.combineBoth f kc).Inv :=
  Inv_chanWrite (Inv_setA h _) kc _

theorem Inv_skipOnOverflow (h : s.Inv) : s.skipOnOverflow.Inv := by
  unfold State.skipOnOverflow
  split
  · exact Inv_setZ h _
  · exact h

theorem Inv_jumpToA (h : s.Inv) : s.jumpToA.Inv := by
  unfold State.jumpToA
  dsimp only
  split
  · exact Inv_setA (Inv_setZ h _) _
  · exact Inv_setZ h _

theorem Inv_storeA (h : s.Inv) (k : Addr12) : (s.storeA k).Inv := by
  unfold State.storeA
  dsimp only
  split
  · exact Inv_setZ (Inv_setA (Inv_write h k _) _) _
  · exact Inv_write h k _

theorem Inv_loadHalf (h : s.Inv) (r : Reg) (f : Word16 → Word16) (k : Addr12) : (s.loadHalf r f k).Inv :=
  Inv_reedit (Inv_writeReg h r _) k

theorem Inv_exchange (h : s.Inv) (r : Reg) (k : Addr12) : (s.exchange r k).Inv :=
  Inv_writeReg (Inv_write h k _) r _

theorem Inv_checkoutEntry (h : s.Inv) (hr : s.resumeWord = none) : s.checkoutEntry.Inv :=
  Inv_setZ (Inv_setIsr (Inv_write (Inv_write h _ _) _ _) (by simpa using hr) true) _

/-! ## Execute and the step -/

/-- Execute keeps the invariant in every state an instruction is issued in. -/
theorem Inv_exec (h : s.Inv) (hr : s.resumeWord = none) (hx : s.ext = false) (hi : s.idx = none) {i : Instr}
    {t : State} (he : exec i s = .next t) : t.Inv := by
  cases i with
  | relint => cases he; exact Inv_setInhint h _
  | inhint => cases he; exact Inv_setInhint h _
  | extend => cases he; exact Inv_setExt h hr _
  | resume => cases he; exact Inv_returnFromInterrupt h hx hi
  | tc k =>
    cases he
    split
    · exact Inv_setZ h _
    · exact Inv_setZ (Inv_setQ h _) _
  | ccs ke => cases he; exact Inv_reedit (Inv_setZ (Inv_setA h _) _) _
  | tcf k => cases he; exact Inv_setZ h _
  | das k =>
    cases he
    split
    · exact Inv_doubleAL h
    · exact Inv_addPair h k
  | lxch ke => cases he; exact Inv_writeReg (Inv_write h _ _) _ _
  | incr ke => cases he; exact Inv_storeCount h _ _
  | ads ke => cases he; exact Inv_counterOverflowCheck (Inv_write (Inv_setA h _) _ _) _ _
  | ca k => cases he; exact Inv_reedit (Inv_setA h _) _
  | cs k => cases he; exact Inv_reedit (Inv_setA h _) _
  | index ke => cases he; exact Inv_reedit (Inv_setIdx h hr _) _
  | dxch k => cases he; exact Inv_exchange (Inv_exchange h _ _) _ _
  | ts ke =>
    cases he
    split
    · exact Inv_skipOnOverflow h
    · split
      · exact Inv_jumpToA h
      · exact Inv_storeA h _
  | xch ke => cases he; exact Inv_setA (Inv_write h _ _) _
  | ad k => cases he; exact Inv_reedit (Inv_setA h _) _
  | mask k => cases he; exact Inv_reedit (Inv_setA h _) _
  | read kc => cases he; exact Inv_setA h _
  | write kc => cases he; exact Inv_chanWrite h _ _
  | rand kc => cases he; exact Inv_setA h _
  | wand kc => cases he; exact Inv_combineBoth h _ _
  | ror kc => cases he; exact Inv_setA h _
  | wor kc => cases he; exact Inv_combineBoth h _ _
  | rxor kc => cases he; exact Inv_setA h _
  | edrupt kc =>
    cases hp : s.params.edruptPolicy <;> simp only [exec, execEdrupt, hp] at he <;> cases he
    exact Inv_checkoutEntry h hr
  | dv ke => cases he; exact Inv_reedit (Inv_dvResult h _ _ _ _) _
  | bzf k =>
    cases he
    split
    · exact Inv_setZ h _
    · exact h
  | msu ke => cases he; exact Inv_reedit (Inv_setA h _) _
  | qxch ke => cases he; exact Inv_writeReg (Inv_write h _ _) _ _
  | aug ke => cases he; exact Inv_storeCount h _ _
  | dim ke => cases he; exact Inv_write h _ _
  | dca k => cases he; exact Inv_loadHalf (Inv_loadHalf h _ _ _) _ _ _
  | dcs k => cases he; exact Inv_loadHalf (Inv_loadHalf h _ _ _) _ _ _
  | indexExt k => cases he; exact Inv_reedit (Inv_indexExt h hr _) _
  | su ke => cases he; exact Inv_reedit (Inv_setA h _) _
  | bzmf k =>
    cases he
    split
    · exact Inv_setZ h _
    · exact h
  | mp k => cases he; exact Inv_reedit (Inv_setL_sext16 (Inv_setA h _) _) _

/-- The interrupt check keeps the invariant; the self-jump bit and the step count are no part of it. -/
theorem Inv_retire (h : s.Inv) (i : Instr) (z : Addr12) : (s.retire i z).Inv :=
  Inv_interruptCheck (s := s.setLastSelfJump (isSelfJump i z)) h

/-- Settles O10, phase by phase: issue, execute, interrupt check, boundary. -/
theorem stepKeepsTheInvariant : Obligations.StepKeepsTheInvariant := by
  intro s t h hstep
  obtain ⟨u, hu, rfl⟩ := step_next hstep
  have hexec : u.Inv := Inv_exec (Inv_issued h) (by simp) (by simp) (by simp) hu
  exact Inv_boundary (Inv_retire hexec _ _)

/-- Settles O11: no memory is written at reset, L is +0 and no resume word waits. -/
theorem resetMeetsTheInvariant : Obligations.ResetMeetsTheInvariant :=
  ⟨rfl, Bool.or_true _, by decide, rfl, rfl⟩

end Sys2Proof.Proofs
end

section
/-! The record of a run, the rope and the parameters through a whole step (R7, R34, R72, R341). -/

namespace Sys2Proof.Proofs

open Sys2Proof.Machine Sys2Proof.Claims

variable (s : State)

/-- TS writes its place, A and Z, never the record (R182). -/
theorem storeA_keepsRecord (k : Addr12) : KeepsRecord s (s.storeA k) := by
  unfold State.storeA
  dsimp only
  split <;> simp [KeepsRecord, State.skip]

theorem skipOnOverflow_keepsRecord : KeepsRecord s s.skipOnOverflow := by
  unfold State.skipOnOverflow
  split <;> simp [KeepsRecord, State.skip]

theorem jumpToA_keepsRecord : KeepsRecord s s.jumpToA := by
  unfold State.jumpToA
  dsimp only
  split <;> simp [KeepsRecord]

variable {s}

/-- No instruction writes fixed memory, a parameter, a count or an event to come: each arm composes operations that
leave them alone. -/
theorem exec_keepsRecord {i : Instr} {t : State} (he : exec i s = .next t) : KeepsRecord s t := by
  cases i
  case edrupt kc =>
    cases hp : s.params.edruptPolicy <;> simp only [exec, execEdrupt, hp] at he <;> cases he
    simp [KeepsRecord, State.checkoutEntry]
  case ts ke =>
    cases he
    split
    · exact skipOnOverflow_keepsRecord s
    · split
      · exact jumpToA_keepsRecord s
      · exact storeA_keepsRecord s _
  case tc | bzf | bzmf => cases he; split <;> simp [KeepsRecord]
  case das => cases he; split <;> simp [KeepsRecord, State.doubleAL, State.addPair]
  case ads | incr | aug => cases he; simp [KeepsRecord, State.storeCount, State.counterOverflowCheck]
  case dxch | dca | dcs => cases he; simp [KeepsRecord, State.exchange, State.loadHalf]
  case rand | ror | rxor | wand | wor => cases he; simp [KeepsRecord, State.combineA, State.combineBoth]
  case ccs | resume => cases he; simp [KeepsRecord, State.skip, State.returnFromInterrupt]
  all_goals cases he; simp [KeepsRecord]

/-- The retirement counts the step (R341) and sets the self-jump bit; an interrupt entry leaves the rest of the record. -/
theorem retire_record (i : Instr) (z : Addr12) :
    (s.retire i z).fixed = s.fixed ∧ (s.retire i z).params = s.params ∧ (s.retire i z).steps = s.steps + 1 := by
  unfold State.retire
  rcases interruptCheck_cases (s.setLastSelfJump (isSelfJump i z)) with e | ⟨n, -, -, e⟩ <;> simp [e]

/-- The agents at a boundary reach neither fixed memory nor the parameters, and count no step. -/
theorem boundary_record :
    s.boundary.fixed = s.fixed ∧ s.boundary.params = s.params ∧ s.boundary.steps = s.steps := by
  refine boundary_induction s
    (R := fun x y => y.fixed = x.fixed ∧ y.params = x.params ∧ y.steps = x.steps) ?_ ?_ ?_ ?_
  · exact fun x => ⟨rfl, rfl, rfl⟩
  · rintro x y z ⟨hf, hp, hs⟩ ⟨hf', hp', hs'⟩
    exact ⟨hf'.trans hf, hp'.trans hp, hs'.trans hs⟩
  · exact fun x es => ⟨rfl, rfl, rfl⟩
  · intro x e
    simp [event_fields]

/-- Settles O12, phase by phase: only the retirement touches one of the three, the step count. -/
theorem stepKeepsRopeAndParameters : Obligations.StepKeepsRopeAndParameters := by
  intro s t hstep
  obtain ⟨u, hu, rfl⟩ := step_next hstep
  obtain ⟨hfixed, hsteps, -, hparams, -⟩ := exec_keepsRecord hu
  simp [boundary_record, retire_record, hfixed, hsteps, hparams]

end Sys2Proof.Proofs
end

section
/-! The central registers: where they stand, what they read as, and what they read as after a write (R20 to R29). -/

namespace Sys2Proof.Proofs

open Sys2Proof.Machine

variable (s : State)

/-! ## Addresses 0 to 7 -/

/-- Outside the low window of bank E0 an address acts as itself (R65). -/
theorem direct_of_outside {k : Addr12} (h : s.eb ≠ 0 ∨ k.toNat < 0o1400 ∨ 0o1461 ≤ k.toNat) : s.direct k = k := by
  have hw : s.inLowWindow k = false := by
    simp only [State.inLowWindow, Bool.and_eq_false_iff, decide_eq_false_iff_not]
    rcases h with he | hlo | hhi
    · exact .inl (.inl he)
    · exact .inl (.inr (by omega))
    · exact .inr (by omega)
  simp [State.direct, hw]

/-- Addresses 0 to 7 are the central registers, whatever the banks (R20, R62). -/
theorem resolve_register {k : Addr12} (hk : k.toNat < 8) : s.resolve k = .reg (regAt k.toNat) := by
  simp [State.resolve, direct_of_outside s (.inr (.inl (show k.toNat < 0o1400 by omega))), hk]

theorem read_register {k : Addr12} (hk : k.toNat < 8) : s.read k = s.readReg (regAt k.toNat) := by
  simp [State.read, State.readAs, resolve_register s hk]

theorem write_register {k : Addr12} (hk : k.toNat < 8) (v : Word16) :
    s.write k v = s.writeReg (regAt k.toNat) v := by
  simp [State.write, resolve_register s hk]

/-- Every address of a central register, as the register it is (R20). -/
theorem read_central : s.read 0 = s.readReg .a ∧ s.read 1 = s.readReg .l ∧ s.read 2 = s.readReg .q ∧
    s.read 3 = s.readReg .eb ∧ s.read 4 = s.readReg .fb ∧ s.read 5 = s.readReg .z ∧ s.read 6 = s.readReg .bb ∧
    s.read 7 = s.readReg .zero := by
  refine ⟨?_, ?_, ?_, ?_, ?_, ?_, ?_, ?_⟩ <;> exact read_register s (by decide)

theorem write_central (v : Word16) : s.write 0 v = s.writeReg .a v ∧ s.write 1 v = s.writeReg .l v ∧
    s.write 2 v = s.writeReg .q v ∧ s.write 3 v = s.writeReg .eb v ∧ s.write 4 v = s.writeReg .fb v ∧
    s.write 5 v = s.writeReg .z v ∧ s.write 6 v = s.writeReg .bb v ∧ s.write 7 v = s.writeReg .zero v := by
  refine ⟨?_, ?_, ?_, ?_, ?_, ?_, ?_, ?_⟩ <;> exact write_register s (by decide) v

/-! ## The values they read as -/

/-- The word FB reads as (R26). -/
def fbWord (fb : BitVec 5) : Word15 := fb ++ 0#10

/-- The word BB reads as (R28). -/
def bbWord (fb : BitVec 5) (eb : BitVec 3) : Word15 := fb ++ (0#7 ++ eb)

theorem readReg_fb : s.readReg .fb = sext16 (fbWord s.fb) := rfl

theorem readReg_bb : s.readReg .bb = sext16 (bbWord s.fb s.eb) := rfl

theorem append_toNat {m n : Nat} (x : BitVec m) (y : BitVec n) : (x ++ y).toNat = x.toNat * 2 ^ n + y.toNat := by
  rw [BitVec.toNat_append, ← Nat.shiftLeft_add_eq_or_of_lt y.isLt, Nat.shiftLeft_eq]

theorem fbWord_toNat (fb : BitVec 5) : (fbWord fb).toNat = 1024 * fb.toNat := by
  simp only [fbWord, append_toNat, BitVec.toNat_ofNat]
  omega

theorem bbWord_toNat (fb : BitVec 5) (eb : BitVec 3) : (bbWord fb eb).toNat = 1024 * fb.toNat + eb.toNat := by
  simp only [bbWord, append_toNat, BitVec.toNat_ofNat]
  omega

theorem readReg_eb_toNat : (s.readReg .eb).toNat = 256 * s.eb.toNat := by
  have := s.eb.isLt
  simp only [State.readReg, sext16_toNat, append_toNat, BitVec.toNat_ofNat]
  split <;> omega

theorem readReg_z_toNat : (s.readReg .z).toNat = s.z.toNat := by
  have := s.z.isLt
  simp only [State.readReg, zext16, BitVec.toNat_setWidth]
  omega

/-! ## The fields of BB's word -/

/-- The word of BB is that of FB with the bits of EB at its low end (R28). -/
theorem bbWord_eq_or (fb : BitVec 5) (eb : BitVec 3) : bbWord fb eb = fbWord fb ||| eb.setWidth 15 := by
  apply BitVec.eq_of_getLsbD_eq
  intro i hi
  simp only [bbWord, fbWord, BitVec.getLsbD_or, BitVec.getLsbD_append, BitVec.getLsbD_setWidth]
  interval_cases i <;> simp

theorem bbWord_and_high (fb : BitVec 5) (eb : BitVec 3) : bbWord fb eb &&& 0o076000 = fbWord fb := by
  apply BitVec.eq_of_getLsbD_eq
  intro i hi
  simp only [bbWord, fbWord, BitVec.getLsbD_and, BitVec.getLsbD_append]
  interval_cases i <;> simp

theorem bbWord_and_low (fb : BitVec 5) (eb : BitVec 3) : bbWord fb eb &&& 7 = eb.setWidth 15 := by
  apply BitVec.eq_of_getLsbD_eq
  intro i hi
  simp only [bbWord, BitVec.getLsbD_and, BitVec.getLsbD_append, BitVec.getLsbD_setWidth]
  interval_cases i <;> simp

variable (v : Word16)

/-- FB takes bits 15 to 11 of the corrected value (R26). -/
theorem fbWord_fbField : fbWord (fbField v) = ovc v &&& 0o076000 := by
  apply BitVec.eq_of_getLsbD_eq
  intro i hi
  simp only [fbWord, fbField, BitVec.getLsbD_and, BitVec.getLsbD_append, BitVec.getLsbD_extractLsb']
  interval_cases i <;> simp

/-- BB takes the low three bits into EB, which the correction leaves alone (R28). -/
theorem ovc_and_low : ovc v &&& 7 = (v.extractLsb' 0 3).setWidth 15 := by
  apply BitVec.eq_of_getLsbD_eq
  intro i hi
  simp only [ovc, BitVec.getLsbD_and, BitVec.getLsbD_append, BitVec.getLsbD_extractLsb', BitVec.getLsbD_setWidth]
  interval_cases i <;> simp

/-- The bits a write to EB takes, moved to where BB shows them (R25, R28). -/
theorem ovc_shift_and_low : ovc (v >>> 8) &&& 7 = (v.extractLsb' 8 3).setWidth 15 := by
  rw [ovc_and_low]
  rfl

/-! ## The values they read as after a write -/

theorem readReg_writeReg_l : (s.writeReg .l v).readReg .l = if s.params.lIs16bit then v else sext16 (ovc v) := rfl

theorem readReg_writeReg_eb : (s.writeReg .eb v).readReg .eb = v &&& 0o003400 := by
  apply BitVec.eq_of_getLsbD_eq
  intro i hi
  simp only [State.readReg, State.writeReg, State.setEb, sext16, BitVec.getLsbD_and, BitVec.getLsbD_append,
    BitVec.getLsbD_extractLsb']
  interval_cases i <;> simp

theorem readReg_writeReg_z : (s.writeReg .z v).readReg .z = v &&& 0o007777 := by
  apply BitVec.eq_of_getLsbD_eq
  intro i hi
  simp only [State.readReg, State.writeReg, State.setZ, zext16, low12, BitVec.getLsbD_and, BitVec.getLsbD_setWidth,
    BitVec.getLsbD_extractLsb']
  interval_cases i <;> simp

theorem readReg_writeReg_fb : (s.writeReg .fb v).readReg .fb = sext16 (ovc v &&& 0o076000) :=
  congrArg sext16 (fbWord_fbField v)

theorem readReg_writeReg_bb : (s.writeReg .bb v).readReg .bb = sext16 (ovc v &&& 0o076007) := by
  refine congrArg sext16 (?_ : bbWord (fbField v) (v.extractLsb' 0 3) = _)
  rw [bbWord_eq_or, fbWord_fbField, ← ovc_and_low, ← BitVec.and_or_distrib_left]
  rfl

/-! ## EB, FB and BB through each other -/

theorem readReg_eb_writeReg_bb : (s.writeReg .bb v).readReg .eb = (v &&& 7) <<< 8 := by
  apply BitVec.eq_of_getLsbD_eq
  intro i hi
  simp only [State.readReg, State.writeReg, State.setEb, sext16, BitVec.getLsbD_and, BitVec.getLsbD_append,
    BitVec.getLsbD_extractLsb', BitVec.getLsbD_shiftLeft]
  interval_cases i <;> simp

theorem readReg_fb_writeReg_bb : (s.writeReg .bb v).readReg .fb = sext16 (ovc v &&& 0o076000) :=
  congrArg sext16 (fbWord_fbField v)

theorem readReg_bb_writeReg_fb :
    (s.writeReg .fb v).readReg .bb = sext16 ((ovc v &&& 0o076000) ||| (ovc (s.readReg .bb) &&& 7)) := by
  rw [readReg_bb s, ovc_sext16, bbWord_and_low, ← fbWord_fbField, ← bbWord_eq_or]
  rfl

theorem readReg_bb_writeReg_eb :
    (s.writeReg .eb v).readReg .bb = sext16 ((ovc (s.readReg .bb) &&& (0o076000 : Word15)) ||| (ovc (v >>> 8) &&& 7)) := by
  rw [readReg_bb s, ovc_sext16, bbWord_and_high, ovc_shift_and_low, ← bbWord_eq_or]
  rfl

/-- Settles O33: addresses 0 to 7 are the registers by name, each of which has its lemma above. -/
theorem centralRegistersReadBack : Obligations.CentralRegistersReadBack := by
  intro s v
  simp only [read_central, write_central]
  refine ⟨rfl, rfl, rfl, readReg_eb_toNat s, ?_, readReg_z_toNat s, ?_, ovf_sext16 _, ovf_sext16 _,
    fun k a hk u => by simp [State.readAs, hk], rfl, fun hl => by simp [readReg_writeReg_l, hl],
    fun hl => by simp [readReg_writeReg_l, hl], rfl, readReg_writeReg_eb s v, readReg_writeReg_fb s v,
    readReg_writeReg_z s v, readReg_writeReg_bb s v, rfl, rfl, rfl, rfl, readReg_fb_writeReg_bb s v,
    readReg_eb_writeReg_bb s v, readReg_bb_writeReg_fb s v, readReg_bb_writeReg_eb s v⟩
  · rw [readReg_fb, ovc_sext16, fbWord_toNat]
  · rw [readReg_bb, ovc_sext16, bbWord_toNat]

end Sys2Proof.Proofs
end

section
/-! Erasable and fixed words: the edits of the editing registers, and words read back after a write (R31, R33, R70, R72). -/

namespace Sys2Proof.Proofs

open Sys2Proof.Machine

/-! ## The four edits as arithmetic -/

theorem edit_cyr_toNat (w : Word15) : (edit 0o20 w).toNat = w.toNat / 2 + 16384 * (w.toNat % 2) := by
  have := w.isLt
  simp only [edit, append_toNat, BitVec.extractLsb'_toNat, Nat.shiftRight_eq_div_pow]
  omega

theorem edit_sr_toNat (w : Word15) : (edit 0o21 w).toNat = w.toNat / 2 + 16384 * (w.toNat / 16384) := by
  have := w.isLt
  simp only [edit, append_toNat, BitVec.extractLsb'_toNat, Nat.shiftRight_eq_div_pow]
  omega

theorem edit_cyl_toNat (w : Word15) : (edit 0o22 w).toNat = 2 * (w.toNat % 16384) + w.toNat / 16384 := by
  have := w.isLt
  simp only [edit, append_toNat, BitVec.extractLsb'_toNat, Nat.shiftRight_eq_div_pow]
  omega

theorem edit_edop_toNat (w : Word15) : (edit 0o23 w).toNat = w.toNat / 128 % 128 := by
  simp only [edit, append_toNat, BitVec.extractLsb'_toNat, Nat.shiftRight_eq_div_pow, BitVec.toNat_ofNat]
  omega

/-- Every other word is stored as it is (R31). -/
theorem edit_ordinary {a : Nat} (h : ¬(0o20 ≤ a ∧ a ≤ 0o23)) (w : Word15) : edit a w = w := by
  unfold edit
  split
  · omega
  · omega
  · omega
  · omega
  · rfl

/-! ## Where the words of a plain address stand -/

variable (s : State)

/-- A place of erasable memory that is neither an editing register nor in the low window is an ordinary word (R62, R63). -/
theorem resolve_ordinary {k : Addr12} (h : (0o10 ≤ k.toNat ∧ k.toNat ≤ 0o17) ∨ (0o24 ≤ k.toNat ∧ k.toNat < 0o1400) ∨
    (0o1400 ≤ k.toNat ∧ k.toNat < 0o2000 ∧ (s.eb ≠ 0 ∨ 0o1461 ≤ k.toNat))) :
    ∃ a, s.resolve k = .erasable a ∧ ¬(0o20 ≤ a ∧ a ≤ 0o23) := by
  rcases h with hlow | hmid | ⟨hlo, hhi, hout⟩
  · exact ⟨k.toNat, resolve_unswitched s hlow.1 (by omega), by omega⟩
  · exact ⟨k.toNat, resolve_unswitched s (by omega) hmid.2, by omega⟩
  · have hw : ¬(s.eb = 0 ∧ k.toNat - 0o1400 < 0o61) := fun hc => hout.elim (· hc.1) (by omega)
    have hd : s.direct k = k := direct_of_outside s (hout.imp_right .inr)
    have he : 0 < s.eb.toNat ∨ 0o1461 ≤ k.toNat :=
      hout.imp_left fun hne => Nat.pos_of_ne_zero fun h0 => hne (BitVec.eq_of_toNat_eq h0)
    refine ⟨s.eb.toNat * 256 + (k.toNat - 0o1400), ?_, by omega⟩
    simp only [State.resolve, State.erasableLoc, hd, if_neg hw]
    grind

/-- From 02000 on an address leads to fixed memory or to a missing bank (R62, R64). -/
theorem resolve_fixed {k : Addr12} (hk : 0o2000 ≤ k.toNat) : ∃ a, s.resolve k = .fixed a ∨ s.resolve k = .missing a := by
  have hd : s.direct k = k := direct_of_outside s (.inr (.inr (by omega)))
  have h8 : ¬k.toNat < 8 := by omega
  have h2000 : ¬k.toNat < 0o2000 := by omega
  simp only [State.resolve, hd, if_neg h8, if_neg h2000, State.fixedLoc]
  split
  · split <;> simp
  · split <;> simp

/-! ## Reading and writing them -/

theorem read_of_erasable {k : Addr12} {a : Nat} (hk : s.resolve k = .erasable a) :
    s.read k = sext16 (s.erasableWord a) := by
  simp [State.read, State.readAs, hk]

/-- An erasable word reads back what its address stores of the corrected value (R31, R33). -/
theorem read_write_of_erasable {k : Addr12} {a : Nat} (hk : s.resolve k = .erasable a) (v : Word16) :
    (s.write k v).read k = sext16 (edit a (ovc v)) := by
  have hw : s.write k v = s.putErasable a (edit a (ovc v)) := by simp [State.write, hk]
  have hk' : (s.putErasable a (edit a (ovc v))).resolve k = .erasable a :=
    (resolve_congr rfl rfl rfl rfl k).trans hk
  rw [hw, read_of_erasable _ hk', erasableWord_putErasable, if_pos rfl]

/-- A write to 010 to 01377 stores the edited word at that address (R31, R33). -/
theorem erasableWord_write_unswitched {k : Addr12} {n : Nat} (hn : k.toNat = n) (v : Word16) (h1 : 8 ≤ n)
    (h2 : n < 0o1400) : (s.write k v).erasableWord n = edit n (ovc v) := by
  subst hn
  rw [write_unswitched s v h1 h2, erasableWord_putErasable, if_pos rfl]

theorem write_of_fixed {k : Addr12} (v : Word16) (hk : 0o2000 ≤ k.toNat) : s.write k v = s := by
  obtain ⟨a, h | h⟩ := resolve_fixed s hk <;> simp [State.write, h]

/-- Settles O34: reads by place are the branches of Read; the edits and the words read back have their lemmas above. -/
theorem erasableWordsReadBack : Obligations.ErasableWordsReadBack := by
  intro s k v
  refine ⟨fun r h u => by simp [State.readAs, h], fun a h u => by simp [State.readAs, h],
    fun o h u => by simp [State.readAs, h], fun a h u => by simp [State.readAs, h], rfl, fun u => rfl, ?_, ?_, ?_, ?_,
    fun h1 h2 => read_unswitched s (by omega) (by omega), fun h => ?_, write_of_fixed s v⟩
  · rw [erasableWord_write_unswitched s (n := 0o20) rfl v (by decide) (by decide), edit_cyr_toNat]
  · rw [erasableWord_write_unswitched s (n := 0o21) rfl v (by decide) (by decide), edit_sr_toNat]
  · rw [erasableWord_write_unswitched s (n := 0o22) rfl v (by decide) (by decide), edit_cyl_toNat]
  · rw [erasableWord_write_unswitched s (n := 0o23) rfl v (by decide) (by decide), edit_edop_toNat]
  · obtain ⟨a, ha, hplain⟩ := resolve_ordinary s h
    constructor
    · rw [read_of_erasable s ha, ovc_sext16]
    · rw [read_write_of_erasable s ha, edit_ordinary hplain]

end Sys2Proof.Proofs
end

section
/-! The machine after a cold start (R40, R248, R7). -/

namespace Sys2Proof.Proofs

open Sys2Proof.Machine

/-- No latch is listed at a cold start, so each reads as its cold-start value. -/
theorem latch_cold (p : Params) (c : Nat) : (State.cold p).latch c = p.channelReset c := rfl

/-- BB reads +0 at a cold start, since EB and FB do (R28, R40). -/
theorem read_bb_cold (p : Params) : (State.cold p).read 6 = 0 := by
  have hbb : (State.cold p).read 6 = sext16 (bbWord 0 0) := by
    simp only [read_central, readReg_bb]
    rfl
  exact hbb.trans (by decide)

/-- Every channel but the six input channels is +0 at a cold start (R40). -/
theorem channelReset_of_not_input (p : Params) {c : Nat} (hc : c ∉ [0o15, 0o16, 0o30, 0o31, 0o32, 0o33]) :
    p.channelReset c = 0 := by
  unfold Params.channelReset
  split
  iterate 6 exact absurd (by decide) hc
  rfl

/-- R248's default: the discretes of 030 to 033 idle at ones, every other channel at zeros. -/
theorem channelReset_default (c : Nat) :
    Config.params.channelReset c = if 0o30 ≤ c ∧ c ≤ 0o33 then 0o77777 else 0 := by
  by_cases hc : c ∈ [0o15, 0o16, 0o30, 0o31, 0o32, 0o33]
  · simp only [List.mem_cons, List.not_mem_nil, or_false] at hc
    rcases hc with rfl | rfl | rfl | rfl | rfl | rfl <;> rfl
  · rw [channelReset_of_not_input _ hc, if_neg]
    intro h
    simp only [List.mem_cons, List.not_mem_nil, or_false] at hc
    omega

/-- Settles O13: the values of State.cold and of R7's defaults as written, and the latches by the two lemmas above. -/
theorem resetLeavesTheSpecsValues : Obligations.ResetLeavesTheSpecsValues := by
  refine ⟨?_, rfl, channelReset_default, ?_, rfl⟩
  · rintro p _ rfl
    refine ⟨rfl, rfl, rfl, rfl, rfl, read_bb_cold p, rfl, rfl, rfl, rfl, rfl, rfl, requests_get_none,
      fun _ => rfl, fun _ => rfl, fun _ => rfl, rfl, rfl, rfl, rfl, rfl, rfl, rfl, rfl, rfl, rfl, rfl, fun c hc => ?_⟩
    exact (latch_cold p c).trans (channelReset_of_not_input p hc)
  · rintro _ rfl
    exact ⟨rfl, rfl, rfl, rfl, rfl, rfl, rfl, rfl, rfl, rfl, rfl, rfl, rfl⟩

end Sys2Proof.Proofs
end

section
/-! Where every address leads, and the bank a write selects for the next access (R62 to R66, R362). -/

namespace Sys2Proof.Proofs

open Sys2Proof.Machine

variable (s : State) {k : Addr12}

/-! ## The map of addresses -/

/-- The fixed bank of FB and the superbank bit: eight more from bank 030 on (R64). -/
theorem fbank_eq (fb : BitVec 5) (feb : Bool) :
    fbank fb feb = fb.toNat + if 0o30 ≤ fb.toNat ∧ feb = true then 8 else 0 := by
  unfold fbank
  split <;> rfl

/-- An address of the erasable window that acts as itself leads to a word behind bank E0 or to bank EB (R62, R65). -/
theorem resolve_window (h1 : 0o1400 ≤ k.toNat) (h2 : k.toNat < 0o2000) (hd : s.direct k = k) : s.resolve k =
    if s.eb = 0 ∧ k.toNat - 0o1400 < 0o61 then .behind (k.toNat - 0o1400)
    else .erasable (256 * s.eb.toNat + (k.toNat - 0o1400)) := by
  simp only [State.resolve, State.erasableLoc, hd, if_neg (show ¬k.toNat < 8 by omega), if_pos h2,
    if_neg (show ¬k.toNat < 0o400 by omega), if_neg (show ¬k.toNat < 0o1000 by omega),
    if_neg (show ¬k.toNat < 0o1400 by omega), Nat.mul_comm s.eb.toNat]

/-- An address of the erasable window outside the low window leads to bank EB (R62, R63). -/
theorem resolve_erasableWindow (h1 : 0o1400 ≤ k.toNat) (h2 : k.toNat < 0o2000) (hout : s.eb ≠ 0 ∨ 0o1461 ≤ k.toNat) :
    s.resolve k = .erasable (256 * s.eb.toNat + (k.toNat - 0o1400)) := by
  rw [resolve_window s h1 h2 (direct_of_outside s (hout.imp_right .inr)), if_neg]
  rintro ⟨heb, hlow⟩
  exact hout.elim (· heb) (by omega)

/-- From 02000 on an address leads to fixed memory, whatever EB is (R62). -/
theorem resolve_eq_fixedLoc (hk : 0o2000 ≤ k.toNat) : s.resolve k = s.fixedLoc k.toNat := by
  have hd : s.direct k = k := direct_of_outside s (.inr (.inr (by omega)))
  simp only [State.resolve, hd, if_neg (show ¬k.toNat < 8 by omega), if_neg (show ¬k.toNat < 0o2000 by omega)]

/-- An address of the fixed window leads to the bank of FB and the superbank bit, if there is one (R62, R64). -/
theorem resolve_fixedWindow (h1 : 0o2000 ≤ k.toNat) (h2 : k.toNat < 0o4000) {b : Nat} (hb : b = fbank s.fb s.feb) :
    (b < 36 → s.resolve k = .fixed (1024 * b + (k.toNat - 0o2000))) ∧
    (36 ≤ b → s.resolve k = .missing (1024 * b + (k.toNat - 0o2000))) := by
  rw [resolve_eq_fixedLoc s h1, State.fixedLoc, if_pos h2, ← hb, Nat.mul_comm b]
  exact ⟨fun hlt => if_pos hlt, fun hge => if_neg (Nat.not_lt.mpr hge)⟩

/-- Settles O31: each clause is a range of the map above; the bank of the fixed window follows from R64's rule. -/
theorem addressesFollowTheMap : Obligations.AddressesFollowTheMap := by
  intro s k
  have hfb := s.fb.isLt
  have hbank : fbank s.fb s.feb = s.fb.toNat + if 0o30 ≤ s.fb.toNat ∧ (s.latch 7).getLsbD 6 = true then 8 else 0 :=
    fbank_eq s.fb s.feb
  refine ⟨?_, ?_, ?_, ?_, ?_, ?_, ?_, ?_, resolve_unswitched s, resolve_erasableWindow s, fun h1 h2 hlow => ?_,
    fun h1 h2 hlo hhi hsup => ?_, fun h1 h2 htop hsup => ?_, fun h1 h2 => ?_, fun h1 => ?_⟩
  iterate 8 exact resolve_register s (by decide)
  · have hb : s.fb.toNat = fbank s.fb s.feb := by
      rw [hbank, if_neg]
      · rfl
      · rintro ⟨hge, hsup⟩
        exact hlow.elim (by omega) (by simp [hsup])
    exact (resolve_fixedWindow s h1 h2 hb).1 (by omega)
  · rw [if_pos ⟨hlo, hsup⟩] at hbank
    exact (resolve_fixedWindow s h1 h2 hbank.symm).1 (by omega)
  · rw [if_pos ⟨by omega, hsup⟩] at hbank
    exact (resolve_fixedWindow s h1 h2 hbank.symm).2 (by omega)
  · rw [resolve_eq_fixedLoc s (by omega), State.fixedLoc, if_neg (by omega), if_pos h2]
  · rw [resolve_eq_fixedLoc s (by omega), State.fixedLoc, if_neg (by omega), if_neg (by omega)]

/-! ## The bank fields a write leaves -/

/-- The bits FB and BB take are the top five of the corrected value (R26, R28). -/
theorem fbField_toNat (v : Word16) : (fbField v).toNat = (ovc v).toNat / 1024 := by
  have := (ovc v).isLt
  simp only [fbField, BitVec.extractLsb'_toNat, Nat.shiftRight_eq_div_pow]
  omega

/-- The value a write to EB stores (R25). -/
theorem eb_writeReg_eb_toNat (v : Word16) : (s.writeReg .eb v).eb.toNat = v.toNat / 256 % 8 := by
  simp only [State.writeReg, State.setEb, BitVec.extractLsb'_toNat, Nat.shiftRight_eq_div_pow]

/-- The value a write to BB stores in EB (R28). -/
theorem eb_writeReg_bb_toNat (v : Word16) : (s.writeReg .bb v).eb.toNat = v.toNat % 8 := by
  simp only [State.writeReg, State.setEb, BitVec.extractLsb'_toNat, Nat.shiftRight_zero]

/-- A register write leaves the superbank bit alone. -/
@[simp] theorem feb_writeReg (r : Reg) (v : Word16) : (s.writeReg r v).feb = s.feb := by
  simp [State.feb]

/-- A channel 7 write keeps bit 7 of the value, the superbank bit, in its mask (R242, R362). -/
theorem feb_chanWrite_superbank (v : Word16) : (s.chanWrite 7 v).feb = v.getLsbD 6 := by
  have hlatch : (s.chanWrite 7 v).latch 7 = ovc v &&& 0o000160 := (latch_output s 7 _ 7).trans (if_pos rfl)
  rw [State.feb, hlatch]
  simp only [ovc, BitVec.getLsbD_and, BitVec.getLsbD_append, BitVec.getLsbD_extractLsb']
  simp

/-- After a write that stores `e` in EB, the erasable window leads to bank `e` (R63, R66). -/
theorem resolve_erasableWindow_of_eb {e : Nat} (he : s.eb.toNat = e) (h1 : 0o1400 ≤ k.toNat) (h2 : k.toNat < 0o2000)
    (hout : e ≠ 0 ∨ 0o1461 ≤ k.toNat) : s.resolve k = .erasable (256 * e + (k.toNat - 0o1400)) := by
  subst he
  exact resolve_erasableWindow s h1 h2 (hout.imp_left fun hne h0 => hne (by rw [h0]; rfl))

/-- Settles O36: the bank that the map above reads off the new state is the one the write stored. -/
theorem bankWritesActAtOnce : Obligations.BankWritesActAtOnce := by
  intro s k v
  simp only [write_central]
  refine ⟨fun b hb h1 h2 => ?_, fun h1 h2 => ⟨fun hout => ?_, fun hout => ?_⟩, fun b hb h1 h2 => ?_⟩
  · rw [← fbField_toNat] at hb
    have hbank : b = fbank (fbField v) s.feb := hb.trans (fbank_eq _ _).symm
    have hfb := resolve_fixedWindow (s.writeReg .fb v) h1 h2 (b := b) (by rw [feb_writeReg]; exact hbank)
    have hbb := resolve_fixedWindow (s.writeReg .bb v) h1 h2 (b := b) (by rw [feb_writeReg]; exact hbank)
    exact ⟨fun hlt => ⟨hfb.1 hlt, hbb.1 hlt⟩, fun hge => ⟨hfb.2 hge, hbb.2 hge⟩⟩
  · exact resolve_erasableWindow_of_eb _ (eb_writeReg_eb_toNat s v) h1 h2 hout
  · exact resolve_erasableWindow_of_eb _ (eb_writeReg_bb_toNat s v) h1 h2 hout
  · refine resolve_fixedWindow _ h1 h2 ?_
    rw [hb, fbank_eq, feb_chanWrite_superbank]
    simp

end Sys2Proof.Proofs
end

section
/-! A write changes one place and nothing else (R71, R72, R78). -/

namespace Sys2Proof.Proofs

open Sys2Proof.Machine Sys2Proof.Claims

variable (s : State)

/-- A write touches no sequencer flag, channel or record, and no request (R71). -/
theorem write_keepsRest (k : Addr12) (v : Word16) : KeepsRest s (s.write k v) ∧ (s.write k v).pending = s.pending := by
  simp [KeepsRest, KeepsSequencer, KeepsChannels, KeepsRecord]

/-- A register holds what was written to it, in its own form (R21 to R29). -/
theorem writeReg_placeHolds (r : Reg) (v : Word16) : PlaceHolds s (s.writeReg r v) (.reg r) v := by
  cases r
  case bb => exact ⟨rfl, rfl⟩
  case zero => trivial
  all_goals rfl

/-- A register write changes its own register, where BB is EB and FB together (R28). -/
theorem writeReg_keepsPlaces (r : Reg) (v : Word16) : KeepsPlacesBut (fun x => x = .reg r) s (s.writeReg r v) := by
  cases r <;> simp [KeepsPlacesBut, State.writeReg]

theorem putErasable_keepsPlaces (a : Nat) (w : Word15) :
    KeepsPlacesBut (fun x => x = .erasable a) s (s.putErasable a w) := by
  refine ⟨fun _ => rfl, fun _ => rfl, fun _ => rfl, fun _ _ => rfl, fun _ _ => rfl, fun _ => rfl, fun b hb => ?_,
    fun _ _ => rfl⟩
  rw [erasableWord_putErasable, if_neg fun h => hb (congrArg Loc.erasable h)]

theorem putBehind_keepsPlaces (o : Nat) (w : Word15) :
    KeepsPlacesBut (fun x => x = .behind o) s (s.putBehind o w) := by
  refine ⟨fun _ => rfl, fun _ => rfl, fun _ => rfl, fun _ _ => rfl, fun _ _ => rfl, fun _ => rfl, fun _ _ => rfl,
    fun p hp => ?_⟩
  rw [behindWord_putBehind, if_neg fun h => hp (congrArg Loc.behind h)]

theorem keepsPlacesBut_refl (P : Loc → Prop) : KeepsPlacesBut P s s :=
  ⟨fun _ => rfl, fun _ => rfl, fun _ => rfl, fun _ _ => rfl, fun _ _ => rfl, fun _ => rfl, fun _ _ => rfl, fun _ _ => rfl⟩

/-- The place a write leads to holds the value, and no other register or word changed, by the kind of place (R71, R72). -/
theorem write_place (k : Addr12) (v : Word16) : PlaceHolds s (s.write k v) (s.resolve k) v ∧
    KeepsPlacesBut (fun x => x = s.resolve k) s (s.write k v) := by
  obtain ⟨r, hk, hw⟩ | ⟨a, hk, hw⟩ | ⟨o, hk, hw⟩ | ⟨a, hk | hk, hw⟩ := write_cases s k v <;> rw [hk, hw]
  · exact ⟨writeReg_placeHolds s r v, writeReg_keepsPlaces s r v⟩
  · exact ⟨by simp [PlaceHolds, erasableWord_putErasable], putErasable_keepsPlaces s a _⟩
  · exact ⟨by simp [PlaceHolds, behindWord_putBehind], putBehind_keepsPlaces s o _⟩
  · exact ⟨trivial, keepsPlacesBut_refl s _⟩
  · exact ⟨trivial, keepsPlacesBut_refl s _⟩

/-- Settles O35: the place by its kind, and everything else by the frame of the write. -/
theorem writeChangesOnePlace : Obligations.WriteChangesOnePlace := fun s k v =>
  ⟨(write_place s k v).1, (write_place s k v).2, write_keepsRest s k v⟩

end Sys2Proof.Proofs
end

section
/-! The window to the low part of bank E0: its three behaviours (R65, R70, R307). -/

namespace Sys2Proof.Proofs

open Sys2Proof.Machine

variable (s : State) {k : Addr12}

/-- An address is in the low window when EB is 0 and it lies from 01400 to 01460 (R65). -/
theorem inLowWindow_iff : s.inLowWindow k = true ↔ s.eb = 0 ∧ 0o1400 ≤ k.toNat ∧ k.toNat ≤ 0o1460 := by
  simp [State.inLowWindow, and_assoc]

/-- An access acts as its own address, or, in the window, as the address less 01400 (R65). -/
theorem direct_cases : s.direct k = k ∨ 0o1400 ≤ k.toNat ∧ k.toNat ≤ 0o1460 ∧ s.direct k = k - 0o1400 := by
  unfold State.direct
  split
  · rename_i h
    obtain ⟨-, h1, h2⟩ := (inLowWindow_iff s).mp h.1
    exact .inr ⟨h1, h2, rfl⟩
  · exact .inl rfl

/-! ## `same_as_direct` -/

theorem toNat_sub_window (h1 : 0o1400 ≤ k.toNat) : (k - 0o1400).toNat = k.toNat - 0o1400 :=
  BitVec.toNat_sub_of_le (BitVec.le_def.mpr h1)

/-- The address less 01400 acts as itself, being no address of the window (R65). -/
theorem direct_sub_window (h1 : 0o1400 ≤ k.toNat) (h2 : k.toNat ≤ 0o1460) : s.direct (k - 0o1400) = k - 0o1400 := by
  have hsub := toNat_sub_window h1
  exact direct_of_outside s (.inr (.inl (by omega)))

theorem resolve_congr_direct {j : Addr12} (hd : s.direct k = s.direct j) : s.resolve k = s.resolve j := by
  simp [State.resolve, hd]

/-- Two addresses that act as one address read, write and re-edit as one. -/
theorem access_congr_direct {j : Addr12} (hd : s.direct k = s.direct j) :
    s.read k = s.read j ∧ (∀ v, s.write k v = s.write j v) ∧ s.reedit k = s.reedit j := by
  have hr := resolve_congr_direct s hd
  have he : s.isEditing k = s.isEditing j := by simp [State.isEditing, hd]
  have hread : s.read k = s.read j := by simp [State.read, State.readAs, hr]
  have hwrite : ∀ v, s.write k v = s.write j v := fun v => by simp [State.write, hr]
  exact ⟨hread, hwrite, by rw [State.reedit, State.reedit, he, hread, hwrite]⟩

/-! ## `plain_storage` -/

/-- Below 01400 an address leads to a register or to an unswitched word (R62). -/
theorem resolve_below_window (hk : k.toNat < 0o1400) (o : Nat) : s.resolve k ≠ .behind o := by
  by_cases hreg : k.toNat < 8
  · simp [resolve_register s hreg]
  · simp [resolve_unswitched s (by omega) hk]

/-- Only an address of the low window leads to a word behind bank E0, the word of its own offset (R65). -/
theorem resolve_eq_behind {o : Nat} (h : s.resolve k = .behind o) :
    s.inLowWindow k = true ∧ o = k.toNat - 0o1400 := by
  have hlo : 0o1400 ≤ k.toNat := Nat.not_lt.mp fun hlt => resolve_below_window s hlt o h
  have hhi : k.toNat < 0o2000 := Nat.not_le.mp fun hge => by
    obtain ⟨a, ha | ha⟩ := resolve_fixed s hge <;> simp [ha] at h
  obtain hd | ⟨-, h2, hd⟩ := direct_cases s (k := k)
  · rw [resolve_window s hlo hhi hd] at h
    split at h
    · rename_i hlow
      exact ⟨(inLowWindow_iff s).mpr ⟨hlow.1, hlo, by omega⟩, (Loc.behind.inj h).symm⟩
    · simp at h
  · rw [resolve_congr_direct s (hd.trans (direct_sub_window s hlo h2).symm)] at h
    have hsub := toNat_sub_window hlo
    exact absurd h (resolve_below_window s (by omega) o)

/-- Under `plain_storage` an address of the window leads to the word behind it (R65). -/
theorem resolve_lowWindow (hp : s.params.windowE0Low = .take .plainStorage) (hw : s.inLowWindow k = true) :
    s.resolve k = .behind (k.toNat - 0o1400) := by
  obtain ⟨heb, h1, h2⟩ := (inLowWindow_iff s).mp hw
  have hd : s.direct k = k := by simp [State.direct, hp]
  rw [resolve_window s h1 (by omega) hd, if_pos ⟨heb, by omega⟩]

/-- No two addresses lead to one word behind bank E0 (R65). -/
theorem resolve_ne_behind {j : Addr12} (h1 : 0o1400 ≤ k.toNat) (hj : j ≠ k) :
    s.resolve j ≠ .behind (k.toNat - 0o1400) := by
  intro h
  obtain ⟨hw, ho⟩ := resolve_eq_behind s h
  obtain ⟨-, hj1, -⟩ := (inLowWindow_iff s).mp hw
  exact hj (BitVec.eq_of_toNat_eq (by omega))

/-- A word behind bank E0 reads back the corrected value put there, and reads elsewhere do not see it (R65, R70). -/
theorem read_putBehind {o : Nat} (w : Word15) (j : Addr12) : (s.putBehind o w).read j =
    if s.resolve j = .behind o then sext16 w else s.read j := by
  have hr : (s.putBehind o w).resolve j = s.resolve j := resolve_congr rfl rfl rfl rfl j
  simp only [State.read, State.readAs, hr]
  cases s.resolve j
  case behind p => by_cases hp : p = o <;> simp [hp, behindWord_putBehind]
  all_goals rfl

/-- A write to an address leaves every word behind bank E0 that the address does not lead to (R71). -/
theorem behindWord_write_other {j : Addr12} {o : Nat} (v : Word16) (h : s.resolve j ≠ .behind o) :
    (s.write j v).behindWord o = s.behindWord o := by
  obtain ⟨-, -, -, -, -, -, -, hbehind⟩ := (write_place s j v).2
  exact hbehind o h.symm

/-! ## `refuse` -/

/-- The window is one of the two ways a step is stopped before execute; without the other, that of the index sum, an
access that refuses at the fetch or at an address of the instruction stops it (R70, R108). -/
theorem refusal_eq (hx : s.indexRefuses = false) : s.refusal =
    if (s.resumeWord = none ∧ s.windowRefuses s.z = true) ∨
      ∃ j ∈ operandAddrs s.nextInstr s.issued.z, s.windowRefuses j = true then some .windowE0Low else none := by
  simp only [State.refusal, hx, Bool.and_eq_true, Option.isNone_iff_eq_none, List.any_eq_true]
  grind

theorem step_of_refusal {r : Refusal} (h : s.refusal = some r) : step s = .refused r := by
  simp [step, h]

/-- A fetch through the window refuses (R65, R70). -/
theorem step_refuses_of_fetch (hr : s.resumeWord = none) (hw : s.windowRefuses s.z = true) :
    step s = .refused .windowE0Low :=
  step_of_refusal s (by simp [State.refusal, hr, hw])

/-- An operand access through the window refuses (R65, R70). -/
theorem step_refuses_of_operand {j : Addr12} (hx : s.indexRefuses = false)
    (hj : j ∈ operandAddrs s.nextInstr s.issued.z) (hw : s.windowRefuses j = true) : step s = .refused .windowE0Low :=
  step_of_refusal s (by rw [refusal_eq s hx, if_pos (.inr ⟨j, hj, hw⟩)])

/-- An interrupt entry whose fetch goes through the window refuses, if nothing stopped the step before (R65, R307). -/
theorem step_refuses_of_entry {t : State} (hx : s.indexRefuses = false) (he : exec s.nextInstr s.issued = .next t)
    (hentry : s.entryRefuses t = true) : step s = .refused .windowE0Low := by
  by_cases hwin : (s.resumeWord = none ∧ s.windowRefuses s.z = true) ∨
      ∃ j ∈ operandAddrs s.nextInstr s.issued.z, s.windowRefuses j = true
  · exact step_of_refusal s (by rw [refusal_eq s hx, if_pos hwin])
  · have hnone : s.refusal = none := by rw [refusal_eq s hx, if_neg hwin]
    simp [step, hnone, he, State.finish, hentry]

/-- The check of `t` refuses where it would enter an interrupt and fetch through the window (R65, R307). -/
theorem entryRefuses_of_pending {t : State} {n : Source} (hp : s.params.windowE0Low = .refuse)
    (hw : t.inLowWindow t.z = true) (hr : t.resumeWord = none) (hen : t.enabled = true)
    (hn : t.pending.get n = true) : s.entryRefuses t = true := by
  have hfirst : t.pending.first ≠ none := fun h => by simp [requests_first_none.mp h n] at hn
  simp [State.entryRefuses, hp, hw, hr, hen, Option.isSome_iff_ne_none, hfirst]

/-- The instructions with a 12-bit address that read or write memory at it, a double-word one at the next address too
(R105, R110). -/
theorem mem_operandAddrs (k z : Addr12) :
    ∀ i ∈ [Instr.ca k, .cs k, .ad k, .mask k, .indexExt k, .mp k, .das k, .dxch k, .dca k, .dcs k, .das (k - 1),
      .dxch (k - 1), .dca (k - 1), .dcs (k - 1)], k ∈ operandAddrs i z := by
  simp [operandAddrs, succAddr]

/-- The instructions with a 10-bit address read or write memory at it (R110). -/
theorem keAddr_mem_operandAddrs (ke : Addr10) (z : Addr12) :
    ∀ i ∈ [Instr.ccs ke, .lxch ke, .incr ke, .ads ke, .index ke, .ts ke, .xch ke, .dv ke, .msu ke, .qxch ke, .aug ke,
      .dim ke, .su ke], keAddr ke ∈ operandAddrs i z := by
  simp [operandAddrs]

/-- Settles O32: one lemma for each value of the parameter, and for `refuse` one for each kind of access. -/
theorem lowWindowActsAsItsParameter : Obligations.LowWindowActsAsItsParameter := by
  intro s k v heb h1 h2
  have hw : s.inLowWindow k = true := (inLowWindow_iff s).mpr ⟨heb, h1, h2⟩
  refine ⟨fun hp => ?_, fun hp => ?_, fun hp => ?_⟩
  · have hd : s.direct k = s.direct (k - 0o1400) := by
      rw [direct_sub_window s h1 h2]
      simp [State.direct, hw, hp]
    obtain ⟨hread, hwrite, hreedit⟩ := access_congr_direct s hd
    exact ⟨hread, hwrite v, hreedit⟩
  · have hk : s.resolve k = .behind (k.toNat - 0o1400) := resolve_lowWindow s hp hw
    have hput : s.write k v = s.putBehind (k.toNat - 0o1400) (ovc v) := by simp [State.write, hk]
    refine ⟨by rw [hput, read_putBehind, if_pos hk], fun j hj => ?_⟩
    have hne := resolve_ne_behind s h1 hj
    exact ⟨by rw [hput, read_putBehind, if_neg hne], behindWord_write_other s v hne⟩
  · have hk : s.windowRefuses k = true := by simp [State.windowRefuses, hp, hw]
    refine ⟨fun hr hz => step_refuses_of_fetch s hr (hz ▸ hk), fun i hi hn hx => ?_, fun ke hke i hi hn hx => ?_,
      fun kc hn hz hx => ?_, fun u t n he hx hpu hte hz hr hen hn => ?_⟩
    · exact step_refuses_of_operand s hx (hn ▸ mem_operandAddrs k _ i hi) hk
    · exact step_refuses_of_operand s hx (hn ▸ hke ▸ keAddr_mem_operandAddrs ke _ i hi) hk
    · exact step_refuses_of_operand s hx (by simp [hn, operandAddrs, hz]) hk
    · have hwt : t.inLowWindow t.z = true := (inLowWindow_iff t).mpr ⟨hte, hz ▸ h1, hz ▸ h2⟩
      exact step_refuses_of_entry u hx he (entryRefuses_of_pending u hpu hwt hr hen hn)

end Sys2Proof.Proofs
end

section
/-! The encoder and the decoder undo each other, in both tables (R101 to R107, R109, R112). -/

namespace Sys2Proof.Proofs

/-! ## A word by its fields -/

/-- Format B: OP and K are the whole word (R101). -/
theorem formatB_fields {w : Word15} {op : BitVec 3} (hop : fieldOp w = op.toNat) : formatB op (fieldK w) = w := by
  apply BitVec.eq_of_toNat_eq
  rw [fieldOp_eq] at hop
  rw [formatB_toNat, fieldK_toNat]
  omega

/-- Format QC: OP, QC and KE are the whole word (R102). -/
theorem formatQC_fields {w : Word15} {op : BitVec 3} {qc : BitVec 2} (hop : fieldOp w = op.toNat)
    (hqc : fieldQc w = qc.toNat) : formatQC op qc (fieldKe w) = w := by
  apply BitVec.eq_of_toNat_eq
  rw [fieldOp_eq] at hop
  rw [fieldQc_eq] at hqc
  rw [formatQC_toNat, fieldKe_toNat]
  omega

/-- Format IO: with OP 0, PC and KC are the whole word (R103). -/
theorem formatIO_fields {w : Word15} {pc : BitVec 3} (hop : fieldOp w = 0) (hpc : fieldPc w = pc.toNat) :
    formatIO pc (fieldKc w) = w := by
  apply BitVec.eq_of_toNat_eq
  rw [fieldOp_eq] at hop
  rw [fieldPc_eq] at hpc
  rw [formatIO_toNat, fieldKc_toNat]
  omega

theorem fieldOp_lt (w : Word15) : fieldOp w < 8 := (w.extractLsb' 12 3).isLt

theorem fieldQc_lt (w : Word15) : fieldQc w < 4 := (w.extractLsb' 10 2).isLt

theorem fieldPc_lt (w : Word15) : fieldPc w < 8 := (w.extractLsb' 9 3).isLt

/-- The addresses from 02000 on are those whose QC is not 00 (R102). -/
theorem isFixedTarget_iff {k : Addr12} : isFixedTarget k = true ↔ k.toNat / 1024 ≠ 0 := by
  rw [isFixedTarget, decide_eq_true_eq]
  omega

theorem isFixedTarget_fieldK {w : Word15} (h : fieldQc w ≠ 0) : isFixedTarget (fieldK w) = true := by
  rw [fieldQc_eq] at h
  rw [isFixedTarget_iff, fieldK_toNat]
  omega

/-! ## The address of a pair (R105) -/

@[simp] theorem pairAddress_succ (k : Addr12) : pairAddress (k + 1#12) = k := BitVec.add_sub_cancel k 1

@[simp] theorem pairAddress_add_one (kf : Addr12) : pairAddress kf + 1#12 = kf := BitVec.sub_add_cancel kf 1

/-- The 10-bit field holds K + 1 of every pair address. -/
theorem pairAddress_field {k : Addr12} (h : isPairAddress k = true) :
    pairAddress (((k + 1#12).setWidth 10).setWidth 12) = k := by
  have hk : ((k + 1#12).setWidth 10).setWidth 12 = k + 1#12 := by
    apply BitVec.eq_of_toNat_eq
    have hlt : (k + 1#12).toNat < 1024 := of_decide_eq_true h
    rw [BitVec.toNat_setWidth, BitVec.toNat_setWidth]
    omega
  rw [hk, pairAddress_succ]

/-- Every value of the 10-bit field names a pair address. -/
theorem isPairAddress_pairAddress (kf : Addr10) : isPairAddress (pairAddress (kf.setWidth 12)) = true := by
  have h := kf.isLt
  have hadd : pairAddress (kf.setWidth 12) + 1 = kf.setWidth 12 := pairAddress_add_one _
  rw [isPairAddress, hadd, decide_eq_true_eq, BitVec.toNat_setWidth]
  omega

/-- The field of the pair at KF - 1 is KF (R105), for DAS and, in the lemmas after it, DXCH, DCA and DCS. -/
theorem encode_das_pairAddress (kf : Addr10) :
    encode (.das (pairAddress (kf.setWidth 12))) = (false, formatQC 2 0 kf) := by
  simp [encode, encodeWord, Instr.isExtended]

theorem encode_dxch_pairAddress (kf : Addr10) :
    encode (.dxch (pairAddress (kf.setWidth 12))) = (false, formatQC 5 1 kf) := by
  simp [encode, encodeWord, Instr.isExtended]

theorem encode_dca_pairAddress (kf : Addr12) : encode (.dca (pairAddress kf)) = (true, formatB 3 kf) := by
  simp [encode, encodeWord, Instr.isExtended]

theorem encode_dcs_pairAddress (kf : Addr12) : encode (.dcs (pairAddress kf)) = (true, formatB 4 kf) := by
  simp [encode, encodeWord, Instr.isExtended]

/-! ## Decode of encode -/

/-- None of the four words that the basic table tests first has a well-formed ordinary reading (R106). -/
theorem decodeBasic_of_wf {w : Word15} (h : (decodeOrdinary w).wf = true) : decodeBasic w = decodeOrdinary w := by
  have ne : ∀ v : Word15, (decodeOrdinary v).wf = false → w.toNat ≠ v.toNat := by
    intro v hv hw
    rw [BitVec.eq_of_toNat_eq hw, hv] at h
    cases h
  exact decodeBasic_ordinary (ne 0o000003 (by decide)) (ne 0o000004 (by decide)) (ne 0o000006 (by decide))
    (ne 0o050017 (by decide))

/-- The instructions that stand for one word each (R106). -/
def isSpecial (i : Instr) : Bool := i = .relint || i = .inhint || i = .extend || i = .resume

/-- OP and QC of the encoded word name the instruction's row; TCF's target keeps its QC from being 00 (R102). -/
theorem decodeOrdinary_encodeWord {i : Instr} (hwf : i.wf = true) (hb : i.isExtended = false)
    (hs : isSpecial i = false) : decodeOrdinary (encodeWord i) = i := by
  cases i with
  | relint | inhint | extend | resume => simp [isSpecial] at hs
  | tc k | ca k | cs k | ad k | mask k => simp [decodeOrdinary, encodeWord, fields_formatB]
  | ccs ke | lxch ke | incr ke | ads ke | index ke | ts ke | xch ke =>
    simp [decodeOrdinary, encodeWord, fields_formatQC]
  | tcf k => simp [decodeOrdinary, encodeWord, fields_formatB, isFixedTarget_iff.mp hwf]
  | das k | dxch k => simp [decodeOrdinary, encodeWord, fields_formatQC, pairAddress_field hwf]
  | _ => cases hb

theorem decodeBasic_encodeWord {i : Instr} (hwf : i.wf = true) (hb : i.isExtended = false) :
    decodeBasic (encodeWord i) = i := by
  cases hs : isSpecial i with
  | false =>
    have hi := decodeOrdinary_encodeWord hwf hb hs
    rw [decodeBasic_of_wf (hi.symm ▸ hwf), hi]
  | true =>
    simp only [isSpecial, Bool.or_eq_true, decide_eq_true_eq] at hs
    obtain ((rfl | rfl) | rfl) | rfl := hs <;> rfl

/-- OP, QC and PC of the encoded word name the instruction's row (R103, R107). -/
theorem decodeExtended_encodeWord {i : Instr} (hwf : i.wf = true) (hx : i.isExtended = true) :
    decodeExtended (encodeWord i) = i := by
  cases i with
  | read kc | write kc | rand kc | wand kc | ror kc | wor kc | rxor kc | edrupt kc =>
    simp [decodeExtended, decodeChannel, encodeWord, fields_formatIO]
  | dv ke | msu ke | qxch ke | aug ke | dim ke | su ke => simp [decodeExtended, encodeWord, fields_formatQC]
  | dca k | dcs k | indexExt k | mp k => simp [decodeExtended, encodeWord, fields_formatB]
  | bzf k | bzmf k => simp [decodeExtended, encodeWord, fields_formatB, isFixedTarget_iff.mp hwf]
  | _ => cases hx

/-- Settles O1, table by table: the fields of the encoded word name the instruction's row and give its operand back. -/
theorem decodeOfEncodeIsTheInstruction : Obligations.DecodeOfEncodeIsTheInstruction := by
  intro i hwf
  cases ht : i.isExtended with
  | false => rw [encode, ht]; exact decodeBasic_encodeWord hwf ht
  | true => rw [encode, ht]; exact decodeExtended_encodeWord hwf ht

/-! ## Encode of decode -/

/-- The instruction is well-formed and its encoding is the word of that table. -/
def EncodedBy (i : Instr) (e : Bool) (w : Word15) : Prop := i.wf = true ∧ encode i = (e, w)

section
variable {i : Instr} {e : Bool} {w : Word15}

theorem EncodedBy.of_formatB (op : BitVec 3) (hop : fieldOp w = op.toNat) (hwf : i.wf = true)
    (he : encode i = (e, formatB op (fieldK w))) : EncodedBy i e w :=
  ⟨hwf, by rw [he, formatB_fields hop]⟩

theorem EncodedBy.of_formatQC (op : BitVec 3) (qc : BitVec 2) (hop : fieldOp w = op.toNat)
    (hqc : fieldQc w = qc.toNat) (hwf : i.wf = true) (he : encode i = (e, formatQC op qc (fieldKe w))) :
    EncodedBy i e w :=
  ⟨hwf, by rw [he, formatQC_fields hop hqc]⟩

theorem EncodedBy.of_formatIO (pc : BitVec 3) (hop : fieldOp w = 0) (hpc : fieldPc w = pc.toNat)
    (hwf : i.wf = true) (he : encode i = (e, formatIO pc (fieldKc w))) : EncodedBy i e w :=
  ⟨hwf, by rw [he, formatIO_fields hop hpc]⟩

end

/-- Row by row (R106): a word that is none of the four special ones gives TC no special address and INDEX not 0017. -/
theorem decodeOrdinary_encodedBy {w : Word15} (h3 : w ≠ 0o000003) (h4 : w ≠ 0o000004) (h6 : w ≠ 0o000006)
    (hr : w ≠ 0o050017) : EncodedBy (decodeOrdinary w) false w := by
  have hlt := fieldOp_lt w
  have hqlt := fieldQc_lt w
  unfold decodeOrdinary
  split
  next hop =>
    have hw : formatB 0 (fieldK w) = w := formatB_fields hop
    have hk : ∀ k : Addr12, w ≠ formatB 0 k → decide (fieldK w ≠ k) = true :=
      fun k hne => decide_eq_true fun he => hne (he ▸ hw.symm)
    exact .of_formatB 0 hop (by rw [Instr.wf, hk 3 h3, hk 4 h4, hk 6 h6]; rfl) rfl
  next hop hqc => exact .of_formatQC 1 0 hop hqc rfl rfl
  next hop hqc => exact .of_formatB 1 hop (isFixedTarget_fieldK hqc) rfl
  next hop hqc => exact .of_formatQC 2 0 hop hqc (isPairAddress_pairAddress _) (encode_das_pairAddress _)
  next hop hqc => exact .of_formatQC 2 1 hop hqc rfl rfl
  next hop hqc => exact .of_formatQC 2 2 hop hqc rfl rfl
  next hop h0 h1 h2 => exact .of_formatQC 2 3 hop (show fieldQc w = 3 by grind) rfl rfl
  next hop => exact .of_formatB 3 hop rfl rfl
  next hop => exact .of_formatB 4 hop rfl rfl
  next hop hqc =>
    have hw : formatQC 5 0 (fieldKe w) = w := formatQC_fields hop hqc
    have hke : fieldKe w ≠ 0o17 := fun he => hr (by rw [← hw, he]; rfl)
    exact .of_formatQC 5 0 hop hqc (decide_eq_true hke) rfl
  next hop hqc => exact .of_formatQC 5 1 hop hqc (isPairAddress_pairAddress _) (encode_dxch_pairAddress _)
  next hop hqc => exact .of_formatQC 5 2 hop hqc rfl rfl
  next hop h0 h1 h2 => exact .of_formatQC 5 3 hop (show fieldQc w = 3 by grind) rfl rfl
  next hop => exact .of_formatB 6 hop rfl rfl
  next => exact .of_formatB 7 (show fieldOp w = 7 by grind) rfl rfl

theorem decodeBasic_encodedBy (w : Word15) : EncodedBy (decodeBasic w) false w := by
  unfold decodeBasic
  split_ifs with h3 h4 h6 hr
  · exact h3 ▸ ⟨rfl, rfl⟩
  · exact h4 ▸ ⟨rfl, rfl⟩
  · exact h6 ▸ ⟨rfl, rfl⟩
  · exact hr ▸ ⟨rfl, rfl⟩
  · exact decodeOrdinary_encodedBy h3 h4 h6 hr

theorem decodeChannel_encodedBy {w : Word15} (hop : fieldOp w = 0) : EncodedBy (decodeChannel w) true w := by
  have hlt := fieldPc_lt w
  unfold decodeChannel
  split
  next hpc => exact .of_formatIO 0 hop hpc rfl rfl
  next hpc => exact .of_formatIO 1 hop hpc rfl rfl
  next hpc => exact .of_formatIO 2 hop hpc rfl rfl
  next hpc => exact .of_formatIO 3 hop hpc rfl rfl
  next hpc => exact .of_formatIO 4 hop hpc rfl rfl
  next hpc => exact .of_formatIO 5 hop hpc rfl rfl
  next hpc => exact .of_formatIO 6 hop hpc rfl rfl
  next => exact .of_formatIO 7 hop (show fieldPc w = 7 by grind) rfl rfl

theorem decodeExtended_encodedBy (w : Word15) : EncodedBy (decodeExtended w) true w := by
  have hlt := fieldOp_lt w
  have hqlt := fieldQc_lt w
  unfold decodeExtended
  split
  next hop => exact decodeChannel_encodedBy hop
  next hop hqc => exact .of_formatQC 1 0 hop hqc rfl rfl
  next hop hqc => exact .of_formatB 1 hop (isFixedTarget_fieldK hqc) rfl
  next hop hqc => exact .of_formatQC 2 0 hop hqc rfl rfl
  next hop hqc => exact .of_formatQC 2 1 hop hqc rfl rfl
  next hop hqc => exact .of_formatQC 2 2 hop hqc rfl rfl
  next hop h0 h1 h2 => exact .of_formatQC 2 3 hop (show fieldQc w = 3 by grind) rfl rfl
  next hop => exact .of_formatB 3 hop rfl (encode_dca_pairAddress _)
  next hop => exact .of_formatB 4 hop rfl (encode_dcs_pairAddress _)
  next hop => exact .of_formatB 5 hop rfl rfl
  next hop hqc => exact .of_formatQC 6 0 hop hqc rfl rfl
  next hop hqc => exact .of_formatB 6 hop (isFixedTarget_fieldK hqc) rfl
  next => exact .of_formatB 7 (show fieldOp w = 7 by grind) rfl rfl

/-- Settles O2, table by table and row by row: the fields that name the row and its operand are the whole word. -/
theorem encodeOfDecodeIsTheWord : Obligations.EncodeOfDecodeIsTheWord := by
  intro e w
  cases e with
  | false => exact decodeBasic_encodedBy w
  | true => exact decodeExtended_encodedBy w

/-! ## The words of the spec -/

/-- Settles O5 by evaluating the decoder on the fifteen words. -/
theorem wordsOfTheSpecDecode : Obligations.WordsOfTheSpecDecode := by
  unfold Obligations.WordsOfTheSpecDecode
  decide

/-! ## Double words (R105) -/

theorem decode_of_encode_eq {i : Instr} {e : Bool} {w : Word15} (hwf : i.wf = true) (he : encode i = (e, w)) :
    decode e w = i := by
  have h := decodeOfEncodeIsTheInstruction i hwf
  rwa [he] at h

theorem toNat_add_one {k : Addr12} (h : k.toNat < 0o7777) : (k + 1).toNat = k.toNat + 1 :=
  BitVec.toNat_add_of_lt (show k.toNat + 1 < 4096 by omega)

theorem encodeWord_das_dxch_toNat {k : Addr12} (h : k.toNat < 0o1777) :
    (encodeWord (.das k)).toNat = 0o020001 + k.toNat ∧ (encodeWord (.dxch k)).toNat = 0o052001 + k.toNat := by
  have hkf : ((k + 1).setWidth 10).toNat = k.toNat + 1 := by
    rw [BitVec.toNat_setWidth, toNat_add_one (by omega)]
    omega
  rw [encodeWord, encodeWord, formatQC_toNat, formatQC_toNat, hkf]
  exact ⟨by bv_omega, by bv_omega⟩

theorem encodeWord_dca_dcs_toNat {k : Addr12} (h : k.toNat < 0o7777) :
    (encodeWord (.dca k)).toNat = 0o030001 + k.toNat ∧ (encodeWord (.dcs k)).toNat = 0o040001 + k.toNat := by
  rw [encodeWord, encodeWord, formatB_toNat, formatB_toNat, toNat_add_one h]
  exact ⟨by bv_omega, by bv_omega⟩

/-- Settles O4: KF is the field of the pair at KF - 1, so O1 says what it decodes to; below the last K, K + 1 does not
wrap. -/
theorem doubleWordFieldsHoldKPlusOne : Obligations.DoubleWordFieldsHoldKPlusOne := by
  refine ⟨fun kf => ⟨?_, ?_⟩, fun kf => ⟨?_, ?_⟩, fun _ => encodeWord_das_dxch_toNat,
    fun _ => encodeWord_dca_dcs_toNat⟩
  · exact decode_of_encode_eq (isPairAddress_pairAddress kf) (encode_das_pairAddress kf)
  · exact decode_of_encode_eq (isPairAddress_pairAddress kf) (encode_dxch_pairAddress kf)
  · exact decode_of_encode_eq rfl (encode_dca_pairAddress kf)
  · exact decode_of_encode_eq rfl (encode_dcs_pairAddress kf)

end Sys2Proof.Proofs
end

section
/-! Every word of either table is admitted by one row of the opcode table, the row of its instruction (R109). -/

namespace Sys2Proof.Proofs

/-- Some row of the table has the mnemonic of any well-formed instruction and admits its word (R106, R107). -/
theorem tableRow_statement : (i : Instr) → Laws.TableRow.Statement i
  | .relint => Laws.TableRow.relint
  | .inhint => Laws.TableRow.inhint
  | .extend => Laws.TableRow.extend
  | .resume => Laws.TableRow.resume
  | .tc k => Laws.TableRow.tc k
  | .ccs ke => Laws.TableRow.ccs ke
  | .tcf k => Laws.TableRow.tcf k
  | .das k => Laws.TableRow.das k
  | .lxch ke => Laws.TableRow.lxch ke
  | .incr ke => Laws.TableRow.incr ke
  | .ads ke => Laws.TableRow.ads ke
  | .ca k => Laws.TableRow.ca k
  | .cs k => Laws.TableRow.cs k
  | .index ke => Laws.TableRow.index ke
  | .dxch k => Laws.TableRow.dxch k
  | .ts ke => Laws.TableRow.ts ke
  | .xch ke => Laws.TableRow.xch ke
  | .ad k => Laws.TableRow.ad k
  | .mask k => Laws.TableRow.mask k
  | .read kc => Laws.TableRow.read kc
  | .write kc => Laws.TableRow.write kc
  | .rand kc => Laws.TableRow.rand kc
  | .wand kc => Laws.TableRow.wand kc
  | .ror kc => Laws.TableRow.ror kc
  | .wor kc => Laws.TableRow.wor kc
  | .rxor kc => Laws.TableRow.rxor kc
  | .edrupt kc => Laws.TableRow.edrupt kc
  | .dv ke => Laws.TableRow.dv ke
  | .bzf k => Laws.TableRow.bzf k
  | .msu ke => Laws.TableRow.msu ke
  | .qxch ke => Laws.TableRow.qxch ke
  | .aug ke => Laws.TableRow.aug ke
  | .dim ke => Laws.TableRow.dim ke
  | .dca k => Laws.TableRow.dca k
  | .dcs k => Laws.TableRow.dcs k
  | .indexExt k => Laws.TableRow.indexExt k
  | .su ke => Laws.TableRow.su ke
  | .bzmf k => Laws.TableRow.bzmf k
  | .mp k => Laws.TableRow.mp k

/-- Two rows of which no word belongs to both: they stand in different tables, their fixed bits disagree, or one of them
leaves the words of the other to it. -/
def KeptApart (r r' : OpRow) : Prop :=
  r.ext ≠ r'.ext ∨ r.mtch &&& r'.mask ≠ r'.mtch &&& r.mask ∨
    (r'.mtch, r'.mask) ∈ r.exclude ∨ (r.mtch, r.mask) ∈ r'.exclude

theorem KeptApart.symm {r r' : OpRow} (h : KeptApart r r') : KeptApart r' r := by
  obtain hext | hbits | hex | hex := h
  · exact .inl hext.symm
  · exact .inr (.inl hbits.symm)
  · exact .inr (.inr (.inr hex))
  · exact .inr (.inr (.inl hex))

/-- What a row's admission of a word says. -/
theorem admits_iff {r : OpRow} {e : Bool} {w : Word15} : r.admits e w = true ↔
    r.ext = e ∧ w &&& r.mask = r.mtch ∧ ∀ p ∈ r.exclude, w &&& p.2 ≠ p.1 := by
  simp [OpRow.admits, and_assoc]

theorem KeptApart.not_admits {r r' : OpRow} (h : KeptApart r r') {e : Bool} {w : Word15}
    (hr : r.admits e w = true) : ¬r'.admits e w = true := by
  intro hr'
  obtain ⟨he, hm, hx⟩ := admits_iff.mp hr
  obtain ⟨he', hm', hx'⟩ := admits_iff.mp hr'
  obtain hext | hbits | hex | hex := h
  · exact hext (he.trans he'.symm)
  · exact hbits (by rw [← hm, ← hm', BitVec.and_assoc, BitVec.and_assoc, BitVec.and_comm r.mask])
  · exact hx _ hex hm'
  · exact hx' _ hex hm

/-- The table, checked row against row. -/
theorem opcodeTable_keptApart : opcodeTable.Pairwise KeptApart := by
  unfold KeptApart
  decide

theorem eq_of_admits {r r' : OpRow} (hr : r ∈ opcodeTable) (hr' : r' ∈ opcodeTable) {e : Bool} {w : Word15}
    (ha : r.admits e w = true) (ha' : r'.admits e w = true) : r' = r := by
  have : Std.Symm KeptApart := ⟨fun _ _ => KeptApart.symm⟩
  by_contra hne
  exact (opcodeTable_keptApart.forall hr' hr hne).not_admits ha' ha

/-- Settles O3: the word encodes the instruction it decodes to, whose row admits it, and no word belongs to two
rows. -/
theorem everyWordMatchesExactlyOneRow : Obligations.EveryWordMatchesExactlyOneRow := by
  intro e w
  obtain ⟨hwf, henc⟩ := encodeOfDecodeIsTheWord e w
  obtain ⟨r, hr, hmnemonic, hadmits⟩ := tableRow_statement (decode e w) hwf
  rw [henc] at hadmits
  exact ⟨r, hr, hadmits, hmnemonic, fun r' hr' hadmits' => eq_of_admits hr hr' hadmits hadmits'⟩

end Sys2Proof.Proofs
end

section
/-! The word INDEX makes of a fetched word, and the refusal of its sum (R108, R130, R220). -/

namespace Sys2Proof.Proofs

open Sys2Proof.Machine

/-! ## The sum -/

/-- In range the ones'-complement sum is exact and holds no overflow (R130). -/
theorem add16_in_range {a b : Word16} (hlo : -16383 ≤ val16 a + val16 b) (hhi : val16 a + val16 b ≤ 16383) :
    ovf (add16 a b) = false ∧ val16 (add16 a b) = val16 a + val16 b := by
  have ha2 := a.isLt
  have hb2 := b.isLt
  rw [Bool.eq_false_iff, ne_eq, ovf_iff, val16_toNat (add16 a b), add16_toNat]
  rw [val16_toNat a, val16_toNat b] at hlo hhi ⊢
  split_ifs at hlo hhi ⊢ <;> omega

/-- Adding -0 leaves every word but +0 unchanged (R130). -/
theorem add16_minusZero {a : Word16} (h : a ≠ 0) : add16 a minusZero = a := by
  apply BitVec.eq_of_toNat_eq
  have hpos : a.toNat ≠ 0 := fun h0 => h (BitVec.eq_of_toNat_eq h0)
  have hlt := a.isLt
  have hm : minusZero.toNat = 65535 := rfl
  rw [add16_toNat, hm]
  split <;> omega

/-- Without an overflow the low bits are the corrected word (R12). -/
theorem low15_eq_ovc {a : Word16} (h : ovf a = false) : low15 a = ovc a := by
  apply BitVec.eq_of_toNat_eq
  have ha := a.isLt
  rw [Bool.eq_false_iff, ne_eq, ovf_iff] at h
  rw [low15_toNat, ovc_toNat]
  split <;> omega

/-! ## The indexed word -/

section
variable {p : Params} {f : Word15} {x : Word16}

/-- The one case in which R220's remark stands against the sum of R108, where a parameter says so (log 20). -/
theorem indexWord_unchanged (hp : p.indexMinusZero = .unchanged) : indexWord p 0 minusZero = 0 := by
  simp [indexWord, hp]

/-- In every other case the word is made of the sum (R108). -/
theorem indexWord_by_sum (hp : p.indexMinusZero = .bySum ∨ f ≠ 0 ∨ x ≠ minusZero) : indexWord p f x =
    if ovf (add16 (sext16 f) x) = true ∧ p.indexSumMode = .take .corrected then ovc (add16 (sext16 f) x)
    else low15 (add16 (sext16 f) x) := by
  have hcase : ¬(f = 0 ∧ x = minusZero ∧ p.indexMinusZero = .unchanged) := by
    rintro ⟨hf, hx, hu⟩
    simp [hf, hx, hu] at hp
  rw [indexWord, if_neg hcase]
  split
  next hovf => split <;> simp [*]
  next hovf => simp [hovf]

theorem indexWord_of_not_ovf (hp : p.indexMinusZero = .bySum ∨ f ≠ 0 ∨ x ≠ minusZero)
    (h : ovf (add16 (sext16 f) x) = false) : indexWord p f x = low15 (add16 (sext16 f) x) := by
  simp [indexWord_by_sum hp, h]

/-- A sum that overflows is not that of +0 and -0. -/
theorem indexWord_of_ovf (h : ovf (add16 (sext16 f) x) = true) : indexWord p f x =
    if p.indexSumMode = .take .corrected then ovc (add16 (sext16 f) x) else low15 (add16 (sext16 f) x) := by
  have hp : f ≠ 0 ∨ x ≠ minusZero := by
    by_contra hzero
    obtain ⟨rfl, rfl⟩ : f = 0 ∧ x = minusZero := by simpa using hzero
    exact absurd h (by decide)
  simp [indexWord_by_sum (.inr hp), h]

/-- An index of -0 leaves the word unchanged (R220). -/
theorem indexWord_minusZero (hp : p.indexMinusZero = .unchanged ∨ f ≠ 0) : indexWord p f minusZero = f := by
  by_cases hf : f = 0
  · subst hf
    exact indexWord_unchanged (hp.resolve_right (not_not_intro rfl))
  · have hsext : sext16 f ≠ 0 := fun h0 => hf (by rw [← ovc_sext16 f, h0]; rfl)
    have hsum : add16 (sext16 f) minusZero = sext16 f := add16_minusZero hsext
    rw [indexWord_of_not_ovf (.inr (.inl hf)) (by rw [hsum, ovf_sext16]), hsum, low15_eq_ovc (ovf_sext16 f), ovc_sext16]

/-- In range the word has the value of the sum, whichever way +0 indexed by -0 is taken (R108, R130). -/
theorem val15_indexWord (hlo : -16383 ≤ val15 f + val16 x) (hhi : val15 f + val16 x ≤ 16383) :
    val15 (indexWord p f x) = val15 f + val16 x := by
  by_cases hcase : p.indexMinusZero = .bySum ∨ f ≠ 0 ∨ x ≠ minusZero
  · rw [← val16_sext16 f] at hlo hhi
    obtain ⟨hovf, hval⟩ := add16_in_range hlo hhi
    rw [indexWord_of_not_ovf hcase hovf, low15_eq_ovc hovf, val15_ovc_of_not_ovf hovf, hval, val16_sext16]
  · obtain ⟨hp, rfl, rfl⟩ : p.indexMinusZero ≠ .bySum ∧ f = 0 ∧ x = minusZero := by simpa using hcase
    have hu : p.indexMinusZero = .unchanged := by
      cases h : p.indexMinusZero with
      | bySum => exact absurd h hp
      | unchanged => rfl
    rw [indexWord_unchanged hu]
    decide

end

/-! ## The refusal -/

/-- Under `refuse` a step whose fetch does not refuse refuses where its index sum overflows (R108). -/
theorem step_refuses_of_index {s : State} {f : Word15} {x : Word16} (hi : s.idx = some x)
    (hm : s.params.indexSumMode = .refuse) (hw : s.resumeWord = none → s.windowRefuses s.z = false)
    (hf : s.fetchPhase.1 = f) (h : ovf (add16 (sext16 f) x) = true) : step s = .refused .indexSumOverflow := by
  have hwin : (s.resumeWord.isNone && s.windowRefuses s.z) = false := by
    cases hr : s.resumeWord <;> simp [hw, hr]
  have hidx : s.indexRefuses = true := by simp [State.indexRefuses, hi, hm, hf, h]
  exact step_of_refusal s (by simp [State.refusal, hwin, hidx])

/-- Settles O8, clause by clause: the sum, -0, the two modes of an overflow, the value in range, and the refusal. -/
theorem indexedWordIsTheSum : Obligations.IndexedWordIsTheSum := by
  refine ⟨fun p f x => ⟨indexWord_of_not_ovf, indexWord_minusZero, fun hovf => ⟨fun hm => ?_, fun hm => ?_⟩,
    fun _ => val15_indexWord⟩, fun s f x hi hm hfetch hovf => ?_⟩
  · rw [indexWord_of_ovf hovf, if_pos hm]
  · rw [indexWord_of_ovf hovf, if_neg (by simp [hm])]
    rfl
  · obtain hr | ⟨hr, hf, hw⟩ := hfetch
    · exact step_refuses_of_index hi hm (by simp [hr]) (by simp [State.fetchPhase, hr]) hovf
    · exact step_refuses_of_index hi hm (fun _ => by simpa [State.windowRefuses] using hw)
        (by simp [State.fetchPhase, hr, hf]) hovf

end Sys2Proof.Proofs
end

section
/-! The adder: its zero laws, and sums of two values in range (R130, R131, R134). -/

namespace Sys2Proof.Proofs

open Sys2Proof.Machine

/-! ## The zero laws -/

/-- A pattern and its complement add up to ones without a carry (R134). -/
theorem add16_neg16 (x : Word16) : add16 x (neg16 x) = 0o177777 := by
  apply BitVec.eq_of_toNat_eq
  have hx := x.isLt
  have hsum : x.toNat + (neg16 x).toNat = 65535 := by rw [neg16_toNat]; omega
  rw [add16_toNat, hsum]
  rfl

/-- Adding +0 leaves every pattern unchanged (R134). -/
@[simp] theorem add16_zero (x : Word16) : add16 x 0 = x := by
  apply BitVec.eq_of_toNat_eq
  have hx := x.isLt
  rw [add16_toNat, show (0 : Word16).toNat = 0 from rfl, Nat.add_zero, if_neg (by omega)]

/-- Settles O37: x + +0 and x + (-x) for every x, and the three sums of zeros. -/
theorem adderZeroLaws : Obligations.AdderZeroLaws :=
  ⟨add16_zero 0, add16_zero _, by decide, add16_neg16, add16_zero⟩

/-! ## Values in range -/

theorem val15_bounds (w : Word15) : -16383 ≤ val15 w ∧ val15 w ≤ 16383 := by
  have hw := w.isLt
  rw [val15_toNat]
  split <;> omega

/-- A register without an overflow holds a value that fits a word (R12). -/
theorem val16_bounds_of_not_ovf {a : Word16} (h : ovf a = false) : -16383 ≤ val16 a ∧ val16 a ≤ 16383 := by
  rw [← val15_ovc_of_not_ovf h]
  exact val15_bounds (ovc a)

/-- The side of an overflow is the side of the range on which the value lies (R12). -/
theorem posOvf_iff_val16 (a : Word16) : posOvf a = true ↔ 16383 < val16 a := by
  have ha := a.isLt
  rw [posOvf_iff, val16_toNat]
  split <;> omega

theorem negOvf_iff_val16 (a : Word16) : negOvf a = true ↔ val16 a < -16383 := by
  have ha := a.isLt
  rw [negOvf_iff, val16_toNat]
  split <;> omega

theorem ovf_iff_val16 (a : Word16) : ovf a = true ↔ 16383 < val16 a ∨ val16 a < -16383 := by
  rw [ovf_eq, Bool.or_eq_true, posOvf_iff_val16, negOvf_iff_val16]

/-- Bits 16..15 as a number: 01 is the positive overflow, 10 the negative one (R12). -/
theorem topBits_toNat (a : Word16) : (a.extractLsb' 14 2).toNat = a.toNat / 16384 := by
  have ha := a.isLt
  simp only [BitVec.extractLsb'_toNat, Nat.shiftRight_eq_div_pow]
  omega

theorem topBits_eq_one_iff (a : Word16) : a.extractLsb' 14 2 = 1 ↔ posOvf a = true := by
  rw [← BitVec.toNat_inj, topBits_toNat, posOvf_iff, show (1 : BitVec 2).toNat = 1 from rfl]
  omega

theorem topBits_eq_two_iff (a : Word16) : a.extractLsb' 14 2 = 2 ↔ negOvf a = true := by
  rw [← BitVec.toNat_inj, topBits_toNat, negOvf_iff, show (2 : BitVec 2).toNat = 2 from rfl]
  omega

/-- The sum of two patterns is exact while it stays within 16 bits: an end-around carry stands for the -65535 by which
the pattern of a negative value differs from it (R130, R131). -/
theorem val16_add16 {a b : Word16} (hlo : -32767 ≤ val16 a + val16 b) (hhi : val16 a + val16 b ≤ 32767) :
    val16 (add16 a b) = val16 a + val16 b := by
  have ha := a.isLt
  have hb := b.isLt
  rw [val16_toNat a, val16_toNat b] at hlo hhi ⊢
  rw [val16_toNat (add16 a b), add16_toNat]
  split_ifs at hlo hhi ⊢ <;> omega

/-- Settles O38: the sum of two values in range stays within 16 bits, where it is exact and its bits 16..15 tell the
side. -/
theorem adderIsExactInRange : Obligations.AdderIsExactInRange := by
  refine ⟨val15_bounds, fun a b ha hb => ?_, fun s k => ⟨_, rfl, by simp⟩⟩
  obtain ⟨ha1, ha2⟩ := val16_bounds_of_not_ovf ha
  obtain ⟨hb1, hb2⟩ := val16_bounds_of_not_ovf hb
  have hsum : val16 (add16 a b) = val16 a + val16 b := val16_add16 (by omega) (by omega)
  rw [topBits_eq_one_iff, topBits_eq_two_iff, ovf_iff_val16, posOvf_iff_val16, negOvf_iff_val16, hsum]
  exact ⟨rfl, Iff.rfl, Iff.rfl, Iff.rfl, by omega⟩

end Sys2Proof.Proofs
end

section
/-! Instructions that load registers from an operand and re-edit it: the frame they share (R73, R148), and AD, SU, MASK,
CA and CS (R135, R136, R146, R180, R181). -/

namespace Sys2Proof.Proofs

open Sys2Proof.Machine Sys2Proof.Claims

variable (s : State)

/-! ## The frame of a register load -/

theorem keepsRest_refl : KeepsRest s s := by
  simp [KeepsRest, KeepsSequencer, KeepsChannels, KeepsRecord]

theorem keepsRest_trans {s u t : State} (h1 : KeepsRest s u) (h2 : KeepsRest u t) : KeepsRest s t := by
  obtain ⟨⟨hx, hi, hr, hn, hs⟩, ⟨hl, hh⟩, hf, hc, hj, hp, hb⟩ := h1
  obtain ⟨⟨hx', hi', hr', hn', hs'⟩, ⟨hl', hh'⟩, hf', hc', hj', hp', hb'⟩ := h2
  exact ⟨⟨hx'.trans hx, hi'.trans hi, hr'.trans hr, hn'.trans hn, hs'.trans hs⟩,
    ⟨fun c => (hl' c).trans (hl c), hh'.trans hh⟩, hf'.trans hf, hc'.trans hc, hj'.trans hj, hp'.trans hp,
    hb'.trans hb⟩

/-- A re-edit touches no register, sequencer flag, channel, record or request (R73). -/
theorem reedit_keepsRest (k : Addr12) : KeepsRest s (s.reedit k) := by
  simp [KeepsRest, KeepsSequencer, KeepsChannels, KeepsRecord]

/-- The re-edit rewrites the editing register its address acts as, if it acts as one (R73, R148). -/
theorem reedit_reeditedOnly (k : Addr12) : ReeditedOnly s (s.reedit k) k := by
  refine ⟨fun a => ?_, behindWord_congr (by simp)⟩
  rw [erasableWord_reedit]
  simp only [State.isEditing, Bool.and_eq_true, decide_eq_true_eq]
  grind

/-- After a change of registers alone, the re-edit is that of the operand read before it. -/
theorem onlyRegs_reedit {P : Reg → Prop} {s u : State} (h : OnlyRegs P s u) (k : Addr12) :
    KeepsRegsBut P s (u.reedit k) ∧ ReeditedOnly s (u.reedit k) k ∧ KeepsRest s (u.reedit k) ∧
      (u.reedit k).pending = s.pending := by
  obtain ⟨hregs, herasable, hbehind, hrest, hpending⟩ := h
  have ⟨_, _, _, heb, _, _⟩ := hregs
  have ⟨_, _, _, _, _, hparams, _⟩ := hrest
  refine ⟨by simpa [KeepsRegsBut] using hregs, ?_, keepsRest_trans hrest (reedit_keepsRest u k),
    by simpa using hpending⟩
  simpa [ReeditedOnly, hparams, direct_congr heb hparams, herasable, hbehind] using reedit_reeditedOnly u k

theorem setA_onlyRegs (v : Word16) : OnlyRegs (fun x => x = .a) s (s.setA v) :=
  ⟨by simp [KeepsRegsBut], fun _ => rfl, fun _ => rfl, keepsRest_refl s, rfl⟩

theorem setA_setL_onlyRegs (v w : Word16) : OnlyRegs (fun x => x = .a ∨ x = .l) s ((s.setA v).setL w) :=
  ⟨by simp [KeepsRegsBut], fun _ => rfl, fun _ => rfl, keepsRest_refl s, rfl⟩

/-- A result written to A, and the re-edit of its operand, are a load of A. -/
theorem setA_reedit_loaded (v : Word16) (k : Addr12) : Loaded s ((s.setA v).reedit k) .a v k :=
  ⟨by simp [PlaceHolds], onlyRegs_reedit (setA_onlyRegs s v) k⟩

/-- Settles O40: each of the five arms writes its result to A and re-edits its operand. -/
theorem accumulatorInstructionsWriteA : Obligations.AccumulatorInstructionsWriteA := fun s k ke =>
  ⟨⟨_, rfl, setA_reedit_loaded s _ k⟩, ⟨_, rfl, setA_reedit_loaded s _ (keAddr ke)⟩,
    ⟨_, rfl, setA_reedit_loaded s _ k⟩, ⟨_, rfl, setA_reedit_loaded s _ k⟩,
    ⟨_, rfl, setA_reedit_loaded s _ k⟩⟩

end Sys2Proof.Proofs
end

section
/-! MSU, MP and DV: the modular difference, the exact product, and the integer quotient and remainder, as words of a
sign and a magnitude (R143, R144, R145). -/

namespace Sys2Proof.Proofs

open Sys2Proof.Machine

variable (s : State)

/-! ## MSU -/

/-- The two's-complement difference as a ones'-complement value; only -16384 has none, and its word is that of +16383
(R143). -/
theorem val15_modularDifference (a k : Word15) :
    val15 (modularDifference a k) = if (a - k).toInt = -16384 then 16383 else (a - k).toInt := by
  unfold modularDifference
  generalize a - k = x
  have hx := x.isLt
  by_cases hs : sign15 x = true
  · have hlo := (sign15_iff x).mp hs
    have hpred : (x - 1).toNat = x.toNat - 1 :=
      BitVec.toNat_sub_of_le (BitVec.le_def.mpr (Nat.le_trans (by decide) hlo))
    have hint : x.toInt = x.toNat - 32768 := by
      rw [BitVec.toInt_eq_toNat_cond, if_neg (by omega)]
      rfl
    rw [if_pos hs, val15_toNat, hpred, hint]
    split_ifs <;> omega
  · have hhi : ¬16384 ≤ x.toNat := fun h => hs ((sign15_iff x).mpr h)
    have hint : x.toInt = x.toNat := by rw [BitVec.toInt_eq_toNat_cond, if_pos (by omega)]
    rw [if_neg hs, val15_toNat, if_neg hhi, hint, if_neg (by omega)]

/-- The difference is never -0: that would be the two's-complement word of 0 less one, and 0 is not negative (R143). -/
theorem modularDifference_ne_minusZero (a k : Word15) : modularDifference a k ≠ 0o77777 := by
  unfold modularDifference
  split
  case isTrue hs =>
    intro h
    have hzero : a - k = 0 := by
      rw [← BitVec.sub_add_cancel (a - k) 1, h]
      rfl
    rw [hzero] at hs
    exact absurd hs (by decide)
  case isFalse hs =>
    intro h
    rw [h] at hs
    exact hs (by decide)

/-- Settles O41: MSU loads the modular difference, whose value the two lemmas above give. -/
theorem msuSubtractsModularly : Obligations.MsuSubtractsModularly := fun s ke =>
  ⟨_, modularDifference (ovc s.a) (ovc (s.read (keAddr ke))), _, rfl, setA_reedit_loaded s _ (keAddr ke), rfl,
    modularDifference_ne_minusZero _ _, val15_modularDifference _ _⟩

/-! ## Words of a sign and a magnitude -/

section
variable {m : Nat} (hm : m < 16384) (negative : Bool)
include hm

theorem signed15_toNat : (signed15 negative m).toNat = if negative then 32767 - m else m := by
  have hof : (BitVec.ofNat 15 m).toNat = m := Nat.mod_eq_of_lt (by omega)
  cases negative <;> simp [signed15, neg15_toNat, hof]

@[simp] theorem sign15_signed15 : sign15 (signed15 negative m) = negative := by
  rw [Bool.eq_iff_iff, sign15_iff, signed15_toNat hm]
  cases negative <;> simp <;> omega

@[simp] theorem val15_signed15 : val15 (signed15 negative m) = if negative then -(m : Int) else m := by
  rw [val15_toNat, signed15_toNat hm]
  cases negative
  · simp
    omega
  · simp
    omega

end

@[simp] theorem isZero15_zero15 (negative : Bool) : isZero15 (zero15 negative) = true := by
  cases negative <;> rfl

@[simp] theorem val15_zero15 (negative : Bool) : val15 (zero15 negative) = 0 := by
  cases negative <;> rfl

/-- A word is a zero where its value is 0 (R11). -/
theorem isZero15_iff (w : Word15) : isZero15 w = true ↔ val15 w = 0 := by
  have hw := w.isLt
  rw [isZero15, Bool.or_eq_true, decide_eq_true_eq, decide_eq_true_eq, ← BitVec.toNat_inj, ← BitVec.toNat_inj,
    val15_toNat, show (0 : Word15).toNat = 0 from rfl, show (0o77777 : Word15).toNat = 32767 from rfl]
  split <;> omega

theorem natAbs_val15_le (w : Word15) : (val15 w).natAbs ≤ 16383 := by
  obtain ⟨hlo, hhi⟩ := val15_bounds w
  omega

/-! ## MP -/

section
variable {a k : Word15}

/-- A zero factor makes both words the same zero (R144). -/
theorem product_of_zero (h : isZero15 a = true ∨ isZero15 k = true) :
    isZero15 (s.product a k).1 = true ∧ (s.product a k).2 = (s.product a k).1 := by
  rw [State.product, if_pos (by simpa using h)]
  exact ⟨isZero15_zero15 _, rfl⟩

/-- The product of two words fits two words (R144). -/
theorem natAbs_product_lt (a k : Word15) : (val15 a * val15 k).natAbs < 16384 * 16384 := by
  rw [Int.natAbs_mul]
  exact Nat.mul_lt_mul'' (Nat.lt_succ_of_le (natAbs_val15_le a)) (Nat.lt_succ_of_le (natAbs_val15_le k))

/-- The two words of a product of non-zero factors are the digits of its magnitude in base 16384, each with the
product's sign (R144). -/
theorem product_of_nonzero (ha : isZero15 a = false) (hk : isZero15 k = false) :
    val15 (s.product a k).1 * 16384 + val15 (s.product a k).2 = val15 a * val15 k ∧
      sign15 (s.product a k).1 = decide (val15 a * val15 k < 0) ∧
      sign15 (s.product a k).2 = sign15 (s.product a k).1 := by
  have hlt := natAbs_product_lt a k
  have hhi : (val15 a * val15 k).natAbs / 16384 < 16384 := Nat.div_lt_of_lt_mul hlt
  have hlo : (val15 a * val15 k).natAbs % 16384 < 16384 := Nat.mod_lt _ (by decide)
  rw [State.product, if_neg (by simp [ha, hk])]
  dsimp only
  rw [sign15_signed15 hhi, sign15_signed15 hlo, val15_signed15 hhi, val15_signed15 hlo]
  refine ⟨?_, rfl, rfl⟩
  simp only [decide_eq_true_eq]
  split <;> omega

end

/-- Settles O42: the arm loads A and L with the words of the product, which the lemmas above describe. -/
theorem mpMultipliesExactly : Obligations.MpMultipliesExactly := by
  intro s k
  obtain ⟨hregs, hreedit, hrest, hpending⟩ := onlyRegs_reedit (setA_setL_onlyRegs s
    (sext16 (s.product (ovc s.a) (ovc (s.read k))).1) (sext16 (s.product (ovc s.a) (ovc (s.read k))).2)) k
  exact ⟨_, _, _, rfl, by simp, by simp, hregs, hreedit, hrest, hpending, product_of_zero s, product_of_nonzero s⟩

/-! ## DV -/

/-- Division cut toward zero divides the magnitudes; the quotient is negative where one of the two is (R145). -/
theorem tdiv_eq_magnitudes (n d : Int) : n.tdiv d =
    if (decide (n < 0) != decide (d < 0)) = true then -((n.natAbs / d.natAbs : Nat) : Int)
    else ((n.natAbs / d.natAbs : Nat) : Int) := by
  rw [Int.ofNat_tdiv, Int.natCast_natAbs, Int.natCast_natAbs]
  rcases lt_or_ge n 0 with hn | hn <;> rcases lt_or_ge d 0 with hd | hd <;>
    simp [hn, hd, hn.not_gt, hd.not_gt, abs_of_neg, abs_of_nonneg, Int.neg_tdiv, Int.tdiv_neg]

/-- Its remainder is that of the magnitudes, with the dividend's sign (R145). -/
theorem tmod_eq_magnitudes (n d : Int) : n.tmod d =
    if decide (n < 0) = true then -((n.natAbs % d.natAbs : Nat) : Int) else ((n.natAbs % d.natAbs : Nat) : Int) := by
  rw [Int.ofNat_tmod, Int.natCast_natAbs, Int.natCast_natAbs]
  rcases lt_or_ge n 0 with hn | hn <;> rcases lt_or_ge d 0 with hd | hd <;>
    simp [hn, hd, hn.not_gt, abs_of_neg, abs_of_nonneg, Int.neg_tmod, Int.tmod_neg]

section
variable {m : Nat} (hm : m < 16384) (zeroSign negative : Bool)
include hm

/-- A magnitude written with a sign, its zero with a sign of its own, has the signed value. -/
theorem val15_zeroOrSigned : val15 (if m = 0 then zero15 zeroSign else signed15 negative m) =
    if negative = true then -(m : Int) else m := by
  by_cases h0 : m = 0
  · simp [h0]
  · rw [if_neg h0, val15_signed15 hm]

theorem sign15_zeroOrSigned (h : val15 (if m = 0 then zero15 zeroSign else signed15 negative m) ≠ 0) :
    sign15 (if m = 0 then zero15 zeroSign else signed15 negative m) = negative := by
  by_cases h0 : m = 0
  · simp [h0] at h
  · rw [if_neg h0, sign15_signed15 hm]

end

section
variable {a l d : Word15}

/-- A quotient that fits is the integer quotient cut toward zero (R145). -/
theorem dvQuotient_spec (hfit : (dividend a l).natAbs / (val15 d).natAbs < 16384) :
    val15 (s.dvQuotient a l d) = (dividend a l).tdiv (val15 d) ∧
      (val15 (s.dvQuotient a l d) ≠ 0 →
        sign15 (s.dvQuotient a l d) = (decide (dividend a l < 0) != decide (val15 d < 0))) :=
  ⟨(val15_zeroOrSigned hfit _ _).trans (tdiv_eq_magnitudes _ _).symm, sign15_zeroOrSigned hfit _ _⟩

/-- The remainder of a division by a word fits a word; it is the integer remainder (R145). -/
theorem dvRemainder_spec (hd : val15 d ≠ 0) :
    val15 (s.dvRemainder a l d) = (dividend a l).tmod (val15 d) ∧
      (val15 (s.dvRemainder a l d) ≠ 0 → sign15 (s.dvRemainder a l d) = decide (dividend a l < 0)) := by
  have hlt : (dividend a l).natAbs % (val15 d).natAbs < (val15 d).natAbs := Nat.mod_lt _ (Int.natAbs_pos.mpr hd)
  have hfit : (dividend a l).natAbs % (val15 d).natAbs < 16384 := hlt.trans (Nat.lt_succ_of_le (natAbs_val15_le d))
  exact ⟨(val15_zeroOrSigned hfit _ _).trans (tmod_eq_magnitudes _ _).symm, sign15_zeroOrSigned hfit _ _⟩

/-- In range a division leaves the two words of the law of division (R145). -/
theorem dvResult_in_range (hd : val15 d ≠ 0) (hn : (dividend a l).natAbs < (val15 d).natAbs * 16384) :
    ∃ q r, s.dvResult a l d = (sext16 q, sext16 r) ∧ dividend a l = val15 q * val15 d + val15 r ∧
      (val15 r).natAbs < (val15 d).natAbs ∧
      (val15 q ≠ 0 → sign15 q = (decide (dividend a l < 0) != decide (val15 d < 0))) ∧
      (val15 r ≠ 0 → sign15 r = decide (dividend a l < 0)) := by
  obtain ⟨hq, hqsign⟩ := dvQuotient_spec s (Nat.div_lt_of_lt_mul hn)
  obtain ⟨hr, hrsign⟩ := dvRemainder_spec s (a := a) (l := l) hd
  have hrange : ¬dvOutOfRange a l d = true := by simp [dvOutOfRange, isZero15_iff, hd, hn]
  refine ⟨s.dvQuotient a l d, s.dvRemainder a l d, if_neg hrange, ?_, ?_, hqsign, hrsign⟩
  · rw [hq, hr, Int.tdiv_mul_add_tmod]
  · rw [hr, Int.natAbs_tmod]
    exact Nat.mod_lt _ (Int.natAbs_pos.mpr hd)

/-- In range or not, a division leaves a sign-extended L (R145). -/
theorem dvResult_extended (a l d : Word15) : (s.dvResult a l d).2.getLsbD 15 = (s.dvResult a l d).2.getLsbD 14 := by
  unfold State.dvResult
  split <;> exact sext16_extended _

end

/-- Settles O43: the arm loads A and L with the pair of the division, whose L is always sign-extended and which in range
follows the law of division. -/
theorem dvDividesExactlyOrLeavesAFreePair : Obligations.DvDividesExactlyOrLeavesAFreePair := by
  rintro s ke _ _ rfl rfl
  obtain ⟨hregs, hreedit, hrest, hpending⟩ := onlyRegs_reedit (setA_setL_onlyRegs s
    (s.dvResult (ovc s.a) (ovc s.l) (ovc (s.read (keAddr ke)))).1
    (s.dvResult (ovc s.a) (ovc s.l) (ovc (s.read (keAddr ke)))).2) (keAddr ke)
  refine ⟨_, rfl, by simpa using dvResult_extended s _ _ _, hregs, hreedit, hrest, hpending, fun hd hn => ?_⟩
  obtain ⟨q, r, hqr, hlaw⟩ := dvResult_in_range s (d := ovc (s.read (keAddr ke))) hd hn
  exact ⟨q, r, by simp [hqr], by simp [hqr], hlaw⟩

end Sys2Proof.Proofs
end

section
/-! INCR, AUG and ADS: a sum written back with the counter check (R137, R138, R139, R320, R326). -/

namespace Sys2Proof.Proofs

open Sys2Proof.Machine Sys2Proof.Claims

/-! ## Frames put together -/

/-- Two changes in a row change the places of both. -/
theorem keepsPlacesBut_trans {P Q : Loc → Prop} {s u t : State} (h1 : KeepsPlacesBut P s u)
    (h2 : KeepsPlacesBut Q u t) : KeepsPlacesBut (fun x => P x ∨ Q x) s t := by
  obtain ⟨ha, hl, hq, heb, hfb, hz, he, hb⟩ := h1
  obtain ⟨ha', hl', hq', heb', hfb', hz', he', hb'⟩ := h2
  simp only [KeepsPlacesBut, not_or]
  grind

/-- A place outside the changed ones holds what it held; EB and FB are seen through BB too (R28). -/
theorem placeHolds_of_keepsPlaces {Q : Loc → Prop} {s u t : State} {p : Loc} {v : Word16} (h : PlaceHolds s u p v)
    (hk : KeepsPlacesBut Q u t) (hp : ¬Q p) (hreg : ∀ r, ¬Q (.reg r)) : PlaceHolds s t p v := by
  obtain ⟨ha, hl, hq, heb, hfb, hz, he, hb⟩ := hk
  cases p with
  | reg r => cases r <;> simp_all [PlaceHolds]
  | erasable a => exact (he a hp).trans h
  | behind o => exact (hb o hp).trans h
  | fixed a => trivial
  | missing a => trivial

/-! ## The counter check -/

/-- PINC of a counter word, by hand: one more, but +0 after +16383 and +1 after -0 (R320). -/
theorem pincWord_fst (v : Word15) : (pincWord v).1 = counted .pinc v := by
  by_cases hmax : v = 0o37777
  · subst hmax
    decide
  by_cases hzero : v = 0o77777
  · subst hzero
    decide
  have hv := v.isLt
  have hmax' : v.toNat ≠ 16383 := fun h => hmax (BitVec.eq_of_toNat_eq h)
  have hzero' : v.toNat ≠ 32767 := fun h => hzero (BitVec.eq_of_toNat_eq h)
  have hsucc : (v + 1).toNat = v.toNat + 1 := BitVec.toNat_add_of_lt (by simp; omega)
  have hcounted : counted .pinc v = v + 1 := by rw [counted, if_neg hmax, if_neg hzero]
  apply BitVec.eq_of_toNat_eq
  rw [hcounted, hsucc, pincWord, ovc_toNat, add16_toNat, sext16_toNat, show plusOne.toNat = 1 from rfl]
  split_ifs <;> omega

/-- An overflow effect changes TIME2, and only for TIME1 (R320). -/
theorem effectIf_keepsPlaces (s : State) (b : Bool) (a : Nat) :
    KeepsPlacesBut (fun x => (b = true ∧ a = 0o25) ∧ x = .erasable 0o24) s (s.effectIf b a) := by
  obtain ⟨ha, hl, hq, heb, hfb, hz, hbehind, -⟩ := effectIf_fields s b a
  refine ⟨fun _ => ha, fun _ => hl, fun _ => hq, fun _ _ => heb, fun _ _ => hfb, fun _ => hz, fun n hn => ?_,
    fun o _ => behindWord_congr hbehind o⟩
  rw [erasableWord_effectIf, if_neg]
  rintro ⟨hb, hd, rfl⟩
  exact hn ⟨⟨hb, hd⟩, rfl⟩

/-- The requests an overflow effect leaves: those before it, and the one of TIME3, TIME5 or TIME4 (R320). -/
theorem pending_get_effectIf (s : State) (b : Bool) (a : Nat) (n : Source) :
    (s.effectIf b a).pending.get n = true ↔ s.pending.get n = true ∨ (n = .t3rupt ∧ b = true ∧ a = 0o26) ∨
      (n = .t4rupt ∧ b = true ∧ a = 0o27) ∨ (n = .t5rupt ∧ b = true ∧ a = 0o30) := by
  rw [pending_effectIf]
  cases b
  · simp
  · split_ifs <;> simp_all [or_comm]

variable {s : State} {k : Addr12} {sum : Word16}

/-- The condition of the counter check, for one of its four timers (R326). -/
theorem timerHit_iff {a : Nat} (ha : a ∈ [0o25, 0o26, 0o27, 0o30]) : TimerHit s k sum a ↔
    (s.params.instrCounterOverflow && decide ((s.direct k).toNat ∈ [0o25, 0o26, 0o27, 0o30]) && ovf sum) = true ∧
      (s.direct k).toNat = a := by
  simp only [TimerHit, Bool.and_eq_true, decide_eq_true_eq]
  constructor
  · rintro ⟨hp, rfl, ho⟩
    exact ⟨⟨⟨hp, ha⟩, ho⟩, rfl⟩
  · rintro ⟨⟨⟨hp, -⟩, ho⟩, hd⟩
    exact ⟨hp, hd, ho⟩

/-- The counter check touches no sequencer flag, channel or record (R326). -/
theorem counterOverflowCheck_keepsRest : KeepsRest s (s.counterOverflowCheck k sum) := by
  simp [KeepsRest, KeepsSequencer, KeepsChannels, KeepsRecord, State.counterOverflowCheck]

/-- The counter check changes TIME2, and only where TIME1 overflows (R326). -/
theorem counterOverflowCheck_keepsPlaces : KeepsPlacesBut (fun x => TimerHit s k sum 0o25 ∧ x = .erasable 0o24) s
    (s.counterOverflowCheck k sum) := by
  simp only [timerHit_iff (show 0o25 ∈ [0o25, 0o26, 0o27, 0o30] by decide)]
  exact effectIf_keepsPlaces s _ _

/-- The counter check has the effect of the timer its address acts as (R326, R320). -/
theorem counterOverflowCheck_timerEffects : TimerEffects s (s.counterOverflowCheck k sum) k sum := by
  unfold TimerEffects
  rw [timerHit_iff (a := 0o25) (by decide), timerHit_iff (a := 0o26) (by decide), timerHit_iff (a := 0o27) (by decide),
    timerHit_iff (a := 0o30) (by decide)]
  refine ⟨fun ⟨hb, hd⟩ => ?_, pending_get_effectIf s _ _⟩
  rw [State.counterOverflowCheck, erasableWord_effectIf, if_pos ⟨hb, hd, rfl⟩]
  exact pincWord_fst _

/-! ## A sum written back -/

/-- A low unswitched address, reached directly or through the window, leads to its own word (R62, R65). -/
theorem resolve_of_direct {a : Nat} (hd : (s.direct k).toNat = a) (h1 : 0o10 ≤ a) (h2 : a < 0o400) :
    s.resolve k = .erasable a := by
  simp only [State.resolve, State.erasableLoc, hd]
  grind

/-- A register leads its address to itself. -/
theorem direct_lt_of_reg {r : Reg} (h : s.resolve k = .reg r) : (s.direct k).toNat < 8 := by
  by_contra hd
  simp only [State.resolve, State.erasableLoc, State.fixedLoc, if_neg hd] at h
  grind

/-- A write never changes which timer its address acts as, though a write to EB or BB may change where the window
leads (R65, R66). -/
theorem direct_write_eq_timer (v : Word16) {a : Nat} (ha : 0o10 ≤ a) (ha' : a < 0o1400) :
    ((s.write k v).direct k).toNat = a ↔ (s.direct k).toNat = a := by
  obtain ⟨r, hk, hw⟩ | ⟨n, hk, hw⟩ | ⟨o, hk, hw⟩ | ⟨n, hk, hw⟩ := write_cases s k v
  · have hlt := direct_lt_of_reg hk
    obtain hd | ⟨h1, -, hd⟩ := direct_cases s (k := k)
    · rw [hd] at hlt
      rw [hd, direct_of_outside (s.write k v) (.inr (.inl (by omega)))]
    · have hsub := toNat_sub_window h1
      obtain hd' | ⟨-, -, hd'⟩ := direct_cases (s.write k v) (k := k)
      · rw [hd] at hlt ⊢
        rw [hd']
        omega
      · rw [hd, hd']
  · rw [hw]
    exact Iff.rfl
  · rw [hw]
    exact Iff.rfl
  · rw [hw]

theorem timerHit_write (v : Word16) {a : Nat} (ha : a ∈ [0o25, 0o26, 0o27, 0o30]) :
    TimerHit (s.write k v) k sum a ↔ TimerHit s k sum a := by
  simp only [List.mem_cons, List.not_mem_nil, or_false] at ha
  simp [TimerHit, direct_write_eq_timer v (a := a) (by omega) (by omega)]

/-- TIME1's own place is not TIME2's. -/
theorem resolve_ne_time2_of_hit (h : TimerHit s k sum 0o25) : s.resolve k ≠ .erasable 0o24 := by
  rw [resolve_of_direct h.2.1 (by decide) (by decide)]
  decide

/-- The counter check completes the storing of a sum, in a state `w` where the sum was written and that the check takes
as it takes `s`. -/
theorem countStored_of_written {P : Loc → Prop} {w : State} (hP : ¬P (.erasable 0o24))
    (hplace : PlaceHolds s w (s.resolve k) sum) (hkeep : KeepsPlacesBut (fun x => P x ∨ x = s.resolve k) s w)
    (hrest : KeepsRest s w) (hpending : w.pending = s.pending)
    (hhit : ∀ a ∈ [0o25, 0o26, 0o27, 0o30], TimerHit w k sum a ↔ TimerHit s k sum a) :
    CountStored P s (w.counterOverflowCheck k sum) k sum := by
  have hcheck : KeepsPlacesBut (fun x => TimerHit s k sum 0o25 ∧ x = .erasable 0o24) w
      (w.counterOverflowCheck k sum) := by
    rw [← hhit 0o25 (by decide)]
    exact counterOverflowCheck_keepsPlaces
  refine ⟨placeHolds_of_keepsPlaces hplace hcheck (fun ⟨h, e⟩ => resolve_ne_time2_of_hit h e) (by simp), ?_, ?_,
    keepsRest_trans hrest counterOverflowCheck_keepsRest⟩
  · simpa only [or_assoc] using keepsPlacesBut_trans hkeep hcheck
  · obtain ⟨htime2, hrequests⟩ := counterOverflowCheck_timerEffects (s := w) (k := k) (sum := sum)
    rw [hhit 0o25 (by decide)] at htime2
    simp only [hhit 0o26 (by decide), hhit 0o27 (by decide), hhit 0o30 (by decide), hpending] at hrequests
    refine ⟨fun h => ?_, hrequests⟩
    obtain ⟨-, -, -, -, -, -, herasable, -⟩ := hkeep
    have hword : w.erasableWord 0o24 = s.erasableWord 0o24 :=
      herasable 0o24 (not_or.mpr ⟨hP, (resolve_ne_time2_of_hit h).symm⟩)
    rw [← hword]
    exact htime2 h

/-- INCR and AUG write the sum and check the counter (R138, R139). -/
theorem storeCount_countStored (s : State) (k : Addr12) (sum : Word16) :
    CountStored (fun _ => False) s (s.storeCount k sum) k sum := by
  obtain ⟨hplace, hkeep⟩ := write_place s k sum
  obtain ⟨hrest, hpending⟩ := write_keepsRest s k sum
  exact countStored_of_written not_false hplace (by simpa using hkeep) hrest hpending fun a => timerHit_write sum

/-- ADS writes the sum to A and to its place, and checks the counter (R137). -/
theorem setA_write_countStored (s : State) (k : Addr12) (sum : Word16) :
    CountStored (fun x => x = .reg .a) s (((s.setA sum).write k sum).counterOverflowCheck k sum) k sum := by
  obtain ⟨hplace, hkeep⟩ := write_place (s.setA sum) k sum
  obtain ⟨hrest, hpending⟩ := write_keepsRest (s.setA sum) k sum
  exact countStored_of_written (by simp) hplace (keepsPlacesBut_trans (writeReg_keepsPlaces s .a sum) hkeep) hrest
    hpending fun a => timerHit_write (s := s.setA sum) sum

/-- A holds the sum of ADS even where its place is another (R137). -/
theorem a_setA_write (s : State) (k : Addr12) (sum : Word16) : ((s.setA sum).write k sum).a = sum := by
  obtain ⟨hplace, ha, -⟩ := write_place (s.setA sum) k sum
  by_cases hk : (s.setA sum).resolve k = .reg .a
  · rw [hk] at hplace
    exact hplace
  · exact ha fun e => hk e.symm

/-- AUG adds one away from zero; the sign of a pattern is its bit 16 (R139). -/
theorem augmented_eq (v : Word16) :
    augmented v = if v.toNat < 0o100000 then add16 v 1 else add16 v 0o177776 := by
  by_cases hv : v.toNat < 0o100000
  · rw [augmented, if_neg (by rw [sign16_iff]; omega), if_pos hv]
    rfl
  · rw [augmented, if_pos ((sign16_iff v).mpr (by omega)), if_neg hv]
    rfl

/-- Settles O44: each arm writes its sum back and checks the counter, ADS with the sum in A. -/
theorem countingInstructionsStoreTheirSum : Obligations.CountingInstructionsStoreTheirSum := by
  rintro s ke _ _ rfl rfl
  refine ⟨⟨_, rfl, storeCount_countStored s (keAddr ke) _⟩, ⟨_, rfl, ?_⟩,
    ⟨_, rfl, ?_, setA_write_countStored s (keAddr ke) _⟩⟩
  · rw [← augmented_eq]
    exact storeCount_countStored s (keAddr ke) _
  · exact (effectIf_fields _ _ _).1.trans (a_setA_write s (keAddr ke) _)

end Sys2Proof.Proofs
end

section
/-! DIM, and the double-precision additions DAS and DDOUBL (R140, R141, R142). -/

namespace Sys2Proof.Proofs

open Sys2Proof.Machine Sys2Proof.Claims

/-! ## DIM -/

/-- A register holds a zero where its value is 0 (R11). -/
theorem isZero16_iff (a : Word16) : isZero16 a = true ↔ val16 a = 0 := by
  have ha := a.isLt
  rw [isZero16, Bool.or_eq_true, decide_eq_true_eq, decide_eq_true_eq, ← BitVec.toNat_inj, ← BitVec.toNat_inj,
    val16_toNat, show (0 : Word16).toNat = 0 from rfl, show (0o177777 : Word16).toNat = 65535 from rfl]
  split <;> omega

/-- But for -0 the true sign is the sign of the value (R11). -/
theorem sign16_iff_val16_neg {v : Word16} (h : val16 v ≠ 0) : sign16 v = true ↔ val16 v < 0 := by
  have hv := v.isLt
  rw [val16_toNat] at h ⊢
  rw [sign16_iff]
  split_ifs at h ⊢ <;> omega

theorem val16_bounds (v : Word16) : -32767 ≤ val16 v ∧ val16 v ≤ 32767 := by
  have hv := v.isLt
  rw [val16_toNat]
  split <;> omega

/-- DIM leaves a zero as it is (R140). -/
theorem diminished_of_zero {v : Word16} (h : val16 v = 0) : diminished v = v :=
  if_pos ((isZero16_iff v).mpr h)

/-- A positive value loses one (R140). -/
theorem val16_diminished_of_pos {v : Word16} (h : 0 < val16 v) : val16 (diminished v) = val16 v - 1 := by
  obtain ⟨-, hhi⟩ := val16_bounds v
  have hsign : ¬sign16 v = true := by rw [sign16_iff_val16_neg (by omega)]; omega
  have hone : val16 minusOne = -1 := by decide
  rw [diminished, if_neg (by rw [isZero16_iff]; omega), if_neg hsign, val16_add16 (by omega) (by omega), hone]
  rfl

/-- A negative value gains one (R140). -/
theorem val16_diminished_of_neg {v : Word16} (h : val16 v < 0) : val16 (diminished v) = val16 v + 1 := by
  obtain ⟨hlo, -⟩ := val16_bounds v
  have hsign : sign16 v = true := (sign16_iff_val16_neg (by omega)).mpr h
  have hone : val16 plusOne = 1 := by decide
  rw [diminished, if_neg (by rw [isZero16_iff]; omega), if_pos hsign, val16_add16 (by omega) (by omega), hone]

/-- The adder's zero of a one is -0 (R134, R140). -/
theorem diminished_of_one {v : Word16} (h : (val16 v).natAbs = 1) : diminished v = minusZero := by
  have hv := v.isLt
  have hcases : v = plusOne ∨ v = minusOne := by
    rw [val16_toNat] at h
    rw [← BitVec.toNat_inj, ← BitVec.toNat_inj, show plusOne.toNat = 1 from rfl,
      show minusOne.toNat = 65534 from rfl]
    split at h <;> omega
  rcases hcases with rfl | rfl <;> decide

section
variable (s : State)

/-- Whichever zero the parameter makes of a one, it is a zero (R141). -/
theorem val16_dimZero {z : Word16} (hz : val16 z = 0) : val16 (s.dimZero z) = 0 := by
  unfold State.dimZero
  split
  · exact hz
  · split <;> decide

/-- DIM stores the diminished value: the parameter decides no more than the sign of a zero (R141). -/
theorem val16_dimResult (v : Word16) : val16 (s.dimResult v) = val16 (diminished v) := by
  unfold State.dimResult
  split
  case isTrue h =>
    have hz : val16 (diminished v) = 0 := (isZero16_iff _).mp (Bool.and_elim_left h)
    rw [val16_dimZero s hz, hz]
  case isFalse => rfl

theorem dimResult_of_zero {v : Word16} (h : val16 v = 0) : s.dimResult v = v := by
  simp [State.dimResult, (isZero16_iff v).mpr h, diminished_of_zero h]

/-- Under `adder` the zero made of a one is -0 (R141). -/
theorem dimResult_of_one {v : Word16} (h : (val16 v).natAbs = 1) (hp : s.params.dimZeroResult = .adder) :
    s.dimResult v = minusZero := by
  have hv : isZero16 v = false := by rw [← Bool.not_eq_true, isZero16_iff]; omega
  have hz : isZero16 minusZero = true := by decide
  simp [State.dimResult, State.dimZero, diminished_of_one h, hv, hz, hp]

end

/-- Settles O45: the arm writes the result to its place, with the value the lemmas above give by its sign. -/
theorem dimDiminishes : Obligations.DimDiminishes := fun s ke =>
  ⟨_, s.dimResult (s.read (keAddr ke)), rfl, writeChangesOnePlace s (keAddr ke) _, dimResult_of_zero s,
    fun h => (val16_dimResult s _).trans (val16_diminished_of_pos h),
    fun h => (val16_dimResult s _).trans (val16_diminished_of_neg h), dimResult_of_one s⟩

/-! ## DAS and DDOUBL -/

/-- K = 0 doubles (A, L); every other K adds (A, L) to the pair of words at K and K + 1 (R142). -/
theorem exec_das (k : Addr12) (s : State) :
    exec (.das k) s = .next (if k = 0 then s.doubleAL else s.addPair k) := rfl

/-- Settles O46: the doubling writes A, with the low sum's overflow carried in, and L, and no more. -/
theorem ddoublDoubles : Obligations.DdoublDoubles := fun s =>
  ⟨s.doubleAL, exec_das 0 s, rfl, rfl, setA_setL_onlyRegs s _ _⟩

/-- Settles O47: the low sum is stored at K + 1, then the high sum at K, each a write to one place; L and A are written
last. -/
theorem dasAddsToThePair : Obligations.DasAddsToThePair := by
  rintro s k _ _ hk rfl rfl
  have harm : exec (.das k) s = .next (s.addPair k) := by rw [exec_das, if_neg hk]
  exact ⟨s.addPair k, _, _, harm, writeChangesOnePlace s (succAddr k) _, writeChangesOnePlace _ k _, rfl, rfl,
    setA_setL_onlyRegs _ _ _⟩

end Sys2Proof.Proofs
end

section
/-! TS (R182): OVSK, TCAA, and the store that leaves the overflow indicator and skips. -/

namespace Sys2Proof.Proofs

open Sys2Proof.Machine Sys2Proof.Claims

/-! ## Changes of registers other than the banks -/

/-- What a place holds stands through a change of other places that spares EB, FB and BB, which share bits (R28). -/
theorem placeHolds_of_keepsBanks {Q : Loc → Prop} {s u t : State} {p : Loc} {v : Word16} (h : PlaceHolds s u p v)
    (hk : KeepsPlacesBut Q u t) (hp : ¬Q p) (hbank : ∀ r ∈ [Reg.eb, .fb, .bb], ¬Q (.reg r)) :
    PlaceHolds s t p v := by
  obtain ⟨ha, hl, hq, heb, hfb, hz, herasable, hbehind⟩ := hk
  cases p with
  | reg r => cases r <;> simp_all [PlaceHolds]
  | erasable a => exact (herasable a hp).trans h
  | behind o => exact (hbehind o hp).trans h
  | fixed a => trivial
  | missing a => trivial

section
variable (s : State) (k : Addr12)

theorem setZ_onlyRegs : OnlyRegs (fun x => x = .z) s (s.setZ k) :=
  ⟨by simp [KeepsRegsBut], fun _ => rfl, fun _ => rfl, keepsRest_refl s, rfl⟩

theorem setZ_setA_onlyRegs (v : Word16) : OnlyRegs (fun x => x = .z ∨ x = .a) s ((s.setZ k).setA v) :=
  ⟨by simp [KeepsRegsBut], fun _ => rfl, fun _ => rfl, keepsRest_refl s, rfl⟩

theorem setZ_setA_keepsPlaces (v : Word16) :
    KeepsPlacesBut (fun x => x = .reg .a ∨ x = .reg .z) s ((s.setZ k).setA v) := by
  simp [KeepsPlacesBut]

/-- Z after a write: the low 12 bits of the value where the place is Z itself (R27, R71). -/
theorem z_write (v : Word16) : (s.write k v).z = if s.resolve k = .reg .z then low12 v else s.z := by
  obtain ⟨hplace, -, -, -, -, -, hz, -⟩ := write_place s k v
  split
  case isTrue hk =>
    rw [hk] at hplace
    exact hplace
  case isFalse hk => exact hz fun e => hk e.symm

end

/-! ## The three forms -/

theorem overflowIndicator_of_ovf {a : Word16} (h : ovf a = true) :
    overflowIndicator a = if posOvf a then plusOne else minusOne := by
  rw [ovf_eq, Bool.or_eq_true] at h
  cases hp : posOvf a
  · have hn : negOvf a = true := by simpa [hp] using h
    simp [overflowIndicator, hp, hn]
  · simp [overflowIndicator, hp]

section
variable (s : State)

theorem exec_ts (ke : Addr10) : exec (.ts ke) s =
    .next (if ke = 0 then s.skipOnOverflow else if ke = 5 then s.jumpToA else s.storeA (keAddr ke)) := rfl

theorem skipOnOverflow_eq : s.skipOnOverflow = s.setZ (if ovf s.a then s.z + 1 else s.z) := by
  unfold State.skipOnOverflow
  split <;> rfl

theorem jumpToA_eq : s.jumpToA =
    (s.setZ (low12 s.a)).setA (if posOvf s.a then plusOne else if negOvf s.a then minusOne else s.a) := by
  cases ho : ovf s.a
  · obtain ⟨hp, hn⟩ : posOvf s.a = false ∧ negOvf s.a = false := by simpa [ovf_eq] using ho
    simp only [State.jumpToA, ho, hp, hn, Bool.false_eq_true, if_false]
    rfl
  · have hn : posOvf s.a = false → negOvf s.a = true := fun hp => by simpa [ovf_eq, hp] using ho
    cases hp : posOvf s.a <;> simp [State.jumpToA, ho, hp, hn, overflowIndicator_of_ovf ho]

theorem storeA_of_not_ovf (h : ovf s.a = false) (k : Addr12) : s.storeA k = s.write k s.a := by
  simp [State.storeA, h]

theorem storeA_of_ovf (h : ovf s.a = true) (k : Addr12) : s.storeA k =
    ((s.write k s.a).setZ ((s.write k s.a).z + 1)).setA (if posOvf s.a then plusOne else minusOne) := by
  simp only [State.storeA, h, if_true, overflowIndicator_of_ovf h]
  rfl

end

/-- Settles O48, form by form; the store is followed on overflow by a change of A and Z alone. -/
theorem tsStoresSkipsAndJumps : Obligations.TsStoresSkipsAndJumps := by
  rintro s ke _ rfl
  refine ⟨?ovsk, ?tcaa, fun h0 h5 ho => ?store, fun h0 h5 ho => ?storeAndSkip⟩ <;> simp only [exec_ts]
  case ovsk =>
    rintro rfl
    rw [if_pos rfl, skipOnOverflow_eq]
    exact ⟨_, rfl, rfl, setZ_onlyRegs s _⟩
  case tcaa =>
    rintro rfl
    rw [if_neg (by decide), if_pos rfl, jumpToA_eq]
    exact ⟨_, rfl, rfl, rfl, setZ_setA_onlyRegs s _ _⟩
  case store =>
    rw [if_neg h0, if_neg h5, storeA_of_not_ovf s ho]
    exact ⟨_, rfl, writeChangesOnePlace s (keAddr ke) s.a⟩
  case storeAndSkip =>
    rw [if_neg h0, if_neg h5, storeA_of_ovf s ho]
    obtain ⟨hplace, hkeep⟩ := write_place s (keAddr ke) s.a
    have hafter := setZ_setA_keepsPlaces (s.write (keAddr ke) s.a) ((s.write (keAddr ke) s.a).z + 1)
      (if posOvf s.a then plusOne else minusOne)
    refine ⟨_, rfl, rfl, congrArg (· + 1) (z_write s (keAddr ke) s.a), fun ha hz => ?_, ?_,
      write_keepsRest s (keAddr ke) s.a⟩
    · exact placeHolds_of_keepsBanks hplace hafter (not_or.mpr ⟨ha, hz⟩) (by simp)
    · simpa only [keAddr, or_assoc, or_comm, or_left_comm] using keepsPlacesBut_trans hkeep hafter

end Sys2Proof.Proofs
end

section
/-! The exchanges and the pair loads (R184 to R189). -/

namespace Sys2Proof.Proofs

open Sys2Proof.Machine Sys2Proof.Claims

/-! ## A register exchanged, a register loaded -/

/-- The form in which a place holds a word depends on the width of L alone (R22). -/
theorem placeHolds_of_params {s u t : State} {p : Loc} {v : Word16} (hp : u.params = s.params)
    (h : PlaceHolds u t p v) : PlaceHolds s t p v := by
  unfold PlaceHolds at h ⊢
  rwa [hp] at h

theorem placeHolds_reedit {s t : State} {r : Reg} {v : Word16} (h : PlaceHolds s t (.reg r) v) (k : Addr12) :
    PlaceHolds s (t.reedit k) (.reg r) v := by
  cases r
  case zero => trivial
  all_goals simpa [PlaceHolds] using h

section
variable (s : State) {r : Reg} (hr : r ∉ [Reg.eb, .fb, .bb])
include hr

/-- A register that shares no bits with another, written, is all that changed (R21 to R29). -/
theorem writeReg_onlyRegs (v : Word16) : OnlyRegs (fun x => x = r) s (s.writeReg r v) := by
  refine ⟨?_, by simp, by simp, by simp [KeepsRest, KeepsSequencer, KeepsChannels, KeepsRecord], by simp⟩
  cases r <;> simp_all [KeepsRegsBut, State.writeReg]

/-- The place is written first, so the register's new value stands where the two are one (R184 to R186, R189). -/
theorem exchange_exchanged (k : Addr12) : Exchanged s (s.exchange r k) r k := by
  obtain ⟨hplace, hkeep⟩ := write_place s k (s.readReg r)
  obtain ⟨hrest, hpending⟩ := write_keepsRest s k (s.readReg r)
  have hreg := writeReg_keepsPlaces (s.write k (s.readReg r)) r (s.read k)
  obtain ⟨-, -, -, hrest', hpending'⟩ := writeReg_onlyRegs (s.write k (s.readReg r)) hr (s.read k)
  refine ⟨placeHolds_of_params (by simp) (writeReg_placeHolds (s.write k _) r _), fun hne => ?_, ?_,
    keepsRest_trans hrest hrest', hpending'.trans hpending⟩
  · exact placeHolds_of_keepsBanks hplace hreg hne fun b hb e => hr (Loc.reg.inj e ▸ hb)
  · simpa only [or_comm, State.exchange] using keepsPlacesBut_trans hkeep hreg

/-- A half of DCA or DCS loads its register and re-edits its operand (R187, R188, R73). -/
theorem loadHalf_loaded (f : Word16 → Word16) (k : Addr12) : Loaded s (s.loadHalf r f k) r (f (s.read k)) k :=
  ⟨placeHolds_reedit (writeReg_placeHolds s r _) k, onlyRegs_reedit (writeReg_onlyRegs s hr _) k⟩

end

/-- Settles O49: each arm is the exchange of its register. -/
theorem exchangesSwap : Obligations.ExchangesSwap := fun s ke =>
  ⟨⟨s.exchange .a (keAddr ke), rfl, exchange_exchanged s (by decide) (keAddr ke)⟩,
    ⟨s.exchange .l (keAddr ke), rfl, exchange_exchanged s (by decide) (keAddr ke)⟩,
    ⟨s.exchange .q (keAddr ke), rfl, exchange_exchanged s (by decide) (keAddr ke)⟩⟩

/-- Settles O50: each arm loads L from the second word and then A from the first. -/
theorem pairLoadsLoadLThenA : Obligations.PairLoadsLoadLThenA := fun s k =>
  ⟨⟨_, s.loadHalf .l id (succAddr k), rfl, loadHalf_loaded s (by decide) id (succAddr k),
      loadHalf_loaded _ (by decide) id k⟩,
    ⟨_, s.loadHalf .l neg16 (succAddr k), rfl, loadHalf_loaded s (by decide) neg16 (succAddr k),
      loadHalf_loaded _ (by decide) neg16 k⟩⟩

/-- Settles O51: the arm exchanges L with the second word and then A with the first. -/
theorem dxchSwapsThePair : Obligations.DxchSwapsThePair := fun s k =>
  ⟨_, s.exchange .l (succAddr k), rfl, exchange_exchanged s (by decide) (succAddr k),
    exchange_exchanged _ (by decide) k⟩

/-! ## DTCF and DTCB -/

section
variable (s : State)

theorem exec_dxch (k : Addr12) : exec (.dxch k) s = .next ((s.exchange .l (k + 1)).exchange .a k) := rfl

theorem exchange_register (r : Reg) {k : Addr12} (hk : k.toNat < 8) : s.exchange r k =
    (s.writeReg (regAt k.toNat) (s.readReg r)).writeReg r (s.readReg (regAt k.toNat)) := by
  rw [State.exchange, read_register s hk, write_register s hk]

/-- L takes a value without overflow as it is, whatever L's width (R22). -/
theorem writeReg_l_of_not_ovf {v : Word16} (h : ovf v = false) : s.writeReg .l v = s.setL v := by
  simp [State.writeReg, sext16_ovc h]

theorem ovf_readReg_z : ovf (s.readReg .z) = false := by
  have hz := s.z.isLt
  rw [← Bool.not_eq_true, ovf_iff, readReg_z_toNat]
  omega

theorem exec_dtcf : exec (.dxch 4) s =
    .next ((((s.setZ (low12 s.l)).setL (s.readReg .z)).setFb (fbField s.a)).setA (s.readReg .fb)) := by
  have hz : s.exchange .l 5 = (s.writeReg .z s.l).setL (s.readReg .z) :=
    (exchange_register s .l (by decide)).trans (writeReg_l_of_not_ovf _ (ovf_readReg_z s))
  rw [exec_dxch, show (4 + 1 : Addr12) = 5 from rfl, hz, exchange_register _ .a (by decide)]
  rfl

theorem exec_dtcb : exec (.dxch 5) s =
    .next ((((s.writeReg .bb s.l).setL (s.readReg .bb)).setZ (low12 s.a)).setA (s.readReg .z)) := by
  have hbb : s.exchange .l 6 = (s.writeReg .bb s.l).setL (s.readReg .bb) :=
    (exchange_register s .l (by decide)).trans (writeReg_l_of_not_ovf _ (ovf_sext16 (bbWord s.fb s.eb)))
  rw [exec_dxch, show (5 + 1 : Addr12) = 6 from rfl, hbb, exchange_register _ .a (by decide)]
  rfl

end

/-- Settles O52: both are exchanges of registers, L's with Z or BB and then A's with FB or Z. -/
theorem bankSwitchingJumps : Obligations.BankSwitchingJumps := fun s =>
  ⟨⟨_, exec_dtcf s, rfl, rfl, readReg_z_toNat s, rfl, rfl, rfl, fun _ => rfl⟩,
    ⟨_, exec_dtcb s, rfl, rfl, rfl, rfl, readReg_z_toNat s, rfl, fun _ => rfl⟩⟩

end Sys2Proof.Proofs
end

section
/-! How a step goes on: the instruction cycle with the refusals of R232 (R230, R232, R300, R305, R373). -/

namespace Sys2Proof.Proofs

open Sys2Proof.Machine

/-! ## What execute answers -/

theorem exec_edrupt_of_refuse {s : State} (hp : s.params.edruptPolicy = .refuse) (kc : Chan9) :
    exec (.edrupt kc) s = .refused .edrupt := by
  simp [exec, execEdrupt, hp]

theorem exec_edrupt_of_asRule {s : State} (hp : s.params.edruptPolicy = .asRule) (kc : Chan9) :
    exec (.edrupt kc) s = .next s.checkoutEntry := by
  simp [exec, execEdrupt, hp]

/-- Every instruction completes, but for EDRUPT under `refuse` (R223, R232, R300). -/
theorem exec_cases (i : Instr) (s : State) : (∃ t, exec i s = .next t) ∨
    (∃ kc, i = .edrupt kc) ∧ s.params.edruptPolicy = .refuse ∧ exec i s = .refused .edrupt := by
  cases i
  case edrupt kc =>
    cases hp : s.params.edruptPolicy
    · exact .inl ⟨_, exec_edrupt_of_asRule hp kc⟩
    · exact .inr ⟨⟨kc, rfl⟩, rfl, exec_edrupt_of_refuse hp kc⟩
  all_goals exact .inl ⟨_, rfl⟩

section
variable {s : State} (hno : s.refusal = none)
include hno

theorem step_of_exec_next {t : State} (he : exec s.nextInstr s.issued = .next t) : step s = s.finish t := by
  simp [step, hno, he]

theorem step_of_exec_refused {r : Refusal} (he : exec s.nextInstr s.issued = .refused r) : step s = .refused r := by
  simp [step, hno, he]

end

/-! ## The three refusals -/

/-- A refusal of R232, under the parameter that names it. -/
def NamedRefusal (s : State) (r : Refusal) : Prop :=
  (r = .windowE0Low ∧ s.params.windowE0Low = .refuse) ∨
  (r = .indexSumOverflow ∧ s.params.indexSumMode = .refuse ∧ s.idx ≠ none) ∨
  (r = .edrupt ∧ s.params.edruptPolicy = .refuse ∧ ∃ kc, s.nextInstr = .edrupt kc)

/-- A step is refused before execute, by execute or at the interrupt check, or it goes on (R230, R232). -/
theorem step_cases (s : State) : (∃ t, step s = .next t) ∨ ∃ r, step s = .refused r ∧ NamedRefusal s r := by
  cases hno : s.refusal with
  | some r => exact .inr ⟨r, step_of_refusal s hno, or_assoc.mp (.inl (refusal_some s hno))⟩
  | none =>
    obtain ⟨t, he⟩ | ⟨hedrupt, hp, he⟩ := exec_cases s.nextInstr s.issued
    · obtain ⟨-, hf⟩ | ⟨-, hp, hf⟩ := finish_cases s t
      · exact .inl ⟨_, (step_of_exec_next hno he).trans hf⟩
      · exact .inr ⟨_, (step_of_exec_next hno he).trans hf, .inl ⟨rfl, hp⟩⟩
    · exact .inr ⟨_, step_of_exec_refused hno he, .inr (.inr ⟨rfl, by simpa using hp, hedrupt⟩)⟩

/-- Settles O9: a step goes on or answers a refusal of R232, which its parameter names. -/
theorem everyStepContinues : Obligations.EveryStepContinues := by
  intro s
  obtain ⟨t, hnext⟩ | ⟨r, hrefused, hnamed⟩ := step_cases s
  · exact ⟨fun _ _ _ => ⟨t, hnext⟩, by simp [hnext], by simp [hnext]⟩
  · refine ⟨fun hw hx he => ?_, fun r' hr' => ?_, by simp [hrefused]⟩
    · obtain ⟨-, hp⟩ | ⟨-, hp, -⟩ | ⟨-, hp, -⟩ := hnamed <;> contradiction
    · obtain rfl : r = r' := by simpa [hrefused] using hr'
      exact hnamed

/-! ## The cycle -/

theorem setZ_setResumeWord_none {s : State} (h : s.resumeWord = none) (z : Addr12) :
    (s.setZ z).setResumeWord none = s.setZ z := by
  rw [← h]
  rfl

section
variable {s : State} {f w : Word15} {z : Addr12} {i : Instr}

/-- The fetch takes the resume word and leaves Z, or takes the word at Z and moves Z on (R230). -/
theorem fetchPhase_eq (h : (∃ r, s.resumeWord = some r ∧ f = r ∧ z = s.z) ∨
    (s.resumeWord = none ∧ f = s.fetch .fetch s.z ∧ z = s.z + 1)) :
    s.fetchPhase = (f, (s.setZ z).setResumeWord none) := by
  obtain ⟨r, hr, rfl, rfl⟩ | ⟨hr, rfl, rfl⟩ := h
  · simp only [State.fetchPhase, hr]
    rfl
  · rw [setZ_setResumeWord_none hr]
    simp only [State.fetchPhase, hr]

/-- The word to decode is the fetched word, with a pending index added (R108, R230). -/
theorem instrWord_eq (hf : s.fetchPhase.1 = f)
    (h : (∃ x, s.idx = some x ∧ w = indexWord s.params f x) ∨ (s.idx = none ∧ w = f)) : s.instrWord = w := by
  obtain ⟨x, hx, rfl⟩ | ⟨hx, rfl⟩ := h <;> simp [State.instrWord, hx, hf]

/-- An index whose sum does not overflow is not refused (R108). -/
theorem indexRefuses_eq_false (hf : s.fetchPhase.1 = f)
    (h : s.params.indexSumMode = .refuse → ∀ x, s.idx = some x → ovf (add16 (sext16 f) x) = false) :
    s.indexRefuses = false := by
  cases hx : s.idx with
  | none => simp [State.indexRefuses, hx]
  | some x =>
    by_cases hm : s.params.indexSumMode = .refuse
    · simp [State.indexRefuses, hx, hf, h hm x hx]
    · simp [State.indexRefuses, hx, hm]

/-- A step none of whose accesses and whose index sum does not refuse gets to execute (R70, R108, R232). -/
theorem refusal_eq_none (hx : s.indexRefuses = false) (hw : s.params.windowE0Low = .refuse →
    (s.resumeWord = none → s.inLowWindow s.z = false) ∧
      ∀ k ∈ operandAddrs s.nextInstr s.issued.z, s.inLowWindow k = false) : s.refusal = none := by
  rw [refusal_eq s hx, if_neg]
  simp only [State.windowRefuses, Bool.and_eq_true, decide_eq_true_eq]
  rintro (⟨hr, hp, hin⟩ | ⟨k, hk, hp, hin⟩)
  · simp [(hw hp).1 hr] at hin
  · simp [(hw hp).2 k hk] at hin

/-- Settles O7: fetch, index and decode give the instruction and the state it is issued in; execute, the interrupt check
and the boundary follow. -/
theorem stepIsTheInstructionCycle : Obligations.StepIsTheInstructionCycle := by
  rintro s f w z i hfetch hindex rfl hwin hsum
  have hphase := fetchPhase_eq hfetch
  have hf : s.fetchPhase.1 = f := congrArg Prod.fst hphase
  have hnext : s.nextInstr = decode s.ext w := by rw [State.nextInstr, instrWord_eq hf hindex]
  have hissued : s.issued = (((s.setZ z).setResumeWord none).setIdx none).setExt false := by rw [State.issued, hphase]
  have hz : s.issued.z = z := congrArg State.z hissued
  have hno : s.refusal = none := refusal_eq_none (indexRefuses_eq_false hf hsum) (by rwa [hnext, hz])
  rw [← hissued, ← hz, ← hnext]
  obtain ⟨t, he⟩ | ⟨-, -, he⟩ := exec_cases s.nextInstr s.issued
  · rw [step_of_exec_next hno he, he]
    rfl
  · rw [step_of_exec_refused hno he, he]

/-- Settles O6: the cycle with the word fetched from memory and no index. -/
theorem stepRunsTheFetchedInstruction : Obligations.StepRunsTheFetchedInstruction := by
  intro s i hr hidx hdecode hwin
  have hcycle := stepIsTheInstructionCycle s _ _ _ i (.inr ⟨hr, rfl, rfl⟩) (.inr ⟨hidx, rfl⟩) hdecode.symm
    (fun hp => ⟨fun _ => (hwin hp).1, (hwin hp).2⟩) (by simp [hidx])
  rwa [setZ_setResumeWord_none hr] at hcycle

end

end Sys2Proof.Proofs
end

section
/-! The extracode flag and the pending index last one instruction (R36, R219, R220, R221, R230). -/

namespace Sys2Proof.Proofs

open Sys2Proof.Machine

/-- The extracode flag and the pending index are as before. -/
def KeepsExtIdx (s t : State) : Prop := t.ext = s.ext ∧ t.idx = s.idx

section
variable {s : State}

/-- No instruction but EXTEND and the two INDEX touches the extracode flag or the index (R219, R220, R221). -/
theorem exec_keepsExtIdx {i : Instr} {t : State} (he : exec i s = .next t) (hextend : i ≠ .extend)
    (hindex : ∀ ke, i ≠ .index ke) (hindexExt : ∀ k, i ≠ .indexExt k) : KeepsExtIdx s t := by
  cases i
  case extend => exact absurd rfl hextend
  case index ke => exact absurd rfl (hindex ke)
  case indexExt k => exact absurd rfl (hindexExt k)
  case edrupt kc =>
    cases hp : s.params.edruptPolicy
    · cases (exec_edrupt_of_asRule hp kc).symm.trans he
      simp [KeepsExtIdx, checkoutEntry_eq]
    · cases (exec_edrupt_of_refuse hp kc).symm.trans he
  case ts ke =>
    rw [exec_ts] at he
    cases he
    split
    · simp [KeepsExtIdx, skipOnOverflow_eq]
    · split
      · simp [KeepsExtIdx, jumpToA_eq]
      · cases ho : ovf s.a <;> simp [KeepsExtIdx, storeA_of_ovf, storeA_of_not_ovf, ho]
  case tc | bzf | bzmf => cases he; split <;> simp [KeepsExtIdx]
  case das => cases he; split <;> simp [KeepsExtIdx, State.doubleAL, State.addPair]
  case ads | incr | aug => cases he; simp [KeepsExtIdx, State.storeCount, State.counterOverflowCheck]
  case dxch | dca | dcs => cases he; simp [KeepsExtIdx, State.exchange, State.loadHalf]
  case rand | ror | rxor | wand | wor => cases he; simp [KeepsExtIdx, State.combineA, State.combineBoth]
  case ccs | resume => cases he; simp [KeepsExtIdx, State.skip, State.returnFromInterrupt]
  all_goals cases he; simp [KeepsExtIdx]

/-- An interrupt entry, if the check makes one, leaves both as they are (R307). -/
theorem retire_keepsExtIdx (i : Instr) (z : Addr12) : KeepsExtIdx s (s.retire i z) := by
  unfold State.retire
  obtain e | ⟨n, -, -, e⟩ := interruptCheck_cases (s.setLastSelfJump (isSelfJump i z)) <;> simp [KeepsExtIdx, e]

/-- With the alarms off no event restarts the machine (R330). -/
theorem event_keepsExtIdx (halarms : s.params.restartAlarms = false) (e : Event) : KeepsExtIdx s (s.event e) := by
  cases e with
  | counter a k => simp only [State.event]; split <;> simp [KeepsExtIdx]
  | panel c v => simp [State.event, KeepsExtIdx]
  | raise n => simp only [State.event]; split <;> simp [KeepsExtIdx]
  | alarm c => simp [State.event, State.mayAlarm, halarms, KeepsExtIdx]

/-- With the alarms off the boundary leaves both as they are (R373). -/
theorem boundary_keepsExtIdx (halarms : s.params.restartAlarms = false) : KeepsExtIdx s s.boundary := by
  have hboundary := boundary_induction s
    (R := fun x y => x.params.restartAlarms = false → y.params = x.params ∧ KeepsExtIdx x y)
    (fun x _ => ⟨rfl, rfl, rfl⟩)
    (fun x y z hxy hyz hx => by
      obtain ⟨hp, hext, hidx⟩ := hxy hx
      obtain ⟨hp', hext', hidx'⟩ := hyz (hp ▸ hx)
      exact ⟨hp'.trans hp, hext'.trans hext, hidx'.trans hidx⟩)
    (fun x es _ => ⟨rfl, rfl, rfl⟩)
    (fun x e hx => ⟨by simp [event_fields], event_keepsExtIdx hx e⟩)
  exact (hboundary halarms).2

/-- Both are what the instruction left, since neither the interrupt check nor the boundary touches them. -/
theorem step_ext_idx {t : State} (hstep : step s = .next t) (halarms : s.params.restartAlarms = false) :
    ∃ u, exec s.nextInstr s.issued = .next u ∧ KeepsExtIdx u t := by
  obtain ⟨u, hu, rfl⟩ := step_next hstep
  obtain ⟨-, -, -, hparams, -⟩ := exec_keepsRecord hu
  obtain ⟨hext, hidx⟩ := retire_keepsExtIdx (s := u) s.nextInstr s.issued.z
  obtain ⟨hext', hidx'⟩ := boundary_keepsExtIdx (s := u.retire s.nextInstr s.issued.z)
    (by simp [retire_record, hparams, halarms])
  exact ⟨u, hu, hext'.trans hext, hidx'.trans hidx⟩

end

/-- Settles O15: an instruction is issued with both clear, and only EXTEND and the two INDEX set one. -/
theorem extAndIndexLastOneInstruction : Obligations.ExtAndIndexLastOneInstruction := by
  intro s t hstep halarms
  obtain ⟨u, hu, hext, hidx⟩ := step_ext_idx hstep halarms
  rw [hext, hidx]
  cases hi : s.nextInstr
  case extend | index | indexExt =>
    rw [hi] at hu
    cases hu
    simp
  all_goals
    obtain ⟨hkext, hkidx⟩ := exec_keepsExtIdx hu (by simp [hi]) (by simp [hi]) (by simp [hi])
    simp [hkext, hkidx]

end Sys2Proof.Proofs
end

section
/-! RESUME, EDRUPT and the three instructions that set a mode (R216, R217, R218, R222, R223). -/

namespace Sys2Proof.Proofs

open Sys2Proof.Machine Sys2Proof.Claims

theorem addr15_toNat (w : Word15) : (addr15 w).toNat = w.toNat % 0o10000 := by
  simp [addr15, BitVec.extractLsb'_toNat]

/-- An address put into a memory word is kept whole. -/
theorem ovc_zext16_toNat (k : Addr12) : (ovc (zext16 k)).toNat = k.toNat := by
  have hk := k.isLt
  rw [ovc_toNat, zext16, BitVec.toNat_setWidth]
  split <;> omega

theorem exec_resume (s : State) : exec .resume s =
    .next (((s.setZ (addr15 (s.erasableWord 0o15))).setResumeWord (some (s.erasableWord 0o17))).setIsr false) :=
  congrArg Host.Outcome.next (returnFromInterrupt_eq s)

/-- Settles O21: the return changes Z, the resume word and `isr`. -/
theorem resumeReturns : Obligations.ResumeReturns := fun s =>
  ⟨_, exec_resume s, addr15_toNat _, rfl, rfl, rfl, rfl, rfl, rfl, rfl, rfl, rfl, rfl, rfl, fun _ => rfl, fun _ => rfl,
    (keepsRest_refl s).2⟩

/-- The two words EDRUPT saves (R223). -/
theorem erasableWord_checkoutEntry (s : State) (a : Nat) : s.checkoutEntry.erasableWord a =
    if a = 0o15 then ovc (zext16 (s.z + 1)) else if a = 0o17 then s.fetch .entry s.z else s.erasableWord a := by
  simp [checkoutEntry_eq, erasableWord_putErasable]

/-- Settles O23: the saved words by their addresses; the rest of the entry sets `isr` and Z. -/
theorem edruptActsLikeAnEntry : Obligations.EdruptActsLikeAnEntry := by
  refine fun s kc => ⟨fun hp => exec_edrupt_of_refuse hp kc, fun hp => ⟨_, exec_edrupt_of_asRule hp kc, ?_⟩⟩
  have hbrupt : s.checkoutEntry.erasableWord 0o17 = s.fetch .entry s.z := by simp [erasableWord_checkoutEntry]
  have hzrupt : (s.checkoutEntry.erasableWord 0o15).toNat = (s.z.toNat + 1) % 0o10000 := by
    rw [erasableWord_checkoutEntry, if_pos rfl, ovc_zext16_toNat]
    exact BitVec.toNat_add s.z 1
  refine ⟨rfl, rfl, hbrupt, hzrupt, fun a h15 h17 => by simp [erasableWord_checkoutEntry, h15, h17], ?_⟩
  rw [checkoutEntry_eq]
  exact ⟨fun _ => rfl, rfl, rfl, rfl, rfl, rfl, rfl, rfl, rfl, rfl, rfl, (keepsRest_refl s).2⟩

theorem keepsStore_refl (s : State) : KeepsStore s s :=
  ⟨rfl, rfl, rfl, rfl, rfl, rfl, fun _ => rfl, fun _ => rfl⟩

/-- Settles O24: each arm sets its flag; a flag is no part of the store, the channels or the record. -/
theorem modeInstructionsSetTheirFlag : Obligations.ModeInstructionsSetTheirFlag := fun s =>
  ⟨⟨s.setInhint true, rfl, rfl, rfl, rfl, rfl, rfl, rfl, keepsStore_refl s, (keepsRest_refl s).2⟩,
    ⟨s.setInhint false, rfl, rfl, rfl, rfl, rfl, rfl, rfl, keepsStore_refl s, (keepsRest_refl s).2⟩,
    ⟨s.setExt true, rfl, rfl, rfl, rfl, rfl, rfl, rfl, keepsStore_refl s, (keepsRest_refl s).2⟩⟩

end Sys2Proof.Proofs
end

section
/-! The jumps, CCS and INDEX (R210 to R214, R220, R221). -/

namespace Sys2Proof.Proofs

open Sys2Proof.Machine Sys2Proof.Claims

/-! ## The jumps -/

section
variable (s : State) (k : Addr12)

theorem exec_tc : exec (.tc k) s = .next ((s.setZ k).setQ (if k = 2 then s.q else zext16 s.z)) := by
  by_cases hk : k = 2
  · simp only [exec, execTc, if_pos hk]
    rfl
  · simp only [exec, execTc, if_neg hk]
    rfl

theorem setZ_setQ_onlyRegs (v : Word16) : OnlyRegs (fun x => x = .z ∨ x = .q) s ((s.setZ k).setQ v) :=
  ⟨by simp [KeepsRegsBut], fun _ => rfl, fun _ => rfl, keepsRest_refl s, rfl⟩

/-- BZF goes to K on a zero of either sign (R213). -/
theorem exec_bzf : exec (.bzf k) s = .next (s.setZ (if val16 s.a = 0 then k else s.z)) := by
  simp only [exec, execBzf, isZero16_iff]
  split <;> rfl

/-- BZMF goes to K on +0 and on the patterns with bit 16 (R214). -/
theorem exec_bzmf : exec (.bzmf k) s = .next (s.setZ (if s.a = 0 ∨ 0o100000 ≤ s.a.toNat then k else s.z)) := by
  simp only [exec, execBzmf, sign16_iff, plusZero]
  split <;> rfl

end

/-- Settles O53: each arm sets Z to K or leaves it, and TC sets Q beside it. -/
theorem jumpsSetZ : Obligations.JumpsSetZ := fun s k =>
  ⟨⟨_, exec_tc s k, rfl, fun hk => (congrArg BitVec.toNat (if_neg hk)).trans (readReg_z_toNat s), fun hk => if_pos hk,
      setZ_setQ_onlyRegs s k _⟩,
    ⟨_, rfl, rfl, setZ_onlyRegs s k⟩, ⟨_, exec_bzf s k, rfl, setZ_onlyRegs s _⟩,
    ⟨_, exec_bzmf s k, rfl, setZ_onlyRegs s _⟩⟩

/-! ## CCS -/

/-- The magnitude of a pattern is that of its value (R11, R212). -/
theorem magnitude_toNat (v : Word16) : (magnitude v).toNat = (val16 v).natAbs := by
  have hv := v.isLt
  by_cases hsign : sign16 v = true
  · have hneg := (sign16_iff v).mp hsign
    rw [magnitude, if_pos hsign, neg16_toNat, val16_toNat, if_pos hneg]
    omega
  · have hpos := mt (sign16_iff v).mpr hsign
    rw [magnitude, if_neg hsign, val16_toNat, if_neg hpos]
    omega

/-- The diminished magnitude is one less, but 0 for a zero (R212). -/
theorem dabs_toNat (v : Word16) : (dabs v).toNat = (val16 v).natAbs - 1 := by
  have hm := magnitude_toNat v
  unfold dabs
  split
  case isTrue h =>
    have hle : (1 : Word16) ≤ magnitude v := BitVec.le_def.mpr (Nat.le_of_lt h)
    rw [BitVec.toNat_sub_of_le hle, hm]
    rfl
  case isFalse h =>
    rw [show (0 : Word16).toNat = 0 from rfl]
    omega

/-- Where the value is not a zero, CCS skips by its sign (R212). -/
theorem ccsSkip_toNat (v : Word16) : (ccsSkip v).toNat =
    if v = 0 then 1 else if v = 0o177777 then 3 else if 0 < val16 v then 0 else 2 := by
  by_cases hplus : v = 0
  · simp [ccsSkip, hplus, plusZero]
  by_cases hminus : v = 0o177777
  · subst hminus
    rfl
  have hne : val16 v ≠ 0 := fun h => by
    have hzero := (isZero16_iff v).mpr h
    rw [isZero16, Bool.or_eq_true, decide_eq_true_eq, decide_eq_true_eq] at hzero
    exact hzero.elim hplus hminus
  have hskip : ccsSkip v = if sign16 v = true then 2 else 0 := by
    rw [ccsSkip, if_neg (by exact hplus), if_neg (by exact hminus)]
  have hsign := sign16_iff_val16_neg hne
  rw [hskip, if_neg hplus, if_neg hminus]
  by_cases hpos : 0 < val16 v
  · rw [if_neg (by rw [hsign]; omega), if_pos hpos]
    rfl
  · rw [if_pos (hsign.mpr (by omega)), if_neg hpos]
    rfl

theorem setA_setZ_onlyRegs (s : State) (v : Word16) (k : Addr12) :
    OnlyRegs (fun x => x = .a ∨ x = .z) s ((s.setA v).setZ k) :=
  ⟨by simp [KeepsRegsBut], fun _ => rfl, fun _ => rfl, keepsRest_refl s, rfl⟩

/-- Settles O54: the arm writes A and Z, with the numbers of the two lemmas above, and re-edits its operand. -/
theorem ccsCountsAndSkips : Obligations.CcsCountsAndSkips := by
  rintro s ke _ rfl
  refine ⟨_, rfl, ?_, ?_, onlyRegs_reedit (setA_setZ_onlyRegs s _ _) (keAddr ke)⟩
  · simp [State.skip, keAddr, dabs_toNat]
  · simp [State.skip, keAddr, BitVec.toNat_add, ccsSkip_toNat]

/-! ## INDEX -/

/-- What a re-edit leaves: everything but the editing register it rewrites (R73). -/
theorem reedit_frame (s : State) (k : Addr12) :
    (s.reedit k).idx = s.idx ∧ (s.reedit k).ext = s.ext ∧ (s.reedit k).resumeWord = s.resumeWord ∧
    (s.reedit k).inhint = s.inhint ∧ (s.reedit k).isr = s.isr ∧ (s.reedit k).pending = s.pending ∧
    KeepsRegsBut (fun _ => False) s (s.reedit k) ∧ ReeditedOnly s (s.reedit k) k ∧ KeepsChannels s (s.reedit k) ∧
    KeepsRecord s (s.reedit k) := by
  obtain ⟨⟨hext, hidx, hresume, hinhint, hisr⟩, hchannels, hrecord⟩ := reedit_keepsRest s k
  exact ⟨hidx, hext, hresume, hinhint, hisr, by simp, by simp [KeepsRegsBut], reedit_reeditedOnly s k, hchannels,
    hrecord⟩

/-- Settles O55: each form sets the index, the extended one `ext` too, and re-edits its operand. -/
theorem indexHoldsItsOperand : Obligations.IndexHoldsItsOperand := fun s ke k =>
  ⟨⟨_, rfl, reedit_frame (s.setIdx _) (keAddr ke)⟩, ⟨_, rfl, reedit_frame ((s.setIdx _).setExt true) k⟩⟩

end Sys2Proof.Proofs
end

section
/-! The channels: what each reads as, what a write to each changes, and the instructions that read and write them (R241,
R242, R243, R247, R250 to R256). -/

namespace Sys2Proof.Proofs

open Sys2Proof.Machine Sys2Proof.Claims

theorem mem_inputChannels {n : Nat} : n ∈ inputChannels ↔
    n = 0o15 ∨ n = 0o16 ∨ n = 0o30 ∨ n = 0o31 ∨ n = 0o32 ∨ n = 0o33 := by
  simp [inputChannels]

theorem mem_outputChannels {n : Nat} : n ∈ outputChannels ↔
    n = 0o5 ∨ n = 0o6 ∨ n = 0o10 ∨ n = 0o11 ∨ n = 0o12 ∨ n = 0o13 ∨ n = 0o14 ∨ n = 0o34 ∨ n = 0o35 := by
  simp [outputChannels]

/-! ## What a channel reads as -/

/-- Past channels 1 to 4 a read gives the latch of an input or output channel, and else a draw (R241, R247). -/
theorem chanRead_of_notMem (s : State) {c : Chan9} (h : c.toNat ∉ [1, 2, 3, 4]) : s.chanRead c =
    if c.toNat ∈ inputChannels ∨ c.toNat ∈ outputChannels ∨ c.toNat = 0o7 ∨ c.toNat = 0o77 then
      sext16 (s.latch c.toNat)
    else sext16 (Config.unassignedChannelRead s.steps c) := by
  simp only [List.mem_cons, List.not_mem_nil, or_false, not_or] at h
  obtain ⟨h1, h2, h34⟩ := h
  rw [State.chanRead, if_neg h1, if_neg h2, if_neg (not_or.mpr h34)]
  simp only [ite_or]

/-- Settles O56: channels 1 to 4 by their numbers, the others by the lists of R247. -/
theorem channelReads : Obligations.ChannelReads := by
  intro s c
  refine ⟨?_, ?_, ?_, fun h => ?_, fun h => ?_, fun h => ?_⟩
  · rintro rfl
    rfl
  · rintro rfl
    rfl
  · rintro (rfl | rfl) <;> rfl
  all_goals
    simp only [List.mem_cons, List.not_mem_nil, or_false] at h
    rw [chanRead_of_notMem s (by simp only [List.mem_cons, List.not_mem_nil, or_false]; omega)]
    simp only [mem_inputChannels, mem_outputChannels]
  · exact if_pos (by omega)
  · exact if_pos (by omega)
  · exact if_neg (by omega)

/-- Settles O57: each arm is a write of A. -/
theorem channelReadsWriteA : Obligations.ChannelReadsWriteA := fun s _ =>
  ⟨⟨_, rfl, rfl, setA_onlyRegs s _⟩, ⟨_, rfl, rfl, setA_onlyRegs s _⟩, ⟨_, rfl, rfl, setA_onlyRegs s _⟩,
    ⟨_, rfl, rfl, setA_onlyRegs s _⟩⟩

/-! ## What a channel write changes -/

section
variable (s : State) {c : Chan9} {v : Word16}

/-- Only channel 1 leads to L (R242). -/
theorem l_chanWrite_of_ne (h : c ≠ 1) : (s.chanWrite c v).l = s.l := by
  obtain ⟨h1, -⟩ | ⟨-, e⟩ | ⟨-, e⟩ | ⟨-, e⟩ | ⟨-, e⟩ | ⟨-, e⟩ | ⟨-, e⟩ := chanWrite_cases s c v
  · exact absurd (BitVec.eq_of_toNat_eq h1) h
  all_goals simp [e]

/-- Only channel 2 leads to Q (R242). -/
theorem q_chanWrite_of_ne (h : c ≠ 2) : (s.chanWrite c v).q = s.q := by
  obtain ⟨-, e⟩ | ⟨h2, -⟩ | ⟨-, e⟩ | ⟨-, e⟩ | ⟨-, e⟩ | ⟨-, e⟩ | ⟨-, e⟩ := chanWrite_cases s c v
  · simp [e, State.writeReg]
  · exact absurd (BitVec.eq_of_toNat_eq h2) h
  all_goals simp [e]

/-- A channel write reaches no latch but its channel's own (R242). -/
theorem latch_chanWrite_of_ne {d : Nat} (h : d ≠ c.toNat) : (s.chanWrite c v).latch d = s.latch d := by
  obtain ⟨-, e⟩ | ⟨-, e⟩ | ⟨-, e⟩ | ⟨-, e⟩ | ⟨-, e⟩ | ⟨-, e⟩ | ⟨-, e⟩ := chanWrite_cases s c v <;>
    simp [e, latch_output, latch_putLatch, h]

/-- Channels 1 to 4 have no latch, and the latch of an input channel is not written (R242). -/
theorem latch_chanWrite_of_unwritten (h : c.toNat ∈ [1, 2, 3, 4] ++ inputChannels) (d : Nat) :
    (s.chanWrite c v).latch d = s.latch d := by
  obtain ⟨-, e⟩ | ⟨-, e⟩ | ⟨-, e⟩ | ⟨h', -⟩ | ⟨h', -⟩ | ⟨h', -⟩ | ⟨h', -⟩ := chanWrite_cases s c v
  iterate 3 simp [e]
  all_goals
    simp only [List.mem_append, List.mem_cons, List.not_mem_nil, or_false, mem_inputChannels, mem_outputChannels]
      at h h'
    omega

theorem chanWrite_seven : s.chanWrite 7 v = s.output 7 (ovc v &&& 0o160) := rfl

theorem chanWrite_seventySeven : s.chanWrite 0o77 v = s.output 0o77 0 := rfl

/-- The latch of a channel that is not an input channel, 1 to 4, 7 or 077 takes the overflow-corrected word (R242). -/
theorem latch_chanWrite_of_plain (h : c.toNat ∉ [1, 2, 3, 4, 7] ++ inputChannels ++ [0o77]) :
    (s.chanWrite c v).latch c.toNat = ovc v := by
  obtain ⟨h', -⟩ | ⟨h', -⟩ | ⟨h', -⟩ | ⟨h', -⟩ | ⟨h', -⟩ | ⟨-, e⟩ | ⟨-, e⟩ := chanWrite_cases s c v
  iterate 5
    simp only [List.mem_append, List.mem_cons, List.not_mem_nil, or_false, mem_inputChannels] at h h'
    omega
  · simp [e, latch_output]
  · simp [e, latch_putLatch]

/-- An output channel with the ordinary write takes the overflow-corrected word, with its event (R242, R243). -/
theorem chanWrite_of_output (h : c.toNat ∈ outputChannels) : s.chanWrite c v = s.output c (ovc v) := by
  obtain ⟨h', -⟩ | ⟨h', -⟩ | ⟨h', -⟩ | ⟨h', -⟩ | ⟨h', -⟩ | ⟨-, e⟩ | ⟨⟨-, -, -, -, -, hout⟩, -⟩ := chanWrite_cases s c v
  iterate 5
    simp only [mem_inputChannels, mem_outputChannels] at h h'
    omega
  · exact e
  · exact absurd h hout

/-- A channel that is no output channel emits nothing (R243). -/
theorem history_chanWrite_of_silent (hout : c.toNat ∉ outputChannels) (h7 : c ≠ 7) (h77 : c ≠ 0o77) :
    (s.chanWrite c v).history = s.history := by
  obtain ⟨-, e⟩ | ⟨-, e⟩ | ⟨-, e⟩ | ⟨h, -⟩ | ⟨h, -⟩ | ⟨h, -⟩ | ⟨-, e⟩ := chanWrite_cases s c v
  iterate 3 simp [e]
  · exact absurd (BitVec.eq_of_toNat_eq h) h7
  · exact absurd (BitVec.eq_of_toNat_eq h) h77
  · exact absurd h hout
  · simp [e]

/-- An output channel emits its event with the word its latch takes, every other channel none (R243, D22; log 11). -/
theorem history_chanWrite : (s.chanWrite c v).history = s.history ++
    if c.toNat ∈ outputChannels then [⟨s.steps + 1, c, ovc v⟩]
    else if c = 7 then [⟨s.steps + 1, c, ovc v &&& 0o160⟩]
    else if c = 0o77 then [⟨s.steps + 1, c, 0⟩] else [] := by
  split
  next hout => simp [chanWrite_of_output s hout]
  next hout =>
    split
    next h7 => rw [h7, chanWrite_seven]; simp
    next h7 =>
      split
      next h77 => rw [h77, chanWrite_seventySeven]; simp
      next h77 => simp [history_chanWrite_of_silent s hout h7 h77]

end

/-- Settles O58: each register, latch and event by its lemma above; the rest no channel write touches. -/
theorem channelWrites : Obligations.ChannelWrites := by
  refine fun s c v => ⟨_, rfl, ?_, ?_, fun d hd => latch_chanWrite_of_ne s hd,
    fun h => latch_chanWrite_of_unwritten s h _, ?_, ?_, latch_chanWrite_of_plain s, history_chanWrite s, ?_⟩
  · split
    next h => subst h; rfl
    next h => exact l_chanWrite_of_ne s h
  · split
    next h => subst h; rfl
    next h => exact q_chanWrite_of_ne s h
  · rintro rfl
    exact latch_output s 7 _ 7
  · rintro rfl
    exact latch_output s 0o77 0 0o77
  · simp [KeepsSequencer, KeepsRecord, State.erasableWord, State.behindWord]

/-- Settles O59: each arm is a channel write, after a write of A in the last two. -/
theorem channelWritesSendA : Obligations.ChannelWritesSendA := fun s c =>
  ⟨⟨_, rfl, (chanWrite_fields s c _).1, rfl⟩, ⟨_, rfl, (chanWrite_fields _ c _).1, rfl⟩,
    ⟨_, rfl, (chanWrite_fields _ c _).1, rfl⟩⟩

end Sys2Proof.Proofs
end

section
/-! The output history through a whole step (R243, R251, R253, R255, R341). -/

namespace Sys2Proof.Proofs

open Sys2Proof.Machine

variable {s : State}

/-- A channel write leaves the history or appends one event of its own channel (R242, R243). -/
theorem history_chanWrite_cases (s : State) (c : Chan9) (v : Word16) : (s.chanWrite c v).history = s.history ∨
    ∃ w, (s.chanWrite c v).history = s.history ++ [⟨s.steps + 1, c, w⟩] := by
  obtain ⟨-, e⟩ | ⟨-, e⟩ | ⟨-, e⟩ | ⟨-, e⟩ | ⟨-, e⟩ | ⟨-, e⟩ | ⟨-, e⟩ := chanWrite_cases s c v <;> simp [e]

/-- No instruction but WRITE, WAND and WOR appends an event (R243). -/
theorem exec_keepsHistory {i : Instr} {t : State} (he : exec i s = .next t) (hwrite : ∀ c, i ≠ .write c)
    (hwand : ∀ c, i ≠ .wand c) (hwor : ∀ c, i ≠ .wor c) : t.history = s.history := by
  cases i
  case write c => exact absurd rfl (hwrite c)
  case wand c => exact absurd rfl (hwand c)
  case wor c => exact absurd rfl (hwor c)
  case edrupt kc =>
    cases hp : s.params.edruptPolicy
    · cases (exec_edrupt_of_asRule hp kc).symm.trans he
      simp [checkoutEntry_eq]
    · cases (exec_edrupt_of_refuse hp kc).symm.trans he
  case ts ke =>
    rw [exec_ts] at he
    cases he
    split
    · simp [skipOnOverflow_eq]
    · split
      · simp [jumpToA_eq]
      · cases ho : ovf s.a <;> simp [storeA_of_ovf, storeA_of_not_ovf, ho]
  case tc | bzf | bzmf => cases he; split <;> simp
  case das => cases he; split <;> simp [State.doubleAL, State.addPair]
  case ads | incr | aug => cases he; simp [State.storeCount, State.counterOverflowCheck]
  case dxch | dca | dcs => cases he; simp [State.exchange, State.loadHalf]
  case rand | ror | rxor => cases he; simp [State.combineA]
  case ccs | resume => cases he; simp [State.skip, State.returnFromInterrupt]
  all_goals cases he; simp

/-- Neither the interrupt check nor the counting of the step appends an event (R341). -/
theorem history_retire (i : Instr) (z : Addr12) : (s.retire i z).history = s.history := by
  unfold State.retire
  obtain e | ⟨n, -, -, e⟩ := interruptCheck_cases (s.setLastSelfJump (isSelfJump i z)) <;> simp [e]

/-- Nor does any event of the other agents (R373). -/
theorem history_boundary (s : State) : s.boundary.history = s.history :=
  boundary_induction s (R := fun x y => y.history = x.history) (fun _ => rfl) (fun _ _ _ hxy hyz => hyz.trans hxy)
    (fun _ _ => rfl) (fun x e => by simp [event_fields])

/-- Settles O60: of the phases of a step only execute appends, and there only the write of a channel. -/
theorem historyOnlyGrows : Obligations.HistoryOnlyGrows := by
  intro s t hstep
  obtain ⟨u, hu, rfl⟩ := step_next hstep
  rw [history_boundary, history_retire]
  cases hi : s.nextInstr
  case write c | wand c | wor c =>
    rw [hi] at hu
    cases hu
    obtain h | ⟨w, h⟩ := history_chanWrite_cases _ c _
    · exact .inl (h.trans (by simp [State.combineA]))
    · exact .inr ⟨c, w, h.trans (by simp [State.combineA]), by simp⟩
  all_goals
    exact .inl ((exec_keepsHistory hu (by simp [hi]) (by simp [hi]) (by simp [hi])).trans (by simp))

end Sys2Proof.Proofs
end

section
/-! The counter requests: the word each makes, and its effect on TIME2, the requests and channel 013 (R320 to R324). -/

namespace Sys2Proof.Proofs

open Sys2Proof.Machine Sys2Proof.Claims

/-! ## The words by hand, and where PINC and MINC overflow -/

/-- MINC of a counter word, by hand: one less, but 077776 after +0 and -0 after 1 and after -16383 (R320). -/
theorem mincWord_fst (v : Word15) : (mincWord v).1 = counted .minc v := by
  by_cases hzero : v = 0
  · subst hzero
    decide
  by_cases hnegZero : v = 1 ∨ v = 0o40000
  · obtain rfl | rfl := hnegZero <;> decide
  have hv := v.isLt
  obtain ⟨hone, hmin⟩ := not_or.mp hnegZero
  have hzero' : v.toNat ≠ 0 := fun h => hzero (BitVec.eq_of_toNat_eq h)
  have hone' : v.toNat ≠ 1 := fun h => hone (BitVec.eq_of_toNat_eq h)
  have hmin' : v.toNat ≠ 16384 := fun h => hmin (BitVec.eq_of_toNat_eq h)
  have hpred : (v - 1).toNat = v.toNat - 1 := BitVec.toNat_sub_of_le (BitVec.le_def.mpr (by simp; omega))
  have hcounted : counted .minc v = v - 1 := by rw [counted, if_neg hzero, if_neg hnegZero]
  apply BitVec.eq_of_toNat_eq
  rw [hcounted, hpred, mincWord, ovc_toNat, add16_toNat, sext16_toNat, show minusOne.toNat = 65534 from rfl]
  split_ifs <;> omega

/-- PINC overflows at +16383 only (R320). -/
theorem pincWord_snd (v : Word15) : (pincWord v).2 = true ↔ v = 0o37777 := by
  have hv := v.isLt
  rw [pincWord, posOvf_iff, add16_toNat, sext16_toNat, show plusOne.toNat = 1 from rfl, ← BitVec.toNat_inj,
    show (0o37777 : Word15).toNat = 16383 from rfl]
  split_ifs <;> omega

/-- MINC overflows at -16383 only (R320). -/
theorem mincWord_snd (v : Word15) : (mincWord v).2 = true ↔ v = 0o40000 := by
  have hv := v.isLt
  rw [mincWord, negOvf_iff, add16_toNat, sext16_toNat, show minusOne.toNat = 65534 from rfl, ← BitVec.toNat_inj,
    show (0o40000 : Word15).toNat = 16384 from rfl]
  split_ifs <;> omega

/-- DINC of a word that is no zero counts it toward zero (R322). -/
theorem dincWord_eq {v : Word15} (hv : isZero15 v = false) : dincWord v = counted .dinc v := by
  have hnz : ¬(v = 0 ∨ v = 0o77777) := by simpa [isZero15] using hv
  rw [dincWord, counted, if_neg hnz]
  by_cases hs : v.toNat < 0o40000
  · rw [if_pos hs, if_neg (by rw [sign15_iff]; omega)]
  · rw [if_neg hs, if_pos ((sign15_iff v).mpr (by omega))]

theorem counterFindsZero_iff {k : CounterKind} {v : Word15} :
    CounterFindsZero k v ↔ k = .dinc ∧ isZero15 v = true := by
  simp [CounterFindsZero, isZero15]

/-- MCDU adds the pattern of ones, which is the two's-complement -1 (R320, R322). -/
theorem counted_mcdu (v : Word15) : counted .mcdu v = v + 0o77777 := BitVec.sub_eq_add_neg v 1

/-- A counter word shifted left, and shifted with a one put in (R320). -/
theorem counted_shift (v : Word15) : v + v = counted .shinc v ∧ v + v + 1 = counted .shanc v := by
  have hv := v.isLt
  constructor <;> apply BitVec.eq_of_toNat_eq <;> simp [counted] <;> omega

section
variable (s : State) (a : Nat) (k : CounterKind)

/-! ## What a request can do -/

theorem counter_pinc : s.counter a .pinc =
    (s.putErasable a (counted .pinc (s.erasableWord a))).effectIf (pincWord (s.erasableWord a)).2 a := by
  rw [← pincWord_fst]
  rfl

theorem counter_minc : s.counter a .minc =
    (s.putErasable a (counted .minc (s.erasableWord a))).effectIf (mincWord (s.erasableWord a)).2 a := by
  rw [← mincWord_fst]
  rfl

/-- A DINC that finds a zero has the zero effect; every other request stores the counted word and, where it overflows, has
the overflow effect (R320). -/
theorem counter_cases :
    (CounterFindsZero k (s.erasableWord a) ∧ s.counter a k = s.zeroEffect a) ∨
    (¬CounterFindsZero k (s.erasableWord a) ∧ ∃ b, (b = true ↔ CounterOverflows k (s.erasableWord a)) ∧
      s.counter a k = (s.putErasable a (counted k (s.erasableWord a))).effectIf b a) := by
  cases k
  case dinc =>
    cases hz : isZero15 (s.erasableWord a) with
    | true => exact .inl ⟨counterFindsZero_iff.mpr ⟨rfl, hz⟩, by simp [State.counter, hz]⟩
    | false =>
      refine .inr ⟨by simp [counterFindsZero_iff, hz], false, by simp [CounterOverflows], ?_⟩
      simp [State.counter, State.effectIf, hz, dincWord_eq hz]
  case pinc => exact .inr ⟨by simp [CounterFindsZero], _, by simp [CounterOverflows, pincWord_snd], counter_pinc s a⟩
  case minc => exact .inr ⟨by simp [CounterFindsZero], _, by simp [CounterOverflows, mincWord_snd], counter_minc s a⟩
  all_goals refine .inr ⟨by simp [CounterFindsZero], false, by simp [CounterOverflows], ?_⟩
  case pcdu => rfl
  case mcdu => rw [counted_mcdu]; rfl
  case shinc => rw [← (counted_shift _).1]; rfl
  case shanc => rw [← (counted_shift _).2]; rfl

/-! ## The effect of a zero -/

/-- Only the zero of TIME6 has an effect: T6RUPT, and channel 013 bit 15 cleared (R320, R323). -/
theorem zeroEffect_cases : (a = 0o31 ∧ s.zeroEffect a = (s.raise .t6rupt).putLatch 0o13 (s.latch 0o13 &&& 0o37777)) ∨
    (a ≠ 0o31 ∧ s.zeroEffect a = s) := by
  by_cases ha : a = 0o31
  · exact .inl ⟨ha, by rw [ha]; rfl⟩
  · refine .inr ⟨ha, ?_⟩
    unfold State.zeroEffect
    split <;> simp_all

@[simp] theorem erasableWord_zeroEffect (b : Nat) : (s.zeroEffect a).erasableWord b = s.erasableWord b := by
  obtain ⟨-, e⟩ | ⟨-, e⟩ := zeroEffect_cases s a <;> simp [e]

theorem pending_get_zeroEffect (n : Source) :
    (s.zeroEffect a).pending.get n = true ↔ s.pending.get n = true ∨ (a = 0o31 ∧ n = .t6rupt) := by
  obtain ⟨rfl, e⟩ | ⟨ha, e⟩ := zeroEffect_cases s a
  · by_cases hn : n = .t6rupt <;> simp [e, hn]
  · simp [e, ha]

theorem latch_zeroEffect (c : Nat) :
    (s.zeroEffect a).latch c = if a = 0o31 ∧ c = 0o13 then s.latch c &&& 0o37777 else s.latch c := by
  obtain ⟨rfl, e⟩ | ⟨ha, e⟩ := zeroEffect_cases s a
  · by_cases hc : c = 0o13 <;> simp [e, hc, latch_putLatch]
  · simp [e, ha]

/-! ## The words, requests and latches a request leaves -/

/-- A zero that DINC finds stays as it is, so it is what the hand count makes of it (R320). -/
theorem counted_of_findsZero {v : Word15} (h : CounterFindsZero k v) : counted k v = v := by
  obtain ⟨rfl, hv⟩ := h
  exact if_pos hv

theorem not_overflows_of_findsZero {v : Word15} (h : CounterFindsZero k v) : ¬CounterOverflows k v := by
  obtain ⟨rfl, -⟩ := h
  simp [CounterOverflows]

theorem erasableWord_counter_same : (s.counter a k).erasableWord a = counted k (s.erasableWord a) := by
  obtain ⟨hz, e⟩ | ⟨-, b, -, e⟩ := counter_cases s a k
  · rw [e, erasableWord_zeroEffect, counted_of_findsZero k hz]
  · rw [e, erasableWord_effectIf, if_neg (by omega), erasableWord_putErasable, if_pos rfl]

/-- An overflow of TIME1 counts TIME2 as a PINC; no other request touches a second word (R320). -/
theorem erasableWord_counter_other {b : Nat} (hb : b ≠ a) :
    (CounterOverflows k (s.erasableWord a) ∧ a = 0o25 ∧ b = 0o24 →
      (s.counter a k).erasableWord b = counted .pinc (s.erasableWord b)) ∧
    (¬(CounterOverflows k (s.erasableWord a) ∧ a = 0o25 ∧ b = 0o24) →
      (s.counter a k).erasableWord b = s.erasableWord b) := by
  obtain ⟨hz, e⟩ | ⟨-, o, ho, e⟩ := counter_cases s a k
  · rw [e, erasableWord_zeroEffect]
    exact ⟨fun h => absurd h.1 (not_overflows_of_findsZero k hz), fun _ => rfl⟩
  · rw [e, erasableWord_effectIf]
    refine ⟨fun ⟨hover, ha, hb'⟩ => ?_, fun h => ?_⟩
    · rw [if_pos ⟨ho.mpr hover, ha, hb'⟩, pincWord_fst, ← hb', erasableWord_putErasable, if_neg hb]
    · rw [if_neg fun hc => h ⟨ho.mp hc.1, hc.2⟩, erasableWord_putErasable, if_neg hb]

theorem pending_get_counter (n : Source) : (s.counter a k).pending.get n = true ↔ s.pending.get n = true ∨
    (CounterOverflows k (s.erasableWord a) ∧ a = 0o26 ∧ n = .t3rupt) ∨
    (CounterOverflows k (s.erasableWord a) ∧ a = 0o27 ∧ n = .t4rupt) ∨
    (CounterOverflows k (s.erasableWord a) ∧ a = 0o30 ∧ n = .t5rupt) ∨
    (CounterFindsZero k (s.erasableWord a) ∧ a = 0o31 ∧ n = .t6rupt) := by
  obtain ⟨hz, e⟩ | ⟨hz, b, hb, e⟩ := counter_cases s a k
  · rw [e, pending_get_zeroEffect]
    simp [hz, not_overflows_of_findsZero k hz]
  · rw [e, pending_get_effectIf, hb]
    simp [hz, and_assoc, and_comm]

theorem latch_counter (c : Nat) :
    (CounterFindsZero k (s.erasableWord a) ∧ a = 0o31 ∧ c = 0o13 →
      (s.counter a k).latch c = s.latch c &&& 0o37777) ∧
    (¬(CounterFindsZero k (s.erasableWord a) ∧ a = 0o31 ∧ c = 0o13) → (s.counter a k).latch c = s.latch c) := by
  obtain ⟨hz, e⟩ | ⟨hz, b, -, e⟩ := counter_cases s a k
  · rw [e, latch_zeroEffect]
    exact ⟨fun h => if_pos h.2, fun h => if_neg fun hc => h ⟨hz, hc⟩⟩
  · simp [e, hz]

end

/-- Settles O25: the word, the second word, the requests and the latches by the lemmas above, the rest by the frame of a
request. -/
theorem counterRequestsCount : Obligations.CounterRequestsCount := by
  rintro s a k _ rfl
  refine ⟨_, rfl, erasableWord_counter_same s a k, fun b hb => erasableWord_counter_other s a k hb,
    pending_get_counter s a k, latch_counter s a k, ?_⟩
  simp [KeepsSequencer, KeepsRecord, State.behindWord]

/-! ## Requests as events of the boundary -/

/-- A request that R32 gives the cell happens, TIME6's only while it is enabled (R321, R323). -/
theorem event_counter {s : State} {a : Nat} {k : CounterKind} (hk : k ∈ counterKinds a)
    (h6 : a = 0o31 → (s.latch 0o13).getLsbD 14 = true) : s.event (.counter a k) = s.counter a k := by
  have hmay : s.mayCount a k = true := by
    simp only [State.mayCount, hk, decide_true, Bool.true_and, Bool.or_eq_true, bne_iff_ne]
    exact (ne_or_eq a 0o31).imp_right h6
  simp [State.event, hmay]

/-- The PINC of a timer happens whenever it is asked for (R32). -/
theorem event_pinc_timer (s : State) {a : Nat} (h1 : 0o24 ≤ a) (h2 : a ≤ 0o30) :
    s.event (.counter a .pinc) = s.counter a .pinc := by
  have hk : CounterKind.pinc ∈ counterKinds a := by interval_cases a <;> decide
  exact event_counter hk (by omega)

/-- TIME1 and TIME2 raise no request, whatever they hold (R320). -/
theorem pending_counter_pinc (s : State) {a : Nat} (ha : a ≤ 0o25) : (s.counter a .pinc).pending = s.pending := by
  rw [counter_pinc, pending_effectIf, if_neg (show a ≠ 0o26 by omega), if_neg (show a ≠ 0o27 by omega),
    if_neg (show a ≠ 0o30 by omega), ite_self]
  rfl

/-- Settles O26: the PINC of a timer is a counter request, its overflow at 037777. -/
theorem timerOverflowHasItsEffect : Obligations.TimerOverflowHasItsEffect := by
  intro s
  have hoverflows : ∀ v, CounterOverflows .pinc v ↔ v = 0o37777 := by simp [CounterOverflows]
  refine ⟨fun a n han => ?_, fun a h1 h2 => ?_, ?_, ?_, ?_⟩
  · simp only [List.mem_cons, Prod.mk.injEq, List.not_mem_nil, or_false] at han
    have hrange : 0o26 ≤ a ∧ a ≤ 0o30 := by omega
    rw [event_pinc_timer s (by omega) hrange.2]
    refine ⟨fun m => ?_, fun b hb => (erasableWord_counter_other s a .pinc hb).2 (by omega)⟩
    rw [pending_get_counter]
    obtain ⟨rfl, rfl⟩ | ⟨rfl, rfl⟩ | ⟨rfl, rfl⟩ := han <;> simp [hoverflows, CounterFindsZero, and_comm]
  · rw [event_pinc_timer s h1 h2, erasableWord_counter_same]
  · rw [event_pinc_timer s (by decide) (by decide), pending_counter_pinc s (by decide)]
  · obtain ⟨hover, hplain⟩ := erasableWord_counter_other s 0o25 .pinc (b := 0o24) (by decide)
    rw [event_pinc_timer s (by decide) (by decide)]
    split
    · exact hover ⟨(hoverflows _).mpr ‹_›, rfl, rfl⟩
    · exact hplain fun h => ‹¬_› ((hoverflows _).mp h.1)
  · rw [event_pinc_timer s (by decide) (by decide), pending_counter_pinc s (by decide)]

/-- The mask of channel 013 keeps every bit below bit 15. -/
theorem time6Mask_bit {b : Nat} (hb : b < 14) : (0o37777 : Word15).getLsbD b = true := by
  interval_cases b <;> rfl

/-- Settles O27: a disabled request does not happen; an enabled one is the DINC of a zero or of another word. -/
theorem time6StopsAtZero : Obligations.Time6StopsAtZero := by
  intro s
  refine ⟨fun hoff => if_neg (by rw [State.mayCount, hoff]; decide), fun hon hz => ?_, fun hon hz => ?_⟩
  · have hzero : CounterFindsZero .dinc (s.erasableWord 0o31) := counterFindsZero_iff.mpr ⟨rfl, hz⟩
    have hlatch := (latch_counter s 0o31 .dinc 0o13).1 ⟨hzero, rfl, rfl⟩
    refine ⟨_, event_counter (by decide) fun _ => hon, fun n => ?_, ?_, fun b hb => ?_, fun c hc => ?_, ?_, ?_⟩
    · simp [pending_get_counter, hzero, not_overflows_of_findsZero _ hzero]
    · simp [hlatch]
    · rw [hlatch, BitVec.getLsbD_and, time6Mask_bit hb, Bool.and_true]
    · exact (latch_counter s 0o31 .dinc c).2 fun h => hc h.2.2
    · simp
    · have hword : ∀ a, (s.counter 0o31 .dinc).erasableWord a = s.erasableWord a := by
        obtain ⟨-, e⟩ | ⟨hnz, -⟩ := counter_cases s 0o31 .dinc
        · simp [e]
        · exact absurd hzero hnz
      simpa [KeepsStore, State.behindWord] using hword
  · have hnz : ¬CounterFindsZero .dinc (s.erasableWord 0o31) := by simp [counterFindsZero_iff, hz]
    refine ⟨_, event_counter (by decide) fun _ => hon, erasableWord_counter_same s _ _, ?_, fun c => ?_, by simp⟩
    · simp [State.counter, hz, State.putErasable]
    · exact (latch_counter s 0o31 .dinc c).2 fun h => hnz h.1

end Sys2Proof.Proofs
end

section
/-! The boundary with the alarms off: what the counter agent and the host do, and what they leave (R321, R340, R347, R373). -/

namespace Sys2Proof.Proofs

open Sys2Proof.Machine Sys2Proof.Claims

section
variable (s : State)

/-! ## The host's events -/

/-- A panel event elsewhere than on an input channel does nothing (R340). -/
theorem panel_of_not_input {c : Chan9} (hc : c.toNat ∉ inputChannels) (v : Word16) : s.panel c v = s := if_neg hc

/-- On an input channel it latches the value and, on 015 and 016, raises a request (R340). -/
theorem panel_cases {c : Chan9} (hc : c.toNat ∈ inputChannels) (v : Word16) :
    (c.toNat = 0o15 ∧ s.panel c v = (s.putLatch c.toNat (low15 v)).raise .keyrupt1) ∨
    (c.toNat = 0o16 ∧ s.panel c v = (s.putLatch c.toNat (low15 v)).raise .keyrupt2) ∨
    (c.toNat ≠ 0o15 ∧ c.toNat ≠ 0o16 ∧ s.panel c v = s.putLatch c.toNat (low15 v)) := by
  simp only [State.panel, if_pos hc]
  split
  · exact .inl ⟨‹_›, rfl⟩
  · split
    · exact .inr (.inl ⟨‹_›, rfl⟩)
    · exact .inr (.inr ⟨‹_›, ‹_›, rfl⟩)

theorem latch_panel {c : Chan9} (hc : c.toNat ∈ inputChannels) (v : Word16) (d : Nat) :
    (s.panel c v).latch d = if d = c.toNat then low15 v else s.latch d := by
  obtain ⟨-, e⟩ | ⟨-, e⟩ | ⟨-, -, e⟩ := panel_cases s hc v <;> simp [e, latch_putLatch]

theorem pending_get_raise (m n : Source) :
    (s.raise m).pending.get n = true ↔ s.pending.get n = true ∨ n = m := by
  by_cases hn : n = m <;> simp [hn]

theorem pending_get_panel {c : Chan9} (hc : c.toNat ∈ inputChannels) (v : Word16) (n : Source) :
    (s.panel c v).pending.get n = true ↔
      s.pending.get n = true ∨ (c.toNat = 0o15 ∧ n = .keyrupt1) ∨ (c.toNat = 0o16 ∧ n = .keyrupt2) := by
  obtain ⟨h, e⟩ | ⟨h, e⟩ | ⟨h, h', e⟩ := panel_cases s hc v
  · rw [e, pending_get_raise]
    simp [h]
  · rw [e, pending_get_raise]
    simp [h]
  · simp [e, h, h']

end

/-- Settles O28: a panel event by its channel, a Raise by its source. -/
theorem hostEventsLatchAndRaise : Obligations.HostEventsLatchAndRaise := by
  refine fun s c v => ⟨fun hc => ?_, fun hc => panel_of_not_input s hc v, fun n hn m => ?_⟩
  · refine ⟨_, rfl, (latch_panel s hc v _).trans (if_pos rfl), fun d hd => (latch_panel s hc v d).trans (if_neg hd),
      pending_get_panel s hc v, by simp [State.event], ?_, by simp [State.event, KeepsSequencer]⟩
    simp [State.event, KeepsStore, State.erasableWord, State.behindWord]
  · have hhost : n.isHost = true := by
      revert n
      decide
    rw [State.event, if_pos hhost, pending_get_raise]

/-! ## One event -/

/-- The words a boundary may change: the counter cells (R32, R321). -/
def IsCounterCell (p : Loc) : Prop := ∃ a, 0o24 ≤ a ∧ a ≤ 0o60 ∧ p = .erasable a

/-- What the counter agent and the host leave as it was, the alarms being off (R321, R340, R347). -/
structure AgentsKeep (s t : State) : Prop where
  places : KeepsPlacesBut IsCounterCell s t
  sequencer : KeepsSequencer s t
  requests : RequestsKept s t
  latches : ∀ c, c ∉ [0o13, 0o15, 0o16, 0o30, 0o31, 0o32, 0o33] → t.latch c = s.latch c
  history : t.history = s.history
  record : KeepsRecord s t

theorem agentsKeep_refl (s : State) : AgentsKeep s s :=
  ⟨keepsPlacesBut_refl s _, (keepsRest_refl s).1, fun _ h => h, fun _ _ => rfl, rfl, (keepsRest_refl s).2.2⟩

theorem agentsKeep_trans {s u t : State} (h1 : AgentsKeep s u) (h2 : AgentsKeep u t) : AgentsKeep s t where
  places := by simpa only [or_self] using keepsPlacesBut_trans h1.places h2.places
  sequencer := by
    obtain ⟨hx, hi, hr, hn, hs⟩ := h1.sequencer
    obtain ⟨hx', hi', hr', hn', hs'⟩ := h2.sequencer
    exact ⟨hx'.trans hx, hi'.trans hi, hr'.trans hr, hn'.trans hn, hs'.trans hs⟩
  requests := fun n h => h2.requests n (h1.requests n h)
  latches := fun c hc => (h2.latches c hc).trans (h1.latches c hc)
  history := h2.history.trans h1.history
  record := by
    obtain ⟨hf, hc, hj, hp, hb⟩ := h1.record
    obtain ⟨hf', hc', hj', hp', hb'⟩ := h2.record
    exact ⟨hf'.trans hf, hc'.trans hc, hj'.trans hj, hp'.trans hp, hb'.trans hb⟩

/-- The cells that receive requests lie from 024 to 060 (R32). -/
theorem counterKinds_range {a : Nat} {k : CounterKind} (h : k ∈ counterKinds a) : 0o24 ≤ a ∧ a ≤ 0o60 := by
  unfold counterKinds at h
  split at h
  case h_30 => cases h
  all_goals omega

section
variable {s : State}

theorem counter_agentsKeep {a : Nat} {k : CounterKind} (hk : k ∈ counterKinds a) : AgentsKeep s (s.counter a k) where
  places := by
    have hrange := counterKinds_range hk
    have hword : ∀ b, ¬IsCounterCell (.erasable b) → (s.counter a k).erasableWord b = s.erasableWord b := by
      intro b hb
      have hout : ¬(0o24 ≤ b ∧ b ≤ 0o60) := fun h => hb ⟨b, h.1, h.2, rfl⟩
      exact (erasableWord_counter_other s a k (by omega)).2 (by omega)
    simpa [KeepsPlacesBut, State.behindWord] using hword
  sequencer := by simp [KeepsSequencer]
  requests := fun n hn => (pending_get_counter s a k n).mpr (.inl hn)
  latches := fun c hc => (latch_counter s a k c).2 fun h => hc (by simp [h.2.2])
  history := by simp
  record := by simp [KeepsRecord]

theorem panel_agentsKeep {c : Chan9} (hc : c.toNat ∈ inputChannels) (v : Word16) : AgentsKeep s (s.panel c v) where
  places := by simp [KeepsPlacesBut, State.erasableWord, State.behindWord]
  sequencer := by simp [KeepsSequencer]
  requests := fun n hn => (pending_get_panel s hc v n).mpr (.inl hn)
  latches := fun d hd => (latch_panel s hc v d).trans (if_neg fun h => hd (List.mem_cons_of_mem _ (by rwa [h])))
  history := by simp
  record := by simp [KeepsRecord]

theorem raise_agentsKeep (n : Source) : AgentsKeep s (s.raise n) where
  places := by simp [KeepsPlacesBut]
  sequencer := by simp [KeepsSequencer]
  requests := fun m hm => (pending_get_raise s n m).mpr (.inl hm)
  latches := fun _ _ => rfl
  history := rfl
  record := by simp [KeepsRecord]

/-- With the alarms off an event is a counter request, a panel event or a Raise, or does nothing (R321, R330, R340). -/
theorem event_agentsKeep (halarms : s.params.restartAlarms = false) (e : Event) : AgentsKeep s (s.event e) := by
  cases e with
  | counter a k =>
    by_cases hm : s.mayCount a k = true
    · have hk : k ∈ counterKinds a := by
        simp only [State.mayCount, Bool.and_eq_true, decide_eq_true_eq] at hm
        exact hm.1
      simpa [State.event, hm] using counter_agentsKeep hk
    · simpa [State.event, hm] using agentsKeep_refl s
  | panel c v =>
    by_cases hc : c.toNat ∈ inputChannels
    · exact panel_agentsKeep hc v
    · rw [State.event, panel_of_not_input s hc]
      exact agentsKeep_refl s
  | raise n =>
    rw [State.event]
    split
    · exact raise_agentsKeep n
    · exact agentsKeep_refl s
  | alarm c => simpa [State.event, State.mayAlarm, halarms] using agentsKeep_refl s

/-! ## The boundary -/

theorem events_agentsKeep (halarms : s.params.restartAlarms = false) (es : List Event) :
    AgentsKeep s (es.foldl State.event s) := by
  induction es generalizing s with
  | nil => exact agentsKeep_refl s
  | cons e rest ih =>
    have hevent := event_agentsKeep halarms e
    obtain ⟨-, -, -, hparams, -⟩ := hevent.record
    exact agentsKeep_trans hevent (ih (by rw [hparams, halarms]))

/-- A boundary uses up the first list of events, if there is one, and performs it (R373). -/
theorem boundary_agentsKeep (halarms : s.params.restartAlarms = false) :
    AgentsKeep (s.setBoundaries s.boundaries.tail) s.boundary := by
  unfold State.boundary
  split
  · rename_i hnil
    have hself : s.setBoundaries s.boundaries.tail = s := by
      rw [hnil, List.tail_nil, ← hnil]
      rfl
    rw [hself]
    exact agentsKeep_refl s
  · rename_i es rest hcons
    rw [hcons]
    exact events_agentsKeep (s := s.setBoundaries rest) halarms es

end

/-- Settles O30: the frame of the boundary's events, read field by field. -/
theorem boundariesTouchOnlyTheirOwn : Obligations.BoundariesTouchOnlyTheirOwn := by
  intro s halarms
  obtain ⟨⟨ha, hl, hq, heb, hfb, hz, hword, hbehind⟩, hseq, hreq, hlatch, hhistory,
    ⟨hfixed, hsteps, -, hparams, hboundaries⟩⟩ := boundary_agentsKeep halarms
  have hreg : ∀ r, ¬IsCounterCell (.reg r) := fun r ⟨a, _, _, h⟩ => Loc.noConfusion h
  refine ⟨_, rfl, ha (hreg _), hl (hreg _), hq (hreg _), heb (hreg _) (hreg _), hfb (hreg _) (hreg _), hz (hreg _), hseq,
    hreq, hhistory, hfixed, hparams, hsteps, hboundaries, fun a hout => hword a ?_, fun o => hbehind o ?_, hlatch⟩
  · rintro ⟨b, h1, h2, hb⟩
    cases hb
    exact hout ⟨h1, h2⟩
  · rintro ⟨b, -, -, hb⟩
    cases hb

end Sys2Proof.Proofs
end

section
/-! Interrupts: the entry and its return, and when a step takes a request (R222, R301 to R307, R361). -/

namespace Sys2Proof.Proofs

open Sys2Proof.Machine Sys2Proof.Claims

/-! ## The check and the entry -/

/-- The vectors stand four words apart, in the order of the numbers (R301). -/
theorem vector_eq (n : Source) : n.vector = BitVec.ofNat 12 (0o4000 + 4 * n.number) := by
  cases n <;> rfl

theorem addrWord_toNat (k : Addr12) : (addrWord k).toNat = k.toNat := by
  have hk := k.isLt
  rw [addrWord, BitVec.toNat_setWidth]
  omega

/-- A return address fits in ZRUPT whole (R222, R307). -/
@[simp] theorem addr15_addrWord (k : Addr12) : addr15 (addrWord k) = k := by
  have hk := k.isLt
  apply BitVec.eq_of_toNat_eq
  rw [addr15_toNat, addrWord_toNat]
  omega

section
variable (s : State)

theorem interruptCheck_of_disabled (h : s.enabled = false) : s.interruptCheck = s := by
  simp [State.interruptCheck, h]

theorem interruptCheck_of_idle (h : ∀ n, s.pending.get n = false) : s.interruptCheck = s := by
  simp [State.interruptCheck, requests_first_none.mpr h]

/-- Enabled, the check enters the pending source of the lowest number (R305). -/
theorem interruptCheck_of_lowest {n : Source} (he : s.enabled = true) (hn : s.pending.get n = true)
    (hmin : ∀ m, s.pending.get m = true → n.number ≤ m.number) : s.interruptCheck = s.enter n := by
  simp [State.interruptCheck, he, requests_first_some.mpr ⟨hn, hmin⟩]

/-- Taking a request clears it and no other (R307). -/
theorem pending_get_enter (n m : Source) :
    (s.enter n).pending.get m = true ↔ s.pending.get m = true ∧ m ≠ n := by
  by_cases hm : m = n <;> simp [hm]

end

/-- Settles O16: the table of the sources, then the entry of the lowest one, its two saved words and its frame. -/
theorem interruptEntersTheLowestNumber : Obligations.InterruptEntersTheLowestNumber := by
  refine ⟨rfl, fun s n hinhint hisr hext hidx hovf hn hmin => ?_⟩
  have he : s.enabled = true := (enabled_iff s).mpr ⟨⟨⟨⟨hinhint, hisr⟩, hext⟩, hidx⟩, hovf⟩
  refine ⟨s.enter n, interruptCheck_of_lowest s he hn hmin, by simp, by simp [vector_eq], by simp, by simp,
    pending_get_enter s n, fun w hw => ?_, fun hr => ?_, fun a h15 h17 => ?_, ?_⟩
  · simp [erasableWord_enter, hw, addrWord_toNat]
  · simp [erasableWord_enter, hr, addrWord_toNat, BitVec.toNat_add]
  · rw [erasableWord_enter, if_neg h15, if_neg h17]
  · simp [KeepsChannels, KeepsRecord, State.behindWord, State.latch]

/-- Settles O17: the five conditions by the definition; a missing one disables the check, and no request leaves it idle. -/
theorem interruptNeedsAllFiveConditions : Obligations.InterruptNeedsAllFiveConditions := by
  intro s
  have hiff : s.enabled = true ↔
      s.inhint = false ∧ s.isr = false ∧ s.ext = false ∧ s.idx = none ∧ ovf s.a = false := by
    rw [enabled_iff, and_assoc, and_assoc, and_assoc]
  refine ⟨hiff, fun h => ?_⟩
  by_cases he : s.enabled = true
  · obtain ⟨hinhint, hisr, hext, hidx, hovf⟩ := hiff.mp he
    exact interruptCheck_of_idle s (by simpa [hinhint, hisr, hext, hidx, hovf] using h)
  · exact interruptCheck_of_disabled s (Bool.eq_false_iff.mpr he)

/-! ## The return -/

/-- The fetch after a RESUME takes BRUPT and leaves Z at ZRUPT (R222, R230). -/
theorem fetchPhase_of_resume {u v : State} (h : exec .resume u = .next v) :
    v.fetchPhase.1 = u.erasableWord 0o17 ∧ v.fetchPhase.2.z = addr15 (u.erasableWord 0o15) := by
  cases (exec_resume u).symm.trans h
  exact ⟨rfl, rfl⟩

/-- Settles O22: RESUME gives back the two words that the entry saved, with a resume word or without. -/
theorem resumeRestoresTheInterruptedStream : Obligations.ResumeRestoresTheInterruptedStream := by
  intro s u v n hexec hzrupt hbrupt
  obtain ⟨hword, hz⟩ := fetchPhase_of_resume hexec
  rw [hword, hz, hzrupt, hbrupt]
  cases hr : s.resumeWord with
  | some w => simp [erasableWord_enter, State.fetchPhase, hr]
  | none => simp [erasableWord_enter, State.fetchPhase, hr]

/-! ## What execute does to the requests and to `isr` -/

/-- No request is lost, and an interrupt in service stays in service. -/
def KeepsService (s t : State) : Prop := RequestsKept s t ∧ (s.isr = true → t.isr = true)

section
variable {s : State}

/-- A counter check may raise a request, and leaves `isr` (R320, R326). -/
theorem counterOverflowCheck_keepsService {w : State} (hp : w.pending = s.pending) (hi : w.isr = s.isr) (k : Addr12)
    (sum : Word16) : KeepsService s (w.counterOverflowCheck k sum) := by
  refine ⟨fun n hn => (pending_get_effectIf w _ _ n).mpr (.inl (by rwa [hp])), fun hs => ?_⟩
  simp [State.counterOverflowCheck, hi, hs]

/-- No instruction clears a request, and none but RESUME ends the service of an interrupt (R222, R302, R304). -/
theorem exec_keepsService {i : Instr} {t : State} (he : exec i s = .next t) (hresume : i ≠ .resume) :
    KeepsService s t := by
  cases i
  case resume => exact absurd rfl hresume
  case edrupt kc =>
    cases hp : s.params.edruptPolicy
    · cases (exec_edrupt_of_asRule hp kc).symm.trans he
      simp [KeepsService, RequestsKept, checkoutEntry_eq]
    · cases (exec_edrupt_of_refuse hp kc).symm.trans he
  case ts ke =>
    rw [exec_ts] at he
    cases he
    split
    · simp [KeepsService, RequestsKept, skipOnOverflow_eq]
    · split
      · simp [KeepsService, RequestsKept, jumpToA_eq]
      · cases ho : ovf s.a <;> simp [KeepsService, RequestsKept, storeA_of_ovf, storeA_of_not_ovf, ho]
  case ads | incr | aug => cases he; exact counterOverflowCheck_keepsService (by simp) (by simp) _ _
  case tc | bzf | bzmf => cases he; split <;> simp [KeepsService, RequestsKept]
  case das => cases he; split <;> simp [KeepsService, RequestsKept, State.doubleAL, State.addPair]
  case dxch | dca | dcs => cases he; simp [KeepsService, RequestsKept, State.exchange, State.loadHalf]
  case rand | ror | rxor | wand | wor =>
    cases he
    simp [KeepsService, RequestsKept, State.combineA, State.combineBoth]
  case ccs => cases he; simp [KeepsService, RequestsKept, State.skip]
  all_goals cases he; simp [KeepsService, RequestsKept]

theorem exec_requestsKept {i : Instr} {t : State} (he : exec i s = .next t) : RequestsKept s t := by
  by_cases hi : i = .resume
  · subst hi
    cases (exec_resume s).symm.trans he
    exact fun _ hn => hn
  · exact (exec_keepsService he hi).1

/-! ## When a step takes a request -/

/-- After execute the check takes no request, or it is enabled and enters one source, clearing that request alone. -/
theorem retire_cases (u : State) (i : Instr) (z : Addr12) :
    ((u.retire i z).z = u.z ∧ (u.retire i z).isr = u.isr ∧ (u.retire i z).pending = u.pending) ∨
    ∃ n, u.enabled = true ∧ (u.retire i z).z = n.vector ∧ (u.retire i z).isr = true ∧
      (u.retire i z).pending = u.pending.set n false := by
  unfold State.retire
  obtain e | ⟨n, he, -, e⟩ := interruptCheck_cases (u.setLastSelfJump (isSelfJump i z))
  · exact .inl (by simp [e])
  · exact .inr ⟨n, he, by simp [e]⟩

/-- With the alarms off a step ends as its instruction left Z, `isr` and the requests, but for requests raised at the
boundary; or interrupts were enabled and one source was entered, which lost its own request alone (R305, R307, R340). -/
theorem step_service {t u : State} (hstep : step s = .next t) (hu : exec s.nextInstr s.issued = .next u)
    (halarms : s.params.restartAlarms = false) :
    (t.z = u.z ∧ t.isr = u.isr ∧ RequestsKept u t) ∨
    ∃ n, u.enabled = true ∧ t.z = n.vector ∧ t.isr = true ∧
      ∀ m, m ≠ n → u.pending.get m = true → t.pending.get m = true := by
  obtain ⟨u', hu', rfl⟩ := step_next hstep
  cases hu'.symm.trans hu
  obtain ⟨-, -, -, hparams, -⟩ := exec_keepsRecord hu
  have hoff : (u.retire s.nextInstr s.issued.z).params.restartAlarms = false := by
    simp [retire_record, hparams, halarms]
  have hkeep := boundary_agentsKeep hoff
  obtain ⟨-, -, -, -, -, hz, -⟩ := hkeep.places
  obtain ⟨-, -, -, -, hisr⟩ := hkeep.sequencer
  have hz' := hz fun ⟨_, _, _, h⟩ => Loc.noConfusion h
  obtain ⟨hrz, hri, hrp⟩ | ⟨n, he, hrz, hri, hrp⟩ := retire_cases u s.nextInstr s.issued.z
  · exact .inl ⟨hz'.trans hrz, hisr.trans hri, fun m hm => hkeep.requests m (by simp [hrp, hm])⟩
  · exact .inr ⟨n, he, hz'.trans hrz, hisr.trans hri, fun m hne hm => hkeep.requests m (by simp [hrp, hne, hm])⟩

end

/-- Settles O18: the instruction leaves `isr` set, and the check with `isr` set is disabled. -/
theorem noInterruptNests : Obligations.NoInterruptNests := by
  intro s t hstep halarms hisr hne
  obtain ⟨u, hu, -⟩ := step_next hstep
  obtain ⟨hreq, hservice⟩ := exec_keepsService hu hne
  have huisr : u.isr = true := hservice (by simp [hisr])
  obtain ⟨-, hti, htreq⟩ | ⟨n, he, -⟩ := step_service hstep hu halarms
  · exact ⟨hti.trans huisr, fun n hn => htreq n (hreq n (by simpa using hn))⟩
  · simp [State.enabled, huisr] at he

/-- Settles O19: the instruction keeps the request, and the check clears it only by entering its source. -/
theorem requestsStayPendingUntilTaken : Obligations.RequestsStayPendingUntilTaken := by
  intro s t n hstep halarms hn
  obtain ⟨u, hu, -⟩ := step_next hstep
  have hun : u.pending.get n = true := exec_requestsKept hu n (by simpa using hn)
  obtain ⟨-, -, htreq⟩ | ⟨m, -, hz, hisr, hother⟩ := step_service hstep hu halarms
  · exact .inl (htreq n hun)
  · by_cases hm : n = m
    · exact .inr ⟨hisr, hm ▸ hz⟩
    · exact .inl (hother n hm hun)

/-- Settles O20: each of the three leaves the check disabled. -/
theorem protectedSequencesTakeNoInterrupt : Obligations.ProtectedSequencesTakeNoInterrupt := by
  intro s t u hstep hu halarms hprotected
  obtain hkept | ⟨n, he, -⟩ := step_service hstep hu halarms
  · exact hkept
  · obtain ⟨⟨⟨-, hext⟩, hidx⟩, hovf⟩ := (enabled_iff u).mp he
    simp [hext, hidx, hovf] at hprotected

end Sys2Proof.Proofs
end

section
/-! The rope loader: which images it takes, and where each word stands (R353). -/

namespace Sys2Proof.Proofs

open Sys2Proof.Machine

/-- The fixed memory that lists the words of an image at consecutive addresses. -/
def ropeFrom (start : Nat) (image : List Nat) : Memory :=
  (image.zipIdx start).map fun p => (p.2, BitVec.ofNat 15 p.1)

theorem ropeFrom_cons (start w : Nat) (rest : List Nat) :
    ropeFrom start (w :: rest) = (start, BitVec.ofNat 15 w) :: ropeFrom (start + 1) rest := rfl

/-- Word `i` of the image stands `i` places after the first. -/
theorem find_ropeFrom (start : Nat) (image : List Nat) (i : Nat) :
    Memory.find (ropeFrom start image) (start + i) = (image[i]?).map (BitVec.ofNat 15) := by
  induction image generalizing start i with
  | nil => rfl
  | cons w rest ih =>
    cases i with
    | zero => simp [ropeFrom_cons, Memory.find]
    | succ j =>
      have hplace : start + (j + 1) = start + 1 + j := by omega
      have hlater : start + 1 + j ≠ start := by omega
      simpa [ropeFrom_cons, Memory.find, hplace, hlater] using ih (start + 1) j

/-- An image of another length than the rope's, or with a word of more than 15 bits, does not load (R353). -/
theorem loadRope_of_malformed {image : List Nat} (h : image.length ≠ 36864 ∨ ∃ w ∈ image, 0o77777 < w) :
    loadRope image = none := by
  refine if_neg fun ⟨hlen, hall⟩ => ?_
  obtain hlen' | ⟨w, hw, hbig⟩ := h
  · exact hlen' hlen
  · have hsmall := of_decide_eq_true (List.all_eq_true.mp hall w hw)
    omega

theorem loadRope_of_wellFormed {image : List Nat} (hlen : image.length = 36864) (hwords : ∀ w ∈ image, w ≤ 0o77777) :
    loadRope image = some (ropeFrom 0 image) :=
  if_pos ⟨hlen, List.all_eq_true.mpr fun w hw => decide_eq_true (Nat.lt_succ_of_le (hwords w hw))⟩

/-- Settles O14: a malformed image does not load; of a well-formed one, each word stands at its own index. -/
theorem ropeLoadsInBankMajorOrder : Obligations.RopeLoadsInBankMajorOrder := by
  refine fun p image => ⟨fun hbad => ?_, fun hlen hwords => ?_⟩
  · rw [coldStart, loadRope_of_malformed hbad]
  · rw [coldStart, loadRope_of_wellFormed hlen hwords]
    refine ⟨_, rfl, rfl, fun b o w _ _ hword => ?_⟩
    have hfind := find_ropeFrom 0 image (b * 1024 + o)
    rw [Nat.zero_add, Nat.mul_comm b, hword] at hfind
    have hw := hwords w (List.mem_of_getElem? hword)
    rw [Nat.mul_comm b, State.fixedWord, hfind, Option.map_some, Option.getD_some, BitVec.toNat_ofNat]
    omega

end Sys2Proof.Proofs
end

section
/-! The alarms: when one may fire, what GOJAM leaves, and the self jump that TC TRAP needs (R330 to R334, R350). -/

namespace Sys2Proof.Proofs

open Sys2Proof.Machine Sys2Proof.Claims

section
variable (s : State)

/-! ## The self-jump bit -/

/-- With `z` the address after the instruction, a self jump is a TC or TCF to the address before it (R331). -/
theorem isSelfJump_iff (i : Instr) (z : Addr12) :
    isSelfJump i z = true ↔ ∃ k, (i = .tc k ∨ i = .tcf k) ∧ k + 1 = z := by
  cases i
  case tc j | tcf j => simp [isSelfJump, eq_sub_iff_add_eq]
  all_goals simp [isSelfJump]

/-- An interrupt entered at the end of the step leaves the bit that the instruction set (R307). -/
theorem lastSelfJump_retire (i : Instr) (z : Addr12) : (s.retire i z).lastSelfJump = isSelfJump i z := by
  unfold State.retire
  obtain e | ⟨n, -, -, e⟩ := interruptCheck_cases (s.setLastSelfJump (isSelfJump i z)) <;> simp [e]

/-- No event of the other agents touches the self-jump bit, a restart included (R350). -/
theorem lastSelfJump_boundary : s.boundary.lastSelfJump = s.lastSelfJump :=
  boundary_induction s (R := fun x y => y.lastSelfJump = x.lastSelfJump) (fun _ => rfl)
    (fun _ _ _ hxy hyz => hyz.trans hxy) (fun _ _ => rfl) (fun x e => by simp [event_fields])

/-- A fetch moves Z on, and a resume word leaves it (R230). -/
theorem issued_z : s.issued.z = if s.resumeWord = none then s.z + 1 else s.z := by
  cases h : s.resumeWord <;> simp [State.issued, State.fetchPhase, h]

theorem isSelfJump_issued : isSelfJump s.nextInstr s.issued.z = true ↔
    ∃ k, (s.nextInstr = .tc k ∨ s.nextInstr = .tcf k) ∧
      ((s.resumeWord = none ∧ k = s.z) ∨ (s.resumeWord ≠ none ∧ k + 1 = s.z)) := by
  rw [isSelfJump_iff, issued_z]
  by_cases h : s.resumeWord = none <;> simp [h]

/-! ## GOJAM -/

theorem mayAlarm_iff (c : Alarm) : s.mayAlarm c = true ↔
    s.params.restartAlarms = true ∧ (c = .tcTrap → s.lastSelfJump = true) ∧ (c = .ruptLock → s.isr = true) := by
  cases c <;> simp [State.mayAlarm]

/-- A restart sets Z and the sequencer, drops the requests, and touches no register, word or record (R350). -/
theorem gojam_fields (c : Alarm) :
    (s.gojam c).a = s.a ∧ (s.gojam c).l = s.l ∧ (s.gojam c).q = s.q ∧ (s.gojam c).eb = s.eb ∧
    (s.gojam c).fb = s.fb ∧ (s.gojam c).z = 0o4000 ∧ (s.gojam c).erasable = s.erasable ∧
    (s.gojam c).behind = s.behind ∧ (s.gojam c).ext = false ∧ (s.gojam c).idx = none ∧
    (s.gojam c).resumeWord = none ∧ (s.gojam c).inhint = true ∧ (s.gojam c).isr = false ∧
    (s.gojam c).pending = Requests.none ∧ (s.gojam c).history = s.history ∧ KeepsRecord s (s.gojam c) := by
  simp [State.gojam, KeepsRecord]

theorem latch_gojam (c : Alarm) (d : Nat) : (s.gojam c).latch d =
    if d = 0o77 then s.latch 0o77 ||| bitWord (causeBit s.params c)
    else if d ∈ gojamChannels then 0 else s.latch d := by
  have hcause : 0o77 ∉ gojamChannels := by decide
  by_cases hd : d = 0o77 <;> simp [State.gojam, latch_putLatch, latch_clearLatches, hd, hcause]

theorem bitWord_getLsbD (b : Fin 15) (i : Nat) : (bitWord b).getLsbD i = decide (i = b.val) := by
  have hb := b.isLt
  rw [bitWord, BitVec.getLsbD_shiftLeft, BitVec.getLsbD_one, Bool.eq_iff_iff]
  simp only [Bool.and_eq_true, Bool.not_eq_true', decide_eq_true_eq, decide_eq_false_iff_not]
  omega

/-- Each alarm sets the bit that its own parameter names, and no other (R334). -/
theorem causeBit_eq_iff (p : Params) (c : Alarm) (b : Nat) : b = (causeBit p c).val ↔
    (c = .tcTrap ∧ b = p.tcTrapBit.val ∨ c = .ruptLock ∧ b = p.ruptLockBit.val ∨
      c = .nightWatchman ∧ b = p.nightWatchmanBit.val) := by
  cases c <;> simp [causeBit]

end

/-- Settles O29: the self-jump bit phase by phase; an alarm by its condition, and GOJAM field by field. -/
theorem alarmsRestartTheMachine : Obligations.AlarmsRestartTheMachine := by
  refine ⟨fun s t hstep => ?_, fun s c => ⟨fun hnot => ?_, fun hon htrap hlock => ?_⟩⟩
  · obtain ⟨u, -, rfl⟩ := step_next hstep
    rw [lastSelfJump_boundary, lastSelfJump_retire, isSelfJump_issued]
  · refine if_neg fun hmay => ?_
    obtain ⟨hon, htrap, hlock⟩ := (mayAlarm_iff s c).mp hmay
    obtain hoff | ⟨hc, hoff⟩ | ⟨hc, hoff⟩ := hnot
    · exact Bool.eq_false_iff.mp hoff hon
    · exact Bool.eq_false_iff.mp hoff (htrap hc)
    · exact Bool.eq_false_iff.mp hoff (hlock hc)
  · obtain ⟨ha, hl, hq, heb, hfb, hz, herasable, hbehind, hext, hidx, hresume, hinhint, hisr, hpending, hhistory,
      hrecord⟩ := gojam_fields s c
    refine ⟨s.gojam c, if_pos ((mayAlarm_iff s c).mpr ⟨hon, htrap, hlock⟩), hz, hinhint, hisr, hext, hidx, hresume,
      by simp [hpending], fun d hd => ?_, fun d hd hcause => ?_, fun b => ?_, ha, hl, hq, heb, hfb,
      erasableWord_congr herasable, behindWord_congr hbehind, hhistory, hrecord⟩
    · have hcause : d ≠ 0o77 := fun h => absurd (h ▸ hd) (by decide)
      exact (latch_gojam s c d).trans ((if_neg hcause).trans (if_pos hd))
    · exact (latch_gojam s c d).trans ((if_neg hcause).trans (if_neg hd))
    · rw [latch_gojam, if_pos rfl, BitVec.getLsbD_or, bitWord_getLsbD,
        decide_eq_decide.mpr (causeBit_eq_iff s.params c b)]

end Sys2Proof.Proofs
end
